-- ==== Sys2Proof/Word.lean ====
section
/-! DEFINITION. The words of the FMD block: what the spec treats as bits.

A bus word, a register and a memory word are 32 bits (R7 "register width", R110); the slave port decodes a
26-bit byte offset (R80); memory is byte addressed (R84); every non-integer value of the datapath is an
IEEE 754 binary64 encoding (R12). -/

namespace Sys2Proof

/-- A register, a bus data word, a command word or a memory word (R7, R110). -/
abbrev Word := BitVec 32

/-- One byte lane of a word (R84). -/
abbrev Byte := BitVec 8

/-- A byte offset from `BLOCK_BASE`, 26 bits (R80). -/
abbrev Offset := BitVec 26

/-- The encoding of an IEEE 754 binary64 value (R12). -/
abbrev F64 := BitVec 64

end Sys2Proof
end

