-- ==== Sys2Proof/Machine/Types.lean ====
section
/-! DEFINITION. The data types of the hidden state (R46, R47, R48): plain structures that `Config` and `State` share. -/

namespace Sys2Proof.Machine

open Sys2Proof

/-- A complex datapath value: a pair of binary64 values (R46). -/
structure Cplx where
  re : F64
  im : F64
  deriving DecidableEq, Repr, Inhabited

/-- The run parameters of R48, computed when a RUN is accepted (R149). -/
structure RunParams where
  /-- `N`, the window length in samples (NSAMP). -/
  n : Nat
  /-- `R`, the sample rate in Hz (RATE). -/
  r : Nat
  /-- `F`, the local-oscillator offset in Hz (OFFSET). -/
  f : Int
  /-- `T1`, taps of bank COEF1 (NTAPS1). -/
  t1 : Nat
  /-- `T2`, taps of bank COEF2 (NTAPS2). -/
  t2 : Nat
  /-- `RND`, the PCM rounding mode (`CFG[0]`). -/
  rnd : Bool
  /-- The stage-2 decimation factor (R144). -/
  d1 : Nat
  /-- The stage-5 decimation factor (R145). -/
  d2 : Nat
  /-- The stage-2 output length (R147). -/
  l1 : Nat
  /-- The stage-3 and stage-4 length (R147). -/
  l2 : Nat
  /-- The output length (R147). -/
  l3 : Nat
  /-- The de-emphasis pole (R260). -/
  x : F64
  /-- The de-emphasis gain `1 - x` (R262). -/
  b0 : F64
  deriving DecidableEq, Repr, Inhabited

/-- The pipeline histories of R47 that a stage starts from. The decimators' history is none at all: inputs before
position 0 do not exist (R214), so no field holds it. -/
structure Histories where
  /-- The stage-1 phase accumulator: the phase index of the next sample (R191). -/
  phase : Nat
  /-- The de-emphasis filter's last output `y` (R263). -/
  deemphY : F64
  deriving DecidableEq, Repr, Inhabited

/-- The hidden state, which no bus transaction reaches (R46 to R48). -/
structure Hidden where
  /-- Stage-1 output. -/
  w1 : List Cplx
  /-- Stage-2 output. -/
  w2 : List Cplx
  /-- Stage-3 output. -/
  w3 : List F64
  /-- Stage-4 output. -/
  w4 : List F64
  /-- Stage-5 output. -/
  w5 : List F64
  run : RunParams
  hist : Histories
  deriving DecidableEq, Repr, Inhabited

end Sys2Proof.Machine
end

