-- ==== Sys2Proof/Config.lean ====
section
/-! DEFINITION. What an implementation fixes, and the values the spec leaves free.

A constant below with no body is uninterpreted: nothing in Lean can evaluate it or prove a value of it, so a claim
that mentions it holds for every value. The three parameter functions of R7 are raw here; `Machine/ParamFns.lean`
applies the obligations the spec puts on them (R193, R242, R261). -/

namespace Sys2Proof.Config

open Sys2Proof Sys2Proof.Machine

/-- The ID register's constant (R2, R32). -/
def idValue : Word := 0x464D0001#32

/-- `N_MAX`, the default capacity of IBUF in samples (R7). The capacity itself is the state's register PARAM_NMAX,
so a statement about every state speaks of every allowed capacity (log entry 3). -/
def nMaxDefault : Word := 2097152#32

/-- `T_MAX`, the default capacity of each coefficient bank in taps (R7). -/
def tMaxDefault : Word := 1024#32

/-- `BLOCK_BASE`, the platform address of the block's offset 0: OPEN (R7, R88). -/
opaque blockBase : Nat

/-- `NCO_FN` at the points its obligations leave open (R192, R193). -/
opaque ncoRaw : Nat → Nat → F64 × F64

/-- `ATAN2_FN` at the points its obligations leave open (R242). -/
opaque atan2Raw : F64 → F64 → F64

/-- `EXP_FN` at the points its obligations leave open (R261). -/
opaque expRaw : F64 → F64

/-- The value of a memory byte nothing has written since power-on: one free value per address, the same on every
read until it is written (R94, R381; 93_implementation_defined.md U3). -/
opaque powerOnByte : Nat → Byte

/-- The value a HOST read of OBUF returns while BUSY = 1: draw number and byte address (R92; U1). -/
opaque busyReadByte : Nat → Nat → Byte

/-- The byte an ABORT, SRST or reset of a busy RUN leaves in OBUF: draw number and byte address (R152, R155, R382;
U2). -/
opaque lostObufByte : Nat → Nat → Byte

/-- The hidden state between RUNs: draw number (R46, R53; U4). -/
opaque betweenRuns : Nat → Hidden

/-- Sign and payload of the NaN an operation on these operands yields. The spec leaves NaNs out of every accepted run
(R12); IEEE 754 leaves these bits open. -/
opaque nanBits : F64 → F64 → BitVec 52

end Sys2Proof.Config
end

