-- ==== Sys2Proof/Machine/Float.lean ====
section
/-! DEFINITION. IEEE 754 binary64 arithmetic (R12 to R14): every operation computes its exact result, then `RN`.

A finite value is a whole number of units of `2^-1074`, the smallest subnormal, so an exact result is a fraction
`n / d` of units and `rnUnits` rounds it once. Non-finite operands arise in no accepted run (R12); their results
follow IEEE 754, and the bits of a NaN are free (log entry 9). -/

namespace Sys2Proof.Machine

open Sys2Proof

/-- The magnitude bits of infinity; every finite magnitude is below. -/
def infMag : Nat := 0x7FF0000000000000

/-- One, in units of `2^-1074`. Kept folded: no proof should compute with it by accident. -/
@[irreducible] def oneUnits : Nat := 2 ^ 1074

def signOf (a : F64) : Bool := a.msb

/-- The encoding without its sign bit. -/
def magOf (a : F64) : Nat := a.toNat % 2 ^ 63

/-- The value of a sign and magnitude bits. -/
def ofMag (neg : Bool) (m : Nat) : F64 := BitVec.ofNat 64 (if neg then 2 ^ 63 + m else m)

def isFinite (a : F64) : Bool := decide (magOf a < infMag)
def isInf (a : F64) : Bool := decide (magOf a = infMag)
def isNan (a : F64) : Bool := decide (infMag < magOf a)

/-- The value of finite magnitude bits in units of `2^-1074`: subnormals count units, a normal value has a hidden
leading one. -/
def unitsOfMag (m : Nat) : Nat :=
  if m < 2 ^ 52 then m else (2 ^ 52 + m % 2 ^ 52) * 2 ^ (m / 2 ^ 52 - 1)

/-- The absolute value of a finite binary64 in units of `2^-1074`. -/
def absUnits (a : F64) : Nat := unitsOfMag (magOf a)

/-- A finite binary64 in units of `2^-1074`; both zeros give 0. -/
def units (a : F64) : Int := if signOf a then -(absUnits a : Int) else (absUnits a : Int)

/-- `n / d` rounded to the nearest integer, ties to even. -/
def divNearestEven (n d : Nat) : Nat :=
  let q := n / d
  let r := n % d
  if d < 2 * r ∨ (2 * r = d ∧ q % 2 = 1) then q + 1 else q

/-- The binary position of the last kept bit of `n / d` units: 53 significant bits, and never below one unit. -/
def quantum (n d : Nat) : Nat := Nat.log2 (n / d) - 52

/-- `RN` of the non-negative number of `n / d` units, as magnitude bits (R13): nearest, ties to an even significand.
A result past the largest finite value is infinity. -/
def rnUnits (n d : Nat) : Nat :=
  min (quantum n d * 2 ^ 52 + divNearestEven n (d * 2 ^ quantum n d)) infMag

/-- `RN(±n/d)` (R13). -/
def rn (neg : Bool) (n d : Nat) : F64 := ofMag neg (rnUnits n d)

/-- A NaN; its sign and payload are free. -/
def nanOf (a b : F64) : F64 :=
  let v := Config.nanBits a b
  ofMag v.msb (infMag + 2 ^ 51 + v.toNat % 2 ^ 51)

def infOf (neg : Bool) : F64 := ofMag neg infMag

/-- `a` with the sign bit flipped. -/
def fneg (a : F64) : F64 := ofMag (!signOf a) (magOf a)

/-- `fabs(a)` clears the sign bit (R13). -/
def fabs (a : F64) : F64 := ofMag false (magOf a)

/-- `fadd(a, b) = RN(a + b)`; a zero sum is `-0` only when both operands are negative (R13). -/
@[irreducible] def fadd (a b : F64) : F64 :=
  if isNan a || isNan b then nanOf a b
  else if isInf a then (if isInf b && (signOf a != signOf b) then nanOf a b else a)
  else if isInf b then b
  else
    let s := units a + units b
    if s = 0 then ofMag (signOf a && signOf b) 0 else rn (decide (s < 0)) s.natAbs 1

/-- `fsub(a, b) = RN(a - b)` (R13). -/
def fsub (a b : F64) : F64 := fadd a (fneg b)

/-- `fmul(a, b) = RN(a * b)`, its sign the exclusive or of the signs (R13). -/
@[irreducible] def fmul (a b : F64) : F64 :=
  let neg := signOf a != signOf b
  if isNan a || isNan b then nanOf a b
  else if isInf a || isInf b then
    (if magOf a = 0 ∨ magOf b = 0 then nanOf a b else infOf neg)
  else rn neg (absUnits a * absUnits b) oneUnits

/-- `fdiv(a, b) = RN(a / b)`, its sign the exclusive or of the signs (R13). -/
@[irreducible] def fdiv (a b : F64) : F64 :=
  let neg := signOf a != signOf b
  if isNan a || isNan b then nanOf a b
  else if isInf a then (if isInf b then nanOf a b else infOf neg)
  else if isInf b then ofMag neg 0
  else if magOf b = 0 then (if magOf a = 0 then nanOf a b else infOf neg)
  else rn neg (absUnits a * oneUnits) (absUnits b)

/-- `f64(n)`, exact for `|n| <= 2^53` (R12). -/
def f64 (n : Int) : F64 := rn (decide (n < 0)) (n.natAbs * oneUnits) 1

/-- The order of the numbers that two non-NaN encodings stand for, as integers; both zeros give 0. -/
def orderKey (a : F64) : Int := if signOf a then -(magOf a : Int) else (magOf a : Int)

/-- `a == 0`, true for both zeros (R14). -/
def isZero (a : F64) : Bool := decide (magOf a = 0)

/-- `a <= b` as numbers (R14). -/
def fle (a b : F64) : Bool := !isNan a && !isNan b && decide (orderKey a ≤ orderKey b)

/-- `a < b` as numbers (R14). -/
def flt (a b : F64) : Bool := !isNan a && !isNan b && decide (orderKey a < orderKey b)

/-- `fmax`, the larger value; equal values are the same number (R14). -/
def fmax (a b : F64) : F64 :=
  if isNan a || isNan b then nanOf a b else if orderKey a < orderKey b then b else a

/-- `f32to64(w)`, exact for every finite binary32 encoding (R12, R116). A binary32 number is a whole number of units of
`2^-149`. A non-finite word is refused before any RUN uses it (R143). -/
def f32to64 (w : Word) : F64 :=
  let e := (w.extractLsb' 23 8).toNat
  let f := (w.extractLsb' 0 23).toNat
  if e = 0xFF then (if f = 0 then infOf w.msb else nanOf (w.setWidth 64) (w.setWidth 64))
  else rn w.msb ((if e = 0 then f else (2 ^ 23 + f) * 2 ^ (e - 1)) * oneUnits) (2 ^ 149)

/-- What `ROUND` yields: an integer for a finite value (R304), and a mark for the values SAT16 is defined on beyond
that (R305). -/
inductive Rounded where
  | int (n : Int)
  | posInf
  | negInf
  | nan
  deriving DecidableEq, Repr

/-- `ROUND(v, RND)`: nearest integer with ties to even, or toward zero when `RND = 1` (R304). -/
def roundPcm (v : F64) (rnd : Bool) : Rounded :=
  if isNan v then .nan
  else if isInf v then (if signOf v then .negInf else .posInf)
  else
    let m := if rnd then absUnits v / oneUnits else divNearestEven (absUnits v) oneUnits
    .int (if signOf v then -(m : Int) else (m : Int))

/-- `SAT16`: the clamp to `[-32768, 32767]`, and 0 for a NaN (R305). -/
def sat16 : Rounded → Int
  | .int n => if n < -32768 then -32768 else if 32767 < n then 32767 else n
  | .posInf => 32767
  | .negInf => -32768
  | .nan => 0

/-- The binary64 constants the rules name (R16, R193, R300). -/
def fZero : F64 := 0x0000000000000000#64
def fNegZero : F64 := 0x8000000000000000#64
def fOne : F64 := 0x3FF0000000000000#64
def fNegOne : F64 := 0xBFF0000000000000#64
def fHalf : F64 := 0x3FE0000000000000#64
def f10000 : F64 := 0x40C3880000000000#64
def pi64 : F64 := 0x400921FB54442D18#64
def negPi64 : F64 := 0xC00921FB54442D18#64
def pi64Half : F64 := 0x3FF921FB54442D18#64
def negPi64Half : F64 := 0xBFF921FB54442D18#64

end Sys2Proof.Machine
end

