-- ==== Sys2Proof/Syntax.lean ====
section
/-! DEFINITION. The command set: one constructor per row of spec/opcode_table.json (R112). A command has no register,
immediate or mode field (R111): every operand is a register or a memory of the block. -/

namespace Sys2Proof

/-- The five commands a CMD write can deliver (R112). A word that is none of them is ILLEGAL (R113): the decoder
rejects it by name, and the block executes the illegal-command case (R156, R157). -/
inductive Instr where
  /-- No operation (R141). -/
  | nop
  /-- Start a RUN (R142), or be ignored while one is in progress (R151). -/
  | run
  /-- End the RUN in progress (R152). -/
  | abort
  /-- Clear the status flags (R153), or be ignored while a RUN is in progress (R154). -/
  | clear
  /-- Soft reset (R155). -/
  | srst
  deriving DecidableEq, Repr

end Sys2Proof
end

