-- ==== Sys2Proof/WellFormed.lean ====
section
/-! DEFINITION. Well-formedness of a command word, as R111 lays it out, and of a command.

The checks are on the word: a command carries no operand, so every term of `Instr` is well formed. -/

namespace Sys2Proof

/-- Field OP, bits [7:0] (R111). -/
def opField (w : Word) : BitVec 8 := w.extractLsb' 0 8

/-- Field RSV, bits [31:8] (R111). -/
def rsvField (w : Word) : BitVec 24 := w.extractLsb' 8 24

/-- RSV must be zero (R111). -/
def rsvZero (w : Word) : Bool := rsvField w == 0

/-- OP is one of the assigned codes `0x00` to `0x04` (R112). -/
def opAssigned (w : Word) : Bool := decide ((opField w).toNat ≤ 4)

/-- A word that is one of the five commands (R112, R113). -/
def wordWellFormed (w : Word) : Bool := rsvZero w && opAssigned w

/-- A command is well formed: it has no operand field to check (R111). -/
def Instr.wellFormed : Instr → Bool
  | .nop => true
  | .run => true
  | .abort => true
  | .clear => true
  | .srst => true

end Sys2Proof
end

