-- ==== Sys2Proof/Decode.lean ====
section
/-! DEFINITION. The decoder of R114, total on every 32-bit word, the encoder of R111 beside it, and the little-endian
byte order in which a word stands on the bus (R84). -/

namespace Sys2Proof

/-- Why a command word is ILLEGAL (R113). Both reasons have one effect (R156, R157). -/
inductive Illegal where
  /-- RSV is not zero. -/
  | reservedBits
  /-- OP is in `0x05` to `0xFF`. -/
  | unassignedOp
  deriving DecidableEq, Repr

/-- The word whose bytes stand at four rising addresses: byte lane `k` is bits [8k+7:8k] (R84). -/
def wordOfBytes (b0 b1 b2 b3 : Byte) : Word := b3 ++ b2 ++ b1 ++ b0

/-- Byte lane `k` of a word (R84). -/
def byteLane (w : Word) (k : Nat) : Byte := w.extractLsb' (8 * k) 8

/-- The bytes of a word in the order of their addresses (R84). -/
def bytesOfWord (w : Word) : List Byte := [byteLane w 0, byteLane w 1, byteLane w 2, byteLane w 3]

/-- The decode procedure of R114: RSV first, then OP. -/
def decode (w : Word) : Except Illegal Instr :=
  if rsvField w ≠ 0 then .error .reservedBits
  else
    match (opField w).toNat with
    | 0x00 => .ok .nop
    | 0x01 => .ok .run
    | 0x02 => .ok .abort
    | 0x03 => .ok .clear
    | 0x04 => .ok .srst
    | _ => .error .unassignedOp

/-- Operation codes (R112). -/
def opcode : Instr → BitVec 8
  | .nop => 0x00#8
  | .run => 0x01#8
  | .abort => 0x02#8
  | .clear => 0x03#8
  | .srst => 0x04#8

/-- The encoding of a command: `zext_8(OP)` (R111). -/
def encode (i : Instr) : Word := (opcode i).setWidth 32

/-- The instruction of a word of spec/opcode_table.json that is laid out in memory order: the decoder reads it back
from its four bytes. The command word is 32 bits, so every bit above `nbits` is 0. -/
def decodeTableWord (nbits w : Nat) : Option Instr :=
  let word : Word := BitVec.ofNat 32 (w % 2 ^ nbits)
  match decode (wordOfBytes (byteLane word 0) (byteLane word 1) (byteLane word 2) (byteLane word 3)) with
  | .ok i => some i
  | .error _ => none

end Sys2Proof
end

