-- ==== Sys2Proof/Machine/State.lean ====
section
/-! DEFINITION. The architectural state of R30, the schedule of the two agents (R18), and the state after reset (R53).

ID and CMD hold no storage: ID reads a constant (R32), CMD reads 0 (R35); `readReg` gives both. The signal `irq` is a
function of IRQ_STAT and IRQ_EN (R49, R340); `irq` in Machine/Flags.lean computes it. -/

namespace Sys2Proof.Machine

open Sys2Proof

/-- STATUS (R33). Its reserved bits are no storage: `statusWord` reads them as 0 (R121). -/
structure Status where
  /-- [0]: a RUN has been accepted and has not ended. -/
  busy : Bool
  /-- [1]: the last RUN completed. -/
  done : Bool
  /-- [2]: the last command ended in an error. -/
  err : Bool
  /-- [3]: the last completed RUN had peak zero. -/
  silent : Bool
  /-- [4], sticky: a HOST write was dropped because BUSY was 1. -/
  accessViol : Bool
  /-- [5], sticky: a command was ignored because BUSY was 1. -/
  cmdIgnored : Bool
  /-- [10:8]: sequencer position, 0 idle, 1 to 6 the next stage (R34). -/
  stage : BitVec 3
  /-- [23:16]: the error code (R331). -/
  errcode : BitVec 8
  deriving DecidableEq, Repr

/-- The access size `n` of a transaction (R80). -/
inductive Size where
  | one | two | four
  deriving DecidableEq, Repr

/-- A HOST transaction on the slave port (R80). -/
inductive Transaction where
  | read (a : Offset) (n : Size)
  | write (a : Offset) (n : Size) (v : Word)
  deriving DecidableEq, Repr

/-- The response of the slave port (R80). -/
inductive Resp where
  | okay | error
  deriving DecidableEq, Repr

/-- What a transaction returns (R80). A write returns no data; the field is 0 then. -/
structure Reply where
  data : Word
  resp : Resp
  deriving DecidableEq, Repr

/-- One entry of the schedule: which agent takes the next step, and what it sends (R18, R123, R380). -/
inductive Turn where
  /-- HOST issues one transaction. -/
  | host (t : Transaction)
  /-- HOST statement `POLL off, mask, val` (R123). -/
  | poll (a : Offset) (mask val : Word)
  /-- HOST statement `WAITIRQ` (R123). -/
  | waitIrq
  /-- ENGINE takes its step, if it has one (R160). -/
  | engine
  /-- `rst_n` goes to 0 (R380). -/
  | rstFall
  /-- `rst_n` returns to 1 (R380). -/
  | rstRise
  deriving DecidableEq, Repr

/-- The state of the block and of the model's schedule. -/
structure State where
  /-- STATUS (R33). -/
  status : Status
  /-- IRQ_EN [1:0]: ERR_IE, DONE_IE (R36). -/
  irqEn : BitVec 2
  /-- IRQ_STAT [1:0]: ERR_IS, DONE_IS (R37). -/
  irqStat : BitVec 2
  /-- CFG [0]: RND (R38). -/
  cfg : BitVec 1
  /-- RATE (R39). -/
  rate : Word
  /-- OFFSET (R39). -/
  offset : Word
  /-- NSAMP (R39). -/
  nsamp : Word
  /-- NTAPS1 (R39). -/
  ntaps1 : Word
  /-- NTAPS2 (R39). -/
  ntaps2 : Word
  /-- D1 (R44). -/
  d1 : Word
  /-- D2 (R44). -/
  d2 : Word
  /-- LEN1 (R44). -/
  len1 : Word
  /-- OUTLEN (R44). -/
  outlen : Word
  /-- PEAK_LO (R44). -/
  peakLo : Word
  /-- PEAK_HI (R44). -/
  peakHi : Word
  /-- PARAM_NMAX: the implementation's `N_MAX`, which no rule writes (R7, R44). -/
  paramNmax : Word
  /-- PARAM_TMAX: the implementation's `T_MAX`, which no rule writes (R7, R44). -/
  paramTmax : Word
  /-- The bytes of COEF1, COEF2, IBUF and OBUF written since power-on, by block offset, strictly rising (R40 to R43,
  R84, R94). -/
  mem : List Host.Cell
  /-- W1 to W5, the run parameters and the pipeline histories (R46 to R48). -/
  hidden : Hidden
  /-- The level of the input `rst_n` (R50, R380). -/
  rstN : Bool
  /-- MODEL's own: what the agents do next, the first entry first; any interleaving of R18 is such a list. -/
  agenda : List Turn
  /-- MODEL's own: the port's answer to the last transaction (R80). -/
  reply : Option Reply
  /-- MODEL's own: how many times a free value has been drawn. -/
  draws : Nat
  deriving DecidableEq, Repr

/-- Why the machine stops. -/
inductive Fault where
  /-- Raised by the ENGINE's step when BUSY = 1 and STAGE is 0 or 7. R160 gives stages 1 to 6 only, and R34 says the
  other values are never held then. Safe: the model stops where the spec gives no effect, and no run reaches it. -/
  | stageNotHeld
  deriving DecidableEq, Repr

/-- Why an instruction has no meaning. -/
inductive Refusal where
  /-- An instruction without a meaning yet, raised by `exec`'s arm alone. Safe: no next state is claimed. No arm of
  this model raises it. -/
  | notModelled (mnemonic : String)
  deriving DecidableEq, Repr

/-- STATUS after reset: idle, no flag set (R53). -/
def Status.reset : Status :=
  { busy := false, done := false, err := false, silent := false, accessViol := false, cmdIgnored := false,
    stage := 0#3, errcode := 0x00#8 }

/-- The run parameters right after power-on. DESIGN CHOICE (log entry 5): the spec leaves them unspecified and
unobservable (R53). -/
def RunParams.zero : RunParams :=
  { n := 0, r := 0, f := 0, t1 := 0, t2 := 0, rnd := false, d1 := 0, d2 := 0, l1 := 0, l2 := 0, l3 := 0,
    x := 0#64, b0 := 0#64 }

/-- The hidden state right after power-on. DESIGN CHOICE (log entry 5), as `RunParams.zero`. -/
def Hidden.zero : Hidden :=
  { w1 := [], w2 := [], w3 := [], w4 := [], w5 := [], run := RunParams.zero, hist := { phase := 0, deemphY := 0#64 } }

/-- The machine right after the first reset after power-on, with `rst_n` back at 1 (R53, R381, R383). No memory word
is listed: each reads as its own free value (R94). The capacities are the defaults of R7. -/
def State.reset : State :=
  { status := Status.reset
    irqEn := 0#2, irqStat := 0#2, cfg := 0#1
    rate := 0#32, offset := 0#32, nsamp := 0#32, ntaps1 := 0#32, ntaps2 := 0#32
    d1 := 0#32, d2 := 0#32, len1 := 0#32, outlen := 0#32, peakLo := 0#32, peakHi := 0#32
    paramNmax := Config.nMaxDefault, paramTmax := Config.tMaxDefault
    mem := []
    hidden := Hidden.zero
    rstN := true
    agenda := []
    reply := none
    draws := 0 }

end Sys2Proof.Machine
end

