-- ==== Sys2Proof/Machine/Memory.lean ====
section
/-! DEFINITION. Memory: the bytes of IBUF, COEF1, COEF2 and OBUF (R40 to R43), listed by block offset in one canonical
form, and word accesses in little-endian order (R84).

An unlisted byte has not been written since power-on. It holds no value of its own: a read gives the free value of its
address, the same on every read (R94). So no listed byte can equal what an unlisted one holds, and the canonical form
is that addresses rise strictly. -/

namespace Sys2Proof.Machine

open Sys2Proof

/-- The byte stored at `a`, if one has been written since power-on. -/
def memGet (mem : List Host.Cell) (a : Nat) : Option Byte :=
  match mem with
  | [] => none
  | c :: rest => if c.1 = a then some c.2 else memGet rest a

/-- A read of one byte: what is stored, or the free value of an unwritten byte (R94). -/
def readByte (mem : List Host.Cell) (a : Nat) : Byte :=
  match memGet mem a with
  | some b => b
  | none => Config.powerOnByte a

/-- The cells of bytes laid out from `a` up. -/
def cellsFrom (a : Nat) : List Byte → List Host.Cell
  | [] => []
  | b :: bs => (a, b) :: cellsFrom (a + 1) bs

/-- Store the bytes `bs` at `a` and up; every other byte keeps its place. -/
def writeBytes (mem : List Host.Cell) (a : Nat) (bs : List Byte) : List Host.Cell :=
  mem.filter (fun c => decide (c.1 < a)) ++ cellsFrom a bs ++ mem.filter (fun c => decide (a + bs.length ≤ c.1))

/-- A read of the word at byte offset `a` (R83, R84). -/
def readWord (mem : List Host.Cell) (a : Nat) : Word :=
  wordOfBytes (readByte mem a) (readByte mem (a + 1)) (readByte mem (a + 2)) (readByte mem (a + 3))

/-- A write of the word at byte offset `a` (R83, R84). -/
def writeWord (mem : List Host.Cell) (a : Nat) (v : Word) : List Host.Cell :=
  writeBytes mem a (bytesOfWord v)

/-- `n` words from byte offset `base` up. -/
def readWords (mem : List Host.Cell) (base n : Nat) : List Word :=
  (List.range n).map (fun i => readWord mem (base + 4 * i))

/-- The canonical form: addresses rise strictly. -/
def memWf : List Host.Cell → Bool
  | [] => true
  | [_] => true
  | c :: d :: rest => decide (c.1 < d.1) && memWf (d :: rest)

end Sys2Proof.Machine
end

