-- ==== Sys2Proof/Machine/Operands.lean ====
section
/-! DEFINITION. Operand assembly: the data formats of the memories (R115 to R118), the register operands of a RUN
(R119), and the offsets of the memory windows (R40 to R43, R86). -/

namespace Sys2Proof.Machine

open Sys2Proof

/-- `ceil(a / b)` for `b > 0` (R10). -/
def ceilDiv (a b : Nat) : Nat := (a + b - 1) / b

/-- `sext_16(w[15:0])`, the I component of an IQ sample word (R115). -/
def iqI (w : Word) : Int := (w.extractLsb' 0 16).toInt

/-- `sext_16(w[31:16])`, the Q component of an IQ sample word (R115). -/
def iqQ (w : Word) : Int := (w.extractLsb' 16 16).toInt

/-- The IQ sample word of a sample: `{zext_16(Q mod 2^16), zext_16(I mod 2^16)}` (R115). -/
def iqWord (i q : Int) : Word := BitVec.ofInt 16 q ++ BitVec.ofInt 16 i

/-- The datapath value of an IQ sample word: `(f64(I), f64(Q))` (R115). -/
def iqCplx (w : Word) : Cplx := { re := f64 (iqI w), im := f64 (iqQ w) }

/-- A coefficient word is non-finite when its exponent field is `0xFF` (R116). -/
def tapNonFinite (w : Word) : Bool := w.extractLsb' 23 8 == 0xFF#8

/-- Two PCM samples in one word, the even-indexed one in the lower half (R117). -/
def pcmWord (even odd : BitVec 16) : Word := odd ++ even

/-- The OBUF words of a PCM buffer: pairs in order, an odd tail's upper half 0 (R117, R307). -/
def packPcm : List (BitVec 16) → List Word
  | [] => []
  | [p] => [pcmWord p 0#16]
  | p :: q :: rest => pcmWord p q :: packPcm rest

/-- PCM sample `k` as the HOST reads it from its OBUF word: `sext_16` of the half `k mod 2` (R117). -/
def pcmOfWord (k : Nat) (w : Word) : Int := (w.extractLsb' (16 * (k % 2)) 16).toInt

/-- PEAK_LO of a peak (R118). -/
def peakLoOf (b : F64) : Word := b.extractLsb' 0 32

/-- PEAK_HI of a peak (R118). -/
def peakHiOf (b : F64) : Word := b.extractLsb' 32 32

/-- Byte offset of `COEF1[0]` (R41). -/
def coef1Base : Nat := 0x00010000

/-- Byte offset of `COEF2[0]` (R42). -/
def coef2Base : Nat := 0x00020000

/-- Byte offset of `IBUF[0]` (R40). -/
def ibufBase : Nat := 0x01000000

/-- Byte offset of `OBUF[0]` (R43). -/
def obufBase : Nat := 0x02000000

/-- `N_MAX`, read from PARAM_NMAX (R44). -/
def nMax (s : State) : Nat := s.paramNmax.toNat

/-- `T_MAX`, read from PARAM_TMAX (R44). -/
def tMax (s : State) : Nat := s.paramTmax.toNat

/-- `O_MAX = N_MAX / 4`, the PCM samples OBUF holds (R7). -/
def oMax (s : State) : Nat := nMax s / 4

/-- `N = zext_32(NSAMP)` (R119). -/
def opN (s : State) : Nat := s.nsamp.toNat

/-- `R = zext_32(RATE)` (R119). -/
def opR (s : State) : Nat := s.rate.toNat

/-- `F = sext_32(OFFSET)` (R119). -/
def opF (s : State) : Int := s.offset.toInt

/-- `T1 = zext_32(NTAPS1)` (R119). -/
def opT1 (s : State) : Nat := s.ntaps1.toNat

/-- `T2 = zext_32(NTAPS2)` (R119). -/
def opT2 (s : State) : Nat := s.ntaps2.toNat

/-- `RND = CFG[0]` (R119). -/
def opRnd (s : State) : Bool := s.cfg == 1#1

/-- `IBUF[0..n)` (R40). -/
def ibufWords (s : State) (n : Nat) : List Word := readWords s.mem ibufBase n

/-- `COEF1[0..t)` (R41). -/
def coef1Words (s : State) (t : Nat) : List Word := readWords s.mem coef1Base t

/-- `COEF2[0..t)` (R42). -/
def coef2Words (s : State) (t : Nat) : List Word := readWords s.mem coef2Base t

/-- `OBUF[0..m)` (R43). -/
def obufWords (s : State) (m : Nat) : List Word := readWords s.mem obufBase m

end Sys2Proof.Machine
end

