-- ==== Sys2Proof/Machine/Flags.lean ====
section
/-! DEFINITION. The flags: STATUS as the HOST reads it (R33), the named updates of its fields, the pending bits of
IRQ_STAT (R37) and the interrupt output (R49). -/

namespace Sys2Proof.Machine

open Sys2Proof

/-- A flag as a bit. -/
def flagBit (b : Bool) : BitVec 1 := BitVec.ofBool b

/-- The word a read of STATUS returns: the fields at their places, reserved bits 0 (R33, R121). -/
def statusWord (t : Status) : Word :=
  0#8 ++ t.errcode ++ 0#5 ++ t.stage ++ 0#2 ++ flagBit t.cmdIgnored ++ flagBit t.accessViol ++ flagBit t.silent ++
    flagBit t.err ++ flagBit t.done ++ flagBit t.busy

/-- DONE_IS, bit 0 of IRQ_STAT and IRQ_EN (R36, R37). -/
def doneBit : BitVec 2 := 0b01#2

/-- ERR_IS, bit 1 of IRQ_STAT and IRQ_EN (R36, R37). -/
def errBit : BitVec 2 := 0b10#2

/-- `irq = (IRQ_STAT[0] and IRQ_EN[0]) or (IRQ_STAT[1] and IRQ_EN[1])` (R49). -/
def irq (s : State) : Bool :=
  (s.irqStat.getLsbD 0 && s.irqEn.getLsbD 0) || (s.irqStat.getLsbD 1 && s.irqEn.getLsbD 1)

/-- A write of `v` to IRQ_STAT clears each bit it holds a 1 for (R37, R159). -/
def ackIrq (v : Word) (s : State) : State := { s with irqStat := s.irqStat &&& ~~~(v.setWidth 2) }

/-- `STATUS.CMD_IGNORED <- 1`; nothing else (R151, R154, R157). -/
def setCmdIgnored (s : State) : State := { s with status := { s.status with cmdIgnored := true } }

/-- `STATUS.ACCESS_VIOL <- 1`; nothing else (R91). -/
def setAccessViol (s : State) : State := { s with status := { s.status with accessViol := true } }

/-- The flags a RUN clears before it is judged: DONE, ERR, ERRCODE, SILENT (R142). -/
def clearRunFlags (s : State) : State :=
  { s with status := { s.status with done := false, err := false, errcode := 0x00#8, silent := false } }

/-- The flags CLEAR clears: those of a RUN and the two sticky ones (R153). -/
def clearAllFlags (s : State) : State :=
  { s with status := { s.status with
      done := false, err := false, errcode := 0x00#8, silent := false, accessViol := false, cmdIgnored := false } }

end Sys2Proof.Machine
end

