-- ==== Sys2Proof/Machine/Ops.lean ====
section
/-! DEFINITION. The shared operations: error entry (the block's form of taking an exception, R336) and its
acknowledgment (R337), the draws of free values, the end of a RUN, and reset (R53).

`mapNext` carries a change of state through an outcome. -/

namespace Sys2Proof.Machine

open Sys2Proof

/-- Apply `f` to a next state; a fault or a refusal stays. -/
def mapNext (f : State → State) : Host.Outcome State Fault Refusal → Host.Outcome State Fault Refusal
  | .next s => .next (f s)
  | .fault r => .fault r
  | .refused r => .refused r

/-- Error entry, the analogue of trap entry (R336): `STATUS.ERR <- 1`, `STATUS.ERRCODE <- code`, `STATUS.DONE <- 0`,
`IRQ_STAT.ERR_IS <- 1`. No state is saved, no mode or mask changes, and control goes to no vector. -/
def raiseError (code : BitVec 8) (s : State) : State :=
  { s with
    status := { s.status with err := true, errcode := code, done := false }
    irqStat := s.irqStat ||| errBit }

/-- Error return (R337): there is no return instruction. The HOST acknowledges an error by CLEAR, whose effect on the
flags this is, and by writing 1 to `IRQ_STAT.ERR_IS` (`ackIrq`). -/
def acknowledge (s : State) : State := clearAllFlags s

/-- The error codes of R331. -/
def codeNone : BitVec 8 := 0x00#8
def codeZeroWindow : BitVec 8 := 0x01#8
def codeWindowAlign : BitVec 8 := 0x02#8
def codeWindowRange : BitVec 8 := 0x03#8
def codeD1Zero : BitVec 8 := 0x04#8
def codeD2Zero : BitVec 8 := 0x05#8
def codeNtaps1 : BitVec 8 := 0x06#8
def codeNtaps2 : BitVec 8 := 0x07#8
def codeShortWindow : BitVec 8 := 0x08#8
def codeTapNonFinite : BitVec 8 := 0x09#8
def codeIllegalCmd : BitVec 8 := 0x10#8
def codeAborted : BitVec 8 := 0x11#8

/-- The result registers at 0 (R150). -/
def zeroResults (s : State) : State :=
  { s with d1 := 0#32, d2 := 0#32, len1 := 0#32, outlen := 0#32, peakLo := 0#32, peakHi := 0#32 }

/-- The registers ABORT clears; D1, D2 and LEN1 keep the aborted RUN's values (R152). -/
def zeroOutput (s : State) : State := { s with outlen := 0#32, peakLo := 0#32, peakHi := 0#32 }

/-- `for m in [0, ceil(L3/2)): OBUF[m] <- any value`, a draw per word (R152, R155, R382). -/
def loseObuf (s : State) : State :=
  { s with
    mem := writeBytes s.mem obufBase
      ((List.range (4 * ceilDiv s.hidden.run.l3 2)).map (fun i => Config.lostObufByte s.draws (obufBase + i)))
    draws := s.draws + 1 }

/-- Between RUNs the hidden state is unspecified (R46, R53): a free value. -/
def dropHidden (s : State) : State :=
  { s with hidden := Config.betweenRuns s.draws, draws := s.draws + 1 }

/-- What a RUN that ends without completing leaves: its OBUF words and the hidden state unspecified. -/
def loseRun (s : State) : State := dropHidden (loseObuf s)

/-- Every register at its value in R53; the ENGINE stops (BUSY = 0). PARAM_NMAX and PARAM_TMAX are constants. -/
def resetRegisters (s : State) : State :=
  { s with
    status := Status.reset
    irqEn := 0#2, irqStat := 0#2, cfg := 0#1
    rate := 0#32, offset := 0#32, nsamp := 0#32, ntaps1 := 0#32, ntaps2 := 0#32
    d1 := 0#32, d2 := 0#32, len1 := 0#32, outlen := 0#32, peakLo := 0#32, peakHi := 0#32 }

/-- The effect reset and SRST share (R155, R382): the registers reset, a running RUN's OBUF words unspecified, every
other memory word as it was, and the hidden state unspecified (R53). -/
def resetBlock (s : State) : State :=
  resetRegisters (if s.status.busy then loseRun s else dropHidden s)

end Sys2Proof.Machine
end

