-- ==== Sys2Proof/Machine/ParamFns.lean ====
section
/-! DEFINITION. The three parameter functions of R7: uninterpreted, with exactly the obligations the spec puts on them.

Each is the raw constant of `Config` with the obligated values put in place, and, where an obligation gives a range,
with a raw value outside it replaced by a value inside it. A raw function that meets its obligations is left as it is,
so every function the spec allows is one of these, and every one of these is a function the spec allows. -/

namespace Sys2Proof.Machine

open Sys2Proof

/-- A value in `[-1.0, +1.0]` (R193 obligation 3); a raw value outside gives way to `+0`. -/
def clampUnit (v : F64) : F64 := if fle fNegOne v && fle v fOne then v else fZero

/-- `NCO_FN(p, R)`, the real and imaginary parts of `exp(-j*2*pi*p/R)` (R192), under the obligations of R193. -/
def ncoFn (p R : Nat) : F64 × F64 :=
  if p = 0 then (fOne, fZero)
  else if 4 * p = R then (fZero, fNegOne)
  else if 2 * p = R then (fNegOne, fZero)
  else if 4 * p = 3 * R then (fZero, fOne)
  else
    let v := Config.ncoRaw p R
    (clampUnit v.1, clampUnit v.2)

/-- A value in `[lo, hi]` by its encoding's order, its sign that of the bounds; a raw value outside gives way to
`lo` (R242 obligation 4). The bounds carry one sign, and so does every value kept. -/
def clampSigned (neg : Bool) (v : F64) : F64 :=
  if signOf v = neg ∧ magOf v ≤ magOf pi64 then v else ofMag neg 0

/-- `ATAN2_FN(y, x)` (R242): the angle of the point `(x, y)`. Obligations 2 and 3 give the axes, whatever the sign of
a zero; obligations 1 and 4 give the half plane. Non-finite operands reach it in no accepted run (R246). -/
def atan2Fn (y x : F64) : F64 :=
  if !isFinite y || !isFinite x then Config.atan2Raw y x
  else if isZero y then
    (if isZero x then fZero else if signOf x then pi64 else fZero)
  else if isZero x then (if signOf y then negPi64Half else pi64Half)
  else clampSigned (signOf y) (Config.atan2Raw y x)

/-- `RN(-1/15)`, the least argument `EXP_FN` receives (R261, R266). -/
def expArgMin : F64 := 0xBFB1111111111111#64

/-- `RN(-1/30)`, the upper bound of the arguments `EXP_FN` receives (R261, R266). -/
def expArgMax : F64 := 0xBFA1111111111111#64

/-- `EXP_FN(a)` (R261): on the arguments it receives the result lies in `[0.5, 1.0)`; a raw value outside gives way to
`0.5`. -/
def expFn (a : F64) : F64 :=
  let v := Config.expRaw a
  if fle expArgMin a && fle a expArgMax then
    (if fle fHalf v && flt v fOne then v else fHalf)
  else v

end Sys2Proof.Machine
end

