-- ==== Sys2Proof/Machine/Acceptance.lean ====
section
/-! DEFINITION. What a RUN computes before any stage: the factors and lengths (R144 to R147), the de-emphasis
coefficients (R260 to R262), the configuration check (R143), and its two outcomes, acceptance (R149) and failure
(R150). -/

namespace Sys2Proof.Machine

open Sys2Proof

/-- `d1 = floor(R / 200000)` (R144). -/
def factor1 (R : Nat) : Nat := R / 200000

/-- `d2 = floor(R / (d1 * 44100))` (R145). -/
def factor2 (R : Nat) : Nat := R / (factor1 R * 44100)

/-- `L1 = ceil(N / d1)` (R147). -/
def length1 (N R : Nat) : Nat := ceilDiv N (factor1 R)

/-- `L2 = L1 - 1` (R147). -/
def length2 (N R : Nat) : Nat := length1 N R - 1

/-- `L3 = ceil(L2 / d2)` (R147). -/
def length3 (N R : Nat) : Nat := ceilDiv (length2 N R) (factor2 R)

/-- `a = fdiv(f64(-40000 * d1), f64(3 * R))`, the exponent of the de-emphasis pole (R260). -/
def deemphArg (R d1 : Nat) : F64 := fdiv (f64 (-40000 * (d1 : Int))) (f64 (3 * (R : Int)))

/-- `x = EXP_FN(a)` (R260). -/
def deemphX (R d1 : Nat) : F64 := expFn (deemphArg R d1)

/-- `b0 = fsub(1.0, x)` (R260, R262). -/
def deemphB0 (x : F64) : F64 := fsub fOne x

/-- The configuration check: the first code that applies, in this order, or 0 (R143). -/
def check (s : State) : BitVec 8 :=
  let N := opN s
  let R := opR s
  let T1 := opT1 s
  let T2 := opT2 s
  if N = 0 then codeZeroWindow
  else if N % 1024 ≠ 0 then codeWindowAlign
  else if nMax s < N then codeWindowRange
  else if R < 200000 then codeD1Zero
  else if factor2 R = 0 then codeD2Zero
  else if T1 = 0 ∨ tMax s < T1 then codeNtaps1
  else if T2 = 0 ∨ tMax s < T2 then codeNtaps2
  else if length1 N R < 2 then codeShortWindow
  else if (coef1Words s T1).any tapNonFinite then codeTapNonFinite
  else if (coef2Words s T2).any tapNonFinite then codeTapNonFinite
  else codeNone

/-- The run parameters of R48, from the registers at acceptance (R149). -/
def runParamsOf (s : State) : RunParams :=
  let N := opN s
  let R := opR s
  { n := N, r := R, f := opF s, t1 := opT1 s, t2 := opT2 s, rnd := opRnd s
    d1 := factor1 R, d2 := factor2 R
    l1 := length1 N R, l2 := length2 N R, l3 := length3 N R
    x := deemphX R (factor1 R), b0 := deemphB0 (deemphX R (factor1 R)) }

/-- The pipeline histories at the start of a RUN (R47): phase index 0, de-emphasis output `+0`. -/
def histStart : Histories := { phase := 0, deemphY := fZero }

/-- Acceptance (R149): BUSY and STAGE 1, the result registers, the run parameters, the histories restarted. No
interrupt is raised. -/
def accept (s : State) : State :=
  let p := runParamsOf s
  { s with
    status := { s.status with busy := true, stage := 1#3 }
    d1 := BitVec.ofNat 32 p.d1
    d2 := BitVec.ofNat 32 p.d2
    len1 := BitVec.ofNat 32 p.l1
    outlen := BitVec.ofNat 32 p.l3
    peakLo := 0#32
    peakHi := 0#32
    hidden := { s.hidden with run := p, hist := histStart } }

/-- Acceptance failure (R150): error entry with the code, and the result registers at 0. -/
def failRun (code : BitVec 8) (s : State) : State := zeroResults (raiseError code s)

end Sys2Proof.Machine
end

