-- ==== Sys2Proof/Machine/Commands.lean ====
section
/-! DEFINITION. The meanings of the five commands (R141 to R155) and of an illegal command word (R156, R157), each
selected by BUSY before the step (R140). -/

namespace Sys2Proof.Machine

open Sys2Proof

/-- NOP: no effect, whatever BUSY (R141). -/
def execNop (s : State) : Host.Outcome State Fault Refusal := .next s

/-- RUN while idle: clear the flags, judge the configuration, then fail or accept (R142). -/
def startRun (s : State) : State :=
  let s1 := clearRunFlags s
  let code := check s1
  if code ≠ codeNone then failRun code s1 else accept s1

/-- RUN (R142); while BUSY it is ignored (R151). -/
def execRun (s : State) : Host.Outcome State Fault Refusal :=
  if s.status.busy then .next (setCmdIgnored s) else .next (startRun s)

/-- The effect of an ABORT of a busy RUN (R152). -/
def abortRun (s : State) : State :=
  let s1 := raiseError codeAborted (zeroOutput (loseRun s))
  { s1 with status := { s1.status with busy := false, stage := 0#3, silent := false } }

/-- ABORT: while idle it does nothing (R152). -/
def execAbort (s : State) : Host.Outcome State Fault Refusal :=
  if s.status.busy then .next (abortRun s) else .next s

/-- CLEAR (R153); while BUSY it is ignored (R154). -/
def execClear (s : State) : Host.Outcome State Fault Refusal :=
  if s.status.busy then .next (setCmdIgnored s) else .next (acknowledge s)

/-- SRST, any BUSY (R155). -/
def execSrst (s : State) : Host.Outcome State Fault Refusal := .next (resetBlock s)

/-- A word the decoder rejects: ILLEGAL_CMD while idle (R156), ignored while BUSY (R157). -/
def illegalCommand (s : State) : State :=
  if s.status.busy then setCmdIgnored s else raiseError codeIllegalCmd s

end Sys2Proof.Machine
end

