-- ==== Sys2Proof/Machine/Bus.lean ====
section
/-! DEFINITION. The slave port: the address map (R85 to R87), what a read returns (R158) and what a write does (R159),
the response rules (R80 to R82, R380), and the writes dropped while BUSY (R91). -/

namespace Sys2Proof.Machine

open Sys2Proof

/-- The registers of R85. -/
inductive Reg where
  | id | cmd | status | irqEn | irqStat | cfg
  | rate | offset | nsamp | ntaps1 | ntaps2
  | d1 | d2 | len1 | outlen | peakLo | peakHi | paramNmax | paramTmax
  deriving DecidableEq, Repr

/-- The offset of each register (R85). -/
def regOffset : Reg → Nat
  | .id => 0x0000
  | .cmd => 0x0004
  | .status => 0x0008
  | .irqEn => 0x000C
  | .irqStat => 0x0010
  | .cfg => 0x0014
  | .rate => 0x0020
  | .offset => 0x0024
  | .nsamp => 0x0028
  | .ntaps1 => 0x002C
  | .ntaps2 => 0x0030
  | .d1 => 0x0040
  | .d2 => 0x0044
  | .len1 => 0x0048
  | .outlen => 0x004C
  | .peakLo => 0x0050
  | .peakHi => 0x0054
  | .paramNmax => 0x0058
  | .paramTmax => 0x005C

/-- Every register, in the order of R85. -/
def allRegs : List Reg :=
  [.id, .cmd, .status, .irqEn, .irqStat, .cfg, .rate, .offset, .nsamp, .ntaps1, .ntaps2,
   .d1, .d2, .len1, .outlen, .peakLo, .peakHi, .paramNmax, .paramTmax]

/-- The register at an offset of the register space, if there is one (R85). -/
def regAt (a : Nat) : Option Reg := allRegs.find? (fun r => regOffset r == a)

/-- What stands at an offset: a register, or word `i` of a memory window. -/
inductive Place where
  | reg (r : Reg)
  | coef1 (j : Nat)
  | coef2 (j : Nat)
  | ibuf (i : Nat)
  | obuf (m : Nat)
  deriving DecidableEq, Repr

/-- Word `(a - base) / 4` of a window with `size` implemented words (R86). -/
def windowWord (mk : Nat → Place) (base size a : Nat) : Option Place :=
  if (a - base) / 4 < size then some (mk ((a - base) / 4)) else none

/-- The address map, for a 4-byte aligned offset: the register space (R85), the four windows (R86), and nothing at
every other offset (R87). -/
def placeAt (s : State) (a : Nat) : Option Place :=
  if a < 0x00010000 then (regAt a).map .reg
  else if a < 0x00020000 then windowWord .coef1 coef1Base (tMax s) a
  else if a < 0x00030000 then windowWord .coef2 coef2Base (tMax s) a
  else if a < 0x01000000 then none
  else if a < 0x02000000 then windowWord .ibuf ibufBase (nMax s) a
  else if a < 0x03000000 then windowWord .obuf obufBase (oMax s / 2) a
  else none

/-- The value a read of a register returns, reserved bits 0 (R121, R158). ID is a constant (R32); CMD holds no value
and reads 0 (R35). -/
def readReg (r : Reg) (s : State) : Word :=
  match r with
  | .id => Config.idValue
  | .cmd => 0#32
  | .status => statusWord s.status
  | .irqEn => s.irqEn.setWidth 32
  | .irqStat => s.irqStat.setWidth 32
  | .cfg => s.cfg.setWidth 32
  | .rate => s.rate
  | .offset => s.offset
  | .nsamp => s.nsamp
  | .ntaps1 => s.ntaps1
  | .ntaps2 => s.ntaps2
  | .d1 => s.d1
  | .d2 => s.d2
  | .len1 => s.len1
  | .outlen => s.outlen
  | .peakLo => s.peakLo
  | .peakHi => s.peakHi
  | .paramNmax => s.paramNmax
  | .paramTmax => s.paramTmax

/-- The free word a read of OBUF returns while BUSY = 1 (R92). -/
def busyObufWord (draw a : Nat) : Word :=
  wordOfBytes (Config.busyReadByte draw a) (Config.busyReadByte draw (a + 1)) (Config.busyReadByte draw (a + 2))
    (Config.busyReadByte draw (a + 3))

/-- The data of an OKAY read (R158). OBUF while BUSY = 1 is a fresh free value (R92). -/
def readPlace (p : Place) (s : State) : Word :=
  match p with
  | .reg r => readReg r s
  | .coef1 j => readWord s.mem (coef1Base + 4 * j)
  | .coef2 j => readWord s.mem (coef2Base + 4 * j)
  | .ibuf i => readWord s.mem (ibufBase + 4 * i)
  | .obuf m =>
    if s.status.busy then busyObufWord s.draws (obufBase + 4 * m) else readWord s.mem (obufBase + 4 * m)

/-- A read changes no state (R89). The model's own draw counter moves past a free value a read used. -/
def afterRead (p : Place) (s : State) : State :=
  match p with
  | .obuf _ => if s.status.busy then { s with draws := s.draws + 1 } else s
  | _ => s

/-- A write that BUSY = 1 drops, setting ACCESS_VIOL (R91). -/
def unlessBusy (f : State → State) (s : State) : State :=
  if s.status.busy then setAccessViol s else f s

/-- A CMD write executes the command it decodes to, in the same step; a rejected word is the illegal-command case
(R35, R140). -/
def command (v : Word) (s : State) : Host.Outcome State Fault Refusal :=
  match decode v with
  | .ok i => exec i s
  | .error _ => .next (illegalCommand s)

/-- The effect of an OKAY write to a register (R159). Read-only registers ignore it (R90). -/
def writeReg (r : Reg) (v : Word) (s : State) : Host.Outcome State Fault Refusal :=
  match r with
  | .cmd => command v s
  | .irqEn => .next { s with irqEn := v.setWidth 2 }
  | .irqStat => .next (ackIrq v s)
  | .cfg => .next (unlessBusy (fun t => { t with cfg := v.setWidth 1 }) s)
  | .rate => .next (unlessBusy (fun t => { t with rate := v }) s)
  | .offset => .next (unlessBusy (fun t => { t with offset := v }) s)
  | .nsamp => .next (unlessBusy (fun t => { t with nsamp := v }) s)
  | .ntaps1 => .next (unlessBusy (fun t => { t with ntaps1 := v }) s)
  | .ntaps2 => .next (unlessBusy (fun t => { t with ntaps2 := v }) s)
  | .id => .next s
  | .status => .next s
  | .d1 => .next s
  | .d2 => .next s
  | .len1 => .next s
  | .outlen => .next s
  | .peakLo => .next s
  | .peakHi => .next s
  | .paramNmax => .next s
  | .paramTmax => .next s

/-- Store a word of an input memory (R159). -/
def storeWord (a : Nat) (v : Word) (s : State) : State := { s with mem := writeWord s.mem a v }

/-- The effect of an OKAY write (R159): the input memories only while idle (R91), OBUF never (R90). -/
def writePlace (p : Place) (v : Word) (s : State) : Host.Outcome State Fault Refusal :=
  match p with
  | .reg r => writeReg r v s
  | .coef1 j => .next (unlessBusy (storeWord (coef1Base + 4 * j) v) s)
  | .coef2 j => .next (unlessBusy (storeWord (coef2Base + 4 * j) v) s)
  | .ibuf i => .next (unlessBusy (storeWord (ibufBase + 4 * i) v) s)
  | .obuf _ => .next s

/-- What the port selects: nothing while `rst_n = 0` (R380), for a narrow access (R81), for a misaligned one (R82), or
at an unmapped offset (R87). -/
def portSelect (a : Offset) (n : Size) (s : State) : Option Place :=
  if s.rstN && decide (n = .four) && decide (a.toNat % 4 = 0) then placeAt s a.toNat else none

/-- An answer of the port. -/
def answer (r : Reply) (s : State) : State := { s with reply := some r }

/-- `resp = ERROR`, read data 0 (R81, R82, R87, R380). -/
def errorReply : Reply := { data := 0#32, resp := .error }

/-- `resp = OKAY` with the data read; a write's data field is 0. -/
def okayReply (data : Word) : Reply := { data := data, resp := .okay }

/-- `BusRead(a, n)` (R80, R158). -/
def busRead (a : Offset) (n : Size) (s : State) : State :=
  match portSelect a n s with
  | none => answer errorReply s
  | some p => answer (okayReply (readPlace p s)) (afterRead p s)

/-- `BusWrite(a, n, v)` (R80, R159). -/
def busWrite (a : Offset) (n : Size) (v : Word) (s : State) : Host.Outcome State Fault Refusal :=
  match portSelect a n s with
  | none => .next (answer errorReply s)
  | some p => mapNext (answer (okayReply 0#32)) (writePlace p v s)

/-- One HOST step (R80). -/
def hostTurn (t : Transaction) (s : State) : Host.Outcome State Fault Refusal :=
  match t with
  | .read a n => .next (busRead a n s)
  | .write a n v => busWrite a n v s

/-- The platform's decoder (R80, R88): an address inside the aperture at `BLOCK_BASE` reaches the block as an offset;
any other is not routed to it. -/
def routed (platformAddr : Nat) : Option Offset :=
  if Config.blockBase ≤ platformAddr ∧ platformAddr < Config.blockBase + 0x04000000 then
    some (BitVec.ofNat 26 (platformAddr - Config.blockBase))
  else none

end Sys2Proof.Machine
end

