-- ==== Sys2Proof/Machine/Pipeline.lean ====
section
/-! DEFINITION. The six stages as functions on buffers (R190 to R311) and their composition `DEMOD` (R165). Every
expression is evaluated in the order its rule writes, one rounding per operation (R13). -/

namespace Sys2Proof.Machine

open Sys2Proof

/-- The phase index `p_i = (F * i) mod R` from an accumulator that starts at `p0`; a RUN starts it at 0 (R47, R191). -/
def phaseIndex (F : Int) (R p0 i : Nat) : Nat := (((p0 : Int) + F * (i : Int)) % (R : Int)).toNat

/-- One sample of SHIFT: `s[i] * c_i`, four rounded products and two rounded sums (R190). -/
def shiftOne (F : Int) (R p0 i : Nat) (w : Word) : Cplx :=
  let c := ncoFn (phaseIndex F R p0 i) R
  let z := iqCplx w
  { re := fsub (fmul z.re c.1) (fmul z.im c.2), im := fadd (fmul z.re c.2) (fmul z.im c.1) }

/-- SHIFT, stage 1 (R190). -/
def shift (F : Int) (R p0 : Nat) (s : List Word) : List Cplx := s.mapIdx (fun i w => shiftOne F R p0 i w)

/-- One term of an output of DECIM_R: tap `j` at input position `m = k*d - j`, skipped when `m < 0` (R210, R214). -/
def decimTerm (x h : List F64) (pos : Nat) (acc : F64) (j : Nat) : F64 :=
  if j ≤ pos then fadd acc (fmul (h.getD j fZero) (x.getD (pos - j) fZero)) else acc

/-- One output of DECIM_R, the one at input position `pos`: accumulated from `+0` over ascending taps (R210, R213). -/
def decimAt (x h : List F64) (pos : Nat) : F64 := (List.range h.length).foldl (decimTerm x h pos) fZero

/-- DECIM_R, the real decimator: outputs at positions `0, d, 2d, ...`, `ceil(L / d)` of them (R210, R211). -/
def decimR (x h : List F64) (d : Nat) : List F64 :=
  (List.range (ceilDiv x.length d)).map (fun k => decimAt x h (k * d))

/-- DECIM_C: DECIM_R on the real and on the imaginary parts, with the same taps (R215). -/
def decimC (z : List Cplx) (h : List F64) (d : Nat) : List Cplx :=
  List.zipWith Cplx.mk (decimR (z.map Cplx.re) h d) (decimR (z.map Cplx.im) h d)

/-- The real part of `a * conj(b)` (R240, R241). -/
def conjRe (a b : Cplx) : F64 := fadd (fmul a.re b.re) (fmul a.im b.im)

/-- The imaginary part of `a * conj(b)` (R240, R241). -/
def conjIm (a b : Cplx) : F64 := fsub (fmul a.im b.re) (fmul a.re b.im)

/-- One output of DISCRIM: the phase of the product of adjacent samples, `b` the earlier (R240). -/
def discrimOne (b a : Cplx) : F64 := atan2Fn (conjIm a b) (conjRe a b)

/-- DISCRIM, stage 3: one output per adjacent pair (R240). -/
def discrimBuf (w : List Cplx) : List F64 := List.zipWith discrimOne w w.tail

/-- One step of the de-emphasis recurrence: `y <- fadd(fmul(b0, u), fmul(x, y))` (R263). -/
def deemphOne (x b0 y u : F64) : F64 := fadd (fmul b0 u) (fmul x y)

/-- DEEMPH, stage 4, from the last output `y`; a RUN starts it at `+0` (R47, R263). -/
def deemph (x b0 y : F64) : List F64 → List F64
  | [] => []
  | u :: us => deemphOne x b0 y u :: deemph x b0 (deemphOne x b0 y u) us

/-- `peak`, the largest absolute value, from `+0` (R300, R301). -/
def peakOf (y : List F64) : F64 := y.foldl (fun p v => fmax p (fabs v)) fZero

/-- `v = fdiv(fmul(y, 10000.0), peak)` (R303). -/
def scaleOne (peak y : F64) : F64 := fdiv (fmul y f10000) peak

/-- The PCM integer of one sample: `SAT16(ROUND(v, RND))` (R304, R305). -/
def pcmInt (rnd : Bool) (v : F64) : Int := sat16 (roundPcm v rnd)

/-- What NORMALIZE returns (R165, R300). -/
structure Normalized where
  pcm : List (BitVec 16)
  peak : F64
  silent : Bool
  deriving DecidableEq, Repr

/-- NORMALIZE, stage 6: silence when the peak is zero, else every sample scaled, rounded and saturated (R300 to
R305). A sample is stored as 16-bit two's complement (R117). -/
def normalizeBuf (y : List F64) (rnd : Bool) : Normalized :=
  let peak := peakOf y
  if isZero peak then { pcm := y.map (fun _ => 0#16), peak := peak, silent := true }
  else { pcm := y.map (fun v => BitVec.ofInt 16 (pcmInt rnd (scaleOne peak v))), peak := peak, silent := false }

/-- DEMOD, the composition the six ENGINE steps compute (R165). -/
def demod (s h1 h2 : List Word) (R : Nat) (F : Int) (rnd : Bool) : Normalized :=
  let w1 := shift F R 0 s
  let w2 := decimC w1 (h1.map f32to64) (factor1 R)
  let w3 := discrimBuf w2
  let x := deemphX R (factor1 R)
  let w4 := deemph x (deemphB0 x) fZero w3
  let w5 := decimR w4 (h2.map f32to64) (factor2 R)
  normalizeBuf w5 rnd

end Sys2Proof.Machine
end

