-- ==== Sys2Proof/Machine/Engine.lean ====
section
/-! DEFINITION. The ENGINE: one stage per atomic step while BUSY = 1 (R160, R161), and completion (R162). -/

namespace Sys2Proof.Machine

open Sys2Proof

/-- `STATUS.STAGE <- STAGE + 1` after stages 1 to 5 (R160). -/
def nextStage (s : State) : State := { s with status := { s.status with stage := s.status.stage + 1#3 } }

/-- Stage 1: `W1 <- SHIFT(IBUF[0..N), F, R)` (R160, R190). -/
def stage1 (s : State) : State :=
  let p := s.hidden.run
  let p0 := s.hidden.hist.phase
  nextStage { s with hidden := { s.hidden with
    w1 := shift p.f p.r p0 (ibufWords s p.n)
    hist := { s.hidden.hist with phase := phaseIndex p.f p.r p0 p.n } } }

/-- Stage 2: `W2 <- DECIM_C(W1, h1[0..T1), d1)` (R160, R216). -/
def stage2 (s : State) : State :=
  let p := s.hidden.run
  nextStage { s with hidden := { s.hidden with
    w2 := decimC s.hidden.w1 ((coef1Words s p.t1).map f32to64) p.d1 } }

/-- Stage 3: `W3 <- DISCRIM(W2)` (R160, R240). -/
def stage3 (s : State) : State :=
  nextStage { s with hidden := { s.hidden with w3 := discrimBuf s.hidden.w2 } }

/-- Stage 4: `W4 <- DEEMPH(W3, x, b0)` (R160, R263). -/
def stage4 (s : State) : State :=
  let p := s.hidden.run
  let y0 := s.hidden.hist.deemphY
  let w4 := deemph p.x p.b0 y0 s.hidden.w3
  nextStage { s with hidden := { s.hidden with
    w4 := w4
    hist := { s.hidden.hist with deemphY := w4.getLastD y0 } } }

/-- Stage 5: `W5 <- DECIM_R(W4, h2[0..T2), d2)` (R160, R280). -/
def stage5 (s : State) : State :=
  let p := s.hidden.run
  nextStage { s with hidden := { s.hidden with
    w5 := decimR s.hidden.w4 ((coef2Words s p.t2).map f32to64) p.d2 } }

/-- What NORMALIZE writes to state: OBUF, the peak pair and SILENT (R307). -/
def storeResult (r : Normalized) (s : State) : State :=
  { s with
    mem := writeBytes s.mem obufBase ((packPcm r.pcm).flatMap bytesOfWord)
    peakLo := peakLoOf r.peak
    peakHi := peakHiOf r.peak
    status := { s.status with silent := r.silent } }

/-- Completion: BUSY and STAGE 0, DONE and DONE_IS 1; the hidden state is unspecified from here on (R162, R46). -/
def complete (s : State) : State :=
  dropHidden { s with
    status := { s.status with busy := false, stage := 0#3, done := true }
    irqStat := s.irqStat ||| doneBit }

/-- Stage 6: NORMALIZE, then completion in the same step (R160, R162, R307). -/
def stage6 (s : State) : State := complete (storeResult (normalizeBuf s.hidden.w5 s.hidden.run.rnd) s)

/-- The ENGINE's step at the stage STATUS.STAGE names (R160). No other stage is ever held while BUSY = 1 (R34). -/
def engineStep (s : State) : Host.Outcome State Fault Refusal :=
  match s.status.stage.toNat with
  | 1 => .next (stage1 s)
  | 2 => .next (stage2 s)
  | 3 => .next (stage3 s)
  | 4 => .next (stage4 s)
  | 5 => .next (stage5 s)
  | 6 => .next (stage6 s)
  | _ => .fault .stageNotHeld

/-- A turn of the ENGINE: it has a step exactly when BUSY = 1, and none while `rst_n = 0` (R160, R380). -/
def engineTurn (s : State) : Host.Outcome State Fault Refusal :=
  if s.rstN && s.status.busy then engineStep s else .next s

end Sys2Proof.Machine
end

