-- ==== Sys2Proof/Machine/Agents.lean ====
section
/-! DEFINITION. The agents' turns (R18): HOST transactions and statements (R80, R123), ENGINE steps (R160), the reset
input (R380), and the choice of who moves. -/

namespace Sys2Proof.Machine

open Sys2Proof

/-- `rst_n` asserted: one atomic step that ends any RUN and resets the block (R380, R382). -/
def assertReset (s : State) : State := { resetBlock s with rstN := false }

/-- `rst_n` back at 1: the block is idle with the state of R53 (R380). -/
def releaseReset (s : State) : State := { s with rstN := true }

/-- The data of the last reply. -/
def replyData (s : State) : Word :=
  match s.reply with
  | some r => r.data
  | none => 0#32

/-- One iteration of `POLL off, mask, val`: a read, repeated after a turn of the ENGINE while `(data AND mask)` differs
from `val` (R123, R163). -/
def pollTurn (a : Offset) (mask val : Word) (s : State) : State :=
  let s1 := busRead a .four s
  if replyData s1 &&& mask = val then s1
  else { s1 with agenda := .engine :: .poll a mask val :: s1.agenda }

/-- `WAITIRQ`: no transaction; while `irq = 0` the ENGINE moves and the HOST goes on waiting (R123, R163). -/
def waitIrqTurn (s : State) : State :=
  if irq s then s else { s with agenda := .engine :: .waitIrq :: s.agenda }

/-- The step of one entry of the schedule, the entry itself already taken off it. -/
def turnStep (t : Turn) (s : State) : Host.Outcome State Fault Refusal :=
  match t with
  | .host tr => hostTurn tr s
  | .poll a mask val => .next (pollTurn a mask val s)
  | .waitIrq => .next (waitIrqTurn s)
  | .engine => engineTurn s
  | .rstFall => .next (assertReset s)
  | .rstRise => .next (releaseReset s)

/-- Who moves: the first entry of the schedule, or the ENGINE once the HOST has nothing more to send (R18, R163). An
idle block with an empty schedule stays as it is (R383). -/
def nextTurn (s : State) : Host.Outcome State Fault Refusal :=
  match s.agenda with
  | [] => engineTurn s
  | t :: rest => turnStep t { s with agenda := rest }

/-- The transaction that delivers a command word (R124). -/
def cmdWrite (w : Word) : Transaction := .write 0x0000004#26 .four w

/-- The block with a command word as the HOST's next transaction, and the port out of reset. -/
def placeCommand (w : Word) (s : State) : State :=
  { s with agenda := .host (cmdWrite w) :: s.agenda, rstN := true }

end Sys2Proof.Machine
end

