-- ==== Sys2Proof/Machine/Step.lean ====
section
/-! DEFINITION. The step function of the model, and the command the host places before it. -/

namespace Sys2Proof.Machine

open Sys2Proof

/-- One step of the model: one atomic step of one agent, or of the reset input (R18, R380). -/
def step (s : State) : Host.Outcome State Fault Refusal := nextTurn s

/-- `s` with the command word whose low `nbits` bits are `w` as the HOST's next transaction, a write to CMD (R35), and
`rst_n = 1`, without which the port answers ERROR (R380). -/
def State.withFetchWord (s : State) (nbits w : Nat) : State := placeCommand (BitVec.ofNat 32 (w % 2 ^ nbits)) s

end Sys2Proof.Machine
end

