-- ==== Sys2Proof/Machine/HostNotation.lean ====
section
/-! DEFINITION. The host notation of R123 and the pseudo-instructions of R124, as entries of the schedule. A host
program is the list of its statements. -/

namespace Sys2Proof.Machine

open Sys2Proof

/-- `W32 off, val` (R123). -/
def w32 (a : Offset) (v : Word) : Turn := .host (.write a .four v)

/-- `R32 off` (R123). -/
def r32 (a : Offset) : Turn := .host (.read a .four)

/-- The offset of a register named in a statement (R123). -/
def regName (r : Reg) : Offset := BitVec.ofNat 26 (regOffset r)

/-- `NOP`, `RUN`, `ABORT`, `CLEAR` and `SRST` as host statements: `W32 CMD, <word>` (R124). -/
def issue (i : Instr) : Turn := .host (cmdWrite (encode i))

/-- `WAITIDLE`: `POLL STATUS, 0x00000001, 0x00000000` (R124). -/
def waitIdle : Turn := .poll (regName .status) 0x00000001#32 0x00000000#32

/-- `ACKIRQ`: `W32 IRQ_STAT, 0x00000003` (R124). -/
def ackIrqStmt : Turn := w32 (regName .irqStat) 0x00000003#32

/-- The block offset of a computed address (R124). DESIGN CHOICE (log entry 25): R123 asks for a block offset and no rule
gives a statement whose index leads past the 26-bit aperture a meaning; the model takes the address modulo `2^26`. -/
def blockOffset (n : Nat) : Offset := BitVec.ofNat 26 n

/-- `SETIQ i, I, Q` (R124). An index past the aperture wraps: DESIGN CHOICE (log entry 25). -/
def setIq (i : Nat) (I Q : Int) : Turn := w32 (blockOffset (ibufBase + 4 * i)) (iqWord I Q)

/-- `SETH1 j, f`, `f` given as its binary32 encoding (R124). An index past the aperture wraps: DESIGN CHOICE (log entry
25). -/
def setH1 (j : Nat) (f : Word) : Turn := w32 (blockOffset (coef1Base + 4 * j)) f

/-- `SETH2 j, f`, `f` given as its binary32 encoding (R124). An index past the aperture wraps: DESIGN CHOICE (log entry
25). -/
def setH2 (j : Nat) (f : Word) : Turn := w32 (blockOffset (coef2Base + 4 * j)) f

/-- `GETPCM k`: the read of the word that holds sample `k`; `pcmOfWord k` takes the sample from its data (R124). An index
past the aperture wraps: DESIGN CHOICE (log entry 25). -/
def getPcm (k : Nat) : Turn := r32 (blockOffset (obufBase + 4 * (k / 2)))

/-- A host program appended to the schedule. -/
def withProgram (prog : List Turn) (s : State) : State := { s with agenda := s.agenda ++ prog }

end Sys2Proof.Machine
end

