-- ==== Sys2Proof/Safety.lean ====
section
/-! DEFINITION. What a legal state of the block is, in the terms the statements use: the invariants R33, R34, R48 and
R91 give every state a run reaches, and the observations R164 and R167 name. -/

namespace Sys2Proof.Safety

open Sys2Proof Sys2Proof.Machine

/-- The capacities are ones R7 allows. -/
def capsLegal (s : State) : Prop :=
  nMax s % 1024 = 0 ∧ 1024 ≤ nMax s ∧ nMax s ≤ 2 ^ 22 ∧ 1 ≤ tMax s ∧ tMax s ≤ 16384

/-- The codes ERRCODE can hold: those of R331, and no other (R120). -/
def errorCodes : List (BitVec 8) :=
  [codeNone, codeZeroWindow, codeWindowAlign, codeWindowRange, codeD1Zero, codeD2Zero, codeNtaps1, codeNtaps2,
   codeShortWindow, codeTapNonFinite, codeIllegalCmd, codeAborted]

/-- The invariants of R33, R34 and R120 on STATUS. -/
def statusLegal (t : Status) : Prop :=
  ¬(t.done = true ∧ t.err = true) ∧
  (t.busy = true → t.done = false ∧ t.err = false) ∧
  (t.stage ≠ 0#3 ↔ t.busy = true) ∧
  t.stage ≠ 7#3 ∧
  (t.errcode = codeNone ↔ t.err = false) ∧
  t.errcode ∈ errorCodes

/-- A byte offset inside an implemented word of a memory window (R86). -/
def inMemory (s : State) (a : Nat) : Prop :=
  (coef1Base ≤ a ∧ a < coef1Base + 4 * tMax s) ∨ (coef2Base ≤ a ∧ a < coef2Base + 4 * tMax s) ∨
  (ibufBase ≤ a ∧ a < ibufBase + 4 * nMax s) ∨ (obufBase ≤ a ∧ a < obufBase + 4 * (oMax s / 2))

/-- Memory is in canonical form and lists implemented bytes only (R86). -/
def memLegal (s : State) : Prop := memWf s.mem = true ∧ ∀ c ∈ s.mem, inMemory s c.1

/-- While a RUN is in progress its configuration is an accepted one and has not changed (R48, R91), the result
registers hold the RUN's values and PEAK is 0 (R149, R391), and `rst_n` is 1 (R380). -/
def runLegal (s : State) : Prop :=
  check s = codeNone ∧ s.hidden.run = runParamsOf s ∧
  s.d1 = BitVec.ofNat 32 s.hidden.run.d1 ∧ s.d2 = BitVec.ofNat 32 s.hidden.run.d2 ∧
  s.len1 = BitVec.ofNat 32 s.hidden.run.l1 ∧ s.outlen = BitVec.ofNat 32 s.hidden.run.l3 ∧
  s.peakLo = 0#32 ∧ s.peakHi = 0#32 ∧ s.rstN = true

/-- The working buffers filled so far hold what the stages compute from the memories (R160, R93), and the histories a
later stage starts from are those of R47. -/
def stageData (s : State) : Prop :=
  let k := s.status.stage.toNat
  let p := s.hidden.run
  let w := s.hidden
  (k = 1 → w.hist.phase = 0) ∧
  (k ≤ 4 → w.hist.deemphY = fZero) ∧
  (2 ≤ k → w.w1 = shift p.f p.r 0 (ibufWords s p.n)) ∧
  (3 ≤ k → w.w2 = decimC w.w1 ((coef1Words s p.t1).map f32to64) p.d1) ∧
  (4 ≤ k → w.w3 = discrimBuf w.w2) ∧
  (5 ≤ k → w.w4 = deemph p.x p.b0 fZero w.w3) ∧
  (6 ≤ k → w.w5 = decimR w.w4 ((coef2Words s p.t2).map f32to64) p.d2)

/-- The invariant of the block. -/
structure Inv (s : State) : Prop where
  caps : capsLegal s
  status : statusLegal s.status
  mem : memLegal s
  run : s.status.busy = true → runLegal s
  data : s.status.busy = true → stageData s

/-- The machine's next step when HOST issues the transaction `tr` at `s` (R80). -/
def afterHost (tr : Transaction) (s : State) : Host.Outcome State Fault Refusal :=
  step { s with agenda := .host tr :: s.agenda }

/-- The machine's next step when the ENGINE moves at `s` (R160). -/
def afterEngine (s : State) : Host.Outcome State Fault Refusal := step { s with agenda := .engine :: s.agenda }

/-- The machine's next step when `rst_n` is asserted at `s` (R380). -/
def afterReset (s : State) : Host.Outcome State Fault Refusal := step { s with agenda := .rstFall :: s.agenda }

/-- A read at offset `a` returns `v` with `resp = OKAY` and changes nothing but the port's answer (R89, R158). -/
def readsAs (s : State) (a : Offset) (v : Word) : Prop :=
  afterHost (.read a .four) s = .next { s with reply := some { data := v, resp := .okay } }

/-- A write of `v` at offset `a` is answered OKAY and leaves the state `t` of the block (R159). -/
def writesTo (s : State) (a : Offset) (v : Word) (t : State) : Prop :=
  afterHost (.write a .four v) s = .next { t with reply := some { data := 0#32, resp := .okay } }

/-- A transaction is answered `resp = ERROR` with read data 0 and has no effect (R81, R82, R87, R380). -/
def answersError (s : State) (tr : Transaction) : Prop :=
  afterHost tr s = .next { s with reply := some { data := 0#32, resp := .error } }

/-- A 4-byte aligned offset of an implemented word of an input memory: COEF1, COEF2 or IBUF (R86). -/
def inputWord (s : State) (a : Nat) : Prop :=
  a % 4 = 0 ∧
  ((coef1Base ≤ a ∧ a < coef1Base + 4 * tMax s) ∨ (coef2Base ≤ a ∧ a < coef2Base + 4 * tMax s) ∨
    (ibufBase ≤ a ∧ a < ibufBase + 4 * nMax s))

/-- A 4-byte aligned offset of an implemented word of OBUF (R86). -/
def obufWord (s : State) (a : Nat) : Prop :=
  a % 4 = 0 ∧ obufBase ≤ a ∧ a < obufBase + 4 * (oMax s / 2)

/-- The registers after reset and after SRST (R53); ID, PARAM_NMAX and PARAM_TMAX are constants. -/
structure RegistersReset (t : State) : Prop where
  status : t.status = Status.reset
  irqEn : t.irqEn = 0#2
  irqStat : t.irqStat = 0#2
  cfg : t.cfg = 0#1
  rate : t.rate = 0#32
  offset : t.offset = 0#32
  nsamp : t.nsamp = 0#32
  ntaps1 : t.ntaps1 = 0#32
  ntaps2 : t.ntaps2 = 0#32
  d1 : t.d1 = 0#32
  d2 : t.d2 = 0#32
  len1 : t.len1 = 0#32
  outlen : t.outlen = 0#32
  peakLo : t.peakLo = 0#32
  peakHi : t.peakHi = 0#32

/-- What no command, stage or HOST transaction writes: the capacities and the level of `rst_n`; and what a command
leaves of the schedule and of the port. -/
structure SameOutside (s t : State) : Prop where
  paramNmax : t.paramNmax = s.paramNmax
  paramTmax : t.paramTmax = s.paramTmax
  rstN : t.rstN = s.rstN
  agenda : t.agenda = s.agenda
  reply : t.reply = s.reply

/-- `DEMOD` of the configuration and the memories of `s` (R164, R165). -/
def demodOf (s : State) : Normalized :=
  demod (ibufWords s (opN s)) (coef1Words s (opT1 s)) (coef2Words s (opT2 s)) (opR s) (opF s) (opRnd s)

/-- The inputs R164 lists: the configuration, and the words a RUN reads. -/
structure SameInputs (s t : State) : Prop where
  rate : s.rate = t.rate
  offset : s.offset = t.offset
  nsamp : s.nsamp = t.nsamp
  ntaps1 : s.ntaps1 = t.ntaps1
  ntaps2 : s.ntaps2 = t.ntaps2
  cfg : s.cfg = t.cfg
  ibuf : ibufWords s (opN s) = ibufWords t (opN s)
  coef1 : coef1Words s (opT1 s) = coef1Words t (opT1 s)
  coef2 : coef2Words s (opT2 s) = coef2Words t (opT2 s)

/-- The configuration registers and CFG, which only a HOST write, SRST or reset changes (R38, R39). -/
structure SameConfig (s t : State) : Prop where
  rate : t.rate = s.rate
  offset : t.offset = s.offset
  nsamp : t.nsamp = s.nsamp
  ntaps1 : t.ntaps1 = s.ntaps1
  ntaps2 : t.ntaps2 = s.ntaps2
  cfg : t.cfg = s.cfg

/-- Every byte outside a range reads as before. -/
def sameMemOutside (s t : State) (base len : Nat) : Prop :=
  ∀ a, ¬(base ≤ a ∧ a < base + len) → readByte t.mem a = readByte s.mem a

/-- The bytes of OBUF that a RUN writes, or that become unspecified when it is cut short: `4 * ceil(L3 / 2)` (R307,
R152). -/
def obufBytesOf (p : RunParams) : Nat := 4 * ceilDiv p.l3 2

/-- The PCM samples OBUF holds, as the HOST reads them: sample `k` for `k` in `[0, n)` (R117). -/
def pcmSamples (s : State) (n : Nat) : List Int :=
  (List.range n).map (fun k => pcmOfWord k (readWord s.mem (obufBase + 4 * (k / 2))))

/-- The largest finite binary64 value, in units of `2^-1074`. -/
def maxUnits : ℚ := unitsOfMag (infMag - 1)

/-- `c` is `RN(r)` (R13), `r` in units of `2^-1074`: a finite value, none nearer to `r`, and of an even significand if
another value is equally near. -/
structure RoundsTo (r : ℚ) (c : F64) : Prop where
  finite : isFinite c = true
  nearest : ∀ m : F64, isFinite m = true → |r - units c| ≤ |r - units m|
  tieEven : ∀ m : F64, isFinite m = true → units m ≠ units c → |r - units c| = |r - units m| → magOf c % 2 = 0

end Sys2Proof.Safety
end

