-- ==== Sys2Proof/Certificates/Slice0/Obligations.lean ====
section
/-! DEFINITION. The statements for the provers. Each docstring names the rule of spec/ it formalises, or says what of
it is derived.

`afterHost tr s` is the machine's next step when HOST issues `tr` at `s`, `afterEngine s` when the ENGINE moves,
`afterReset s` when `rst_n` is asserted (Safety.lean). -/

open Sys2Proof Sys2Proof.Machine Sys2Proof.Safety

/-! ### Encoding and dispatch -/

/-- R111, R112, R114: the decoder and the encoder agree on every command and every word: the five words `0x00000000`
to `0x00000004` decode to the five commands, and no other word decodes. -/
def Obligations.DecodeEncodeAgree : Prop :=
  (∀ i : Instr, Instr.wellFormed i = true → decode (encode i) = .ok i) ∧
  (∀ (w : Word) (i : Instr), decode w = .ok i → w = encode i ∧ Instr.wellFormed i = true)

/-- R113: a word is ILLEGAL exactly when RSV is not zero or OP is in `0x05` to `0xFF`. -/
def Obligations.IllegalWordsAreRejected : Prop :=
  ∀ w : Word, (∃ e, decode w = .error e) ↔
    (w.extractLsb' 8 24 ≠ 0#24 ∨ (0x05 ≤ (w.extractLsb' 0 8).toNat ∧ (w.extractLsb' 0 8).toNat ≤ 0xFF))

/-- R112 and vectors K13 to K16: a few words and what they decode to. -/
def Obligations.KnownWordsDecode : Prop :=
  decode 0x00000000#32 = .ok .nop ∧ decode 0x00000001#32 = .ok .run ∧ decode 0x00000002#32 = .ok .abort ∧
  decode 0x00000003#32 = .ok .clear ∧ decode 0x00000004#32 = .ok .srst ∧
  decode 0x00000007#32 = .error .unassignedOp ∧ decode 0x000000FF#32 = .error .unassignedOp ∧
  decode 0x00000105#32 = .error .reservedBits ∧ decode 0x80000001#32 = .error .reservedBits

/-- R35, R140: when the HOST's next transaction writes a command word to CMD and `rst_n` is 1, the step is `exec` of the
decoded command, at the state past that transaction, and the port answers OKAY. -/
def Obligations.StepRunsDecodedCommand : Prop :=
  ∀ (s : State) (w : Word) (i : Instr), s.rstN = true → decode w = .ok i → Instr.wellFormed i = true →
    afterHost (.write 0x0000004#26 .four w) s =
      mapNext (fun t => { t with reply := some { data := 0#32, resp := .okay } }) (exec i s)

/-! ### The commands -/

/-- R141: NOP has no effect, whatever BUSY; its word is `0x00000000`. -/
def Obligations.NopHasNoEffect : Prop :=
  ∀ s : State, exec .nop s = .next s ∧ encode .nop = 0x00000000#32

/-- R142, R149: an idle RUN whose configuration passes the check is accepted: its next state, with every field it
leaves alone. -/
def Obligations.RunIsAccepted : Prop :=
  ∀ s : State, s.status.busy = false → check s = 0x00#8 →
    exec .run s = .next { s with
      status := { s.status with
        busy := true, stage := 1#3, done := false, err := false, errcode := 0x00#8, silent := false }
      d1 := BitVec.ofNat 32 (opR s / 200000)
      d2 := BitVec.ofNat 32 (opR s / (opR s / 200000 * 44100))
      len1 := BitVec.ofNat 32 (length1 (opN s) (opR s))
      outlen := BitVec.ofNat 32 (length3 (opN s) (opR s))
      peakLo := 0#32
      peakHi := 0#32
      hidden := { s.hidden with run := runParamsOf s, hist := { phase := 0, deemphY := fZero } } }

/-- R142, R150: an idle RUN whose configuration fails the check reports the code and does not start: its next state,
with every field it leaves alone. -/
def Obligations.RunReportsConfigurationError : Prop :=
  ∀ s : State, s.status.busy = false → check s ≠ 0x00#8 →
    exec .run s = .next { s with
      status := { s.status with done := false, err := true, errcode := check s, silent := false }
      irqStat := s.irqStat ||| 0b10#2
      d1 := 0#32, d2 := 0#32, len1 := 0#32, outlen := 0#32, peakLo := 0#32, peakHi := 0#32 }

/-- R143, R335 (a): the check passes exactly when every condition holds; otherwise it reports the first that fails, in
the order of the codes. Code `0x05` is never reported (R148). -/
def Obligations.CheckReportsFirstFailure : Prop :=
  ∀ s : State,
    let ok1 := opN s ≠ 0
    let ok2 := opN s % 1024 = 0
    let ok3 := opN s ≤ nMax s
    let ok4 := 200000 ≤ opR s
    let ok6 := 1 ≤ opT1 s ∧ opT1 s ≤ tMax s
    let ok7 := 1 ≤ opT2 s ∧ opT2 s ≤ tMax s
    let ok8 := 2 ≤ ceilDiv (opN s) (opR s / 200000)
    let finite (base t : Nat) := ∀ j, j < t → (readWord s.mem (base + 4 * j)).extractLsb' 23 8 ≠ 0xFF#8
    let ok9 := finite 0x00010000 (opT1 s) ∧ finite 0x00020000 (opT2 s)
    (check s = 0x00#8 ↔ ok1 ∧ ok2 ∧ ok3 ∧ ok4 ∧ ok6 ∧ ok7 ∧ ok8 ∧ ok9) ∧
    (check s = 0x01#8 ↔ ¬ok1) ∧
    (check s = 0x02#8 ↔ ok1 ∧ ¬ok2) ∧
    (check s = 0x03#8 ↔ ok1 ∧ ok2 ∧ ¬ok3) ∧
    (check s = 0x04#8 ↔ ok1 ∧ ok2 ∧ ok3 ∧ ¬ok4) ∧
    check s ≠ 0x05#8 ∧
    (check s = 0x06#8 ↔ ok1 ∧ ok2 ∧ ok3 ∧ ok4 ∧ ¬ok6) ∧
    (check s = 0x07#8 ↔ ok1 ∧ ok2 ∧ ok3 ∧ ok4 ∧ ok6 ∧ ¬ok7) ∧
    (check s = 0x08#8 ↔ ok1 ∧ ok2 ∧ ok3 ∧ ok4 ∧ ok6 ∧ ok7 ∧ ¬ok8) ∧
    (check s = 0x09#8 ↔ ok1 ∧ ok2 ∧ ok3 ∧ ok4 ∧ ok6 ∧ ok7 ∧ ok8 ∧ ¬ok9)

/-- R148, R147, R8, R243: for every configuration that passes the check, `R / d1` lies in `[200000, 400000)`, `d1 >= 1`,
`4 <= d2 <= 9`, the stage-3 buffer is not empty, there is an output, and the output fits in `N / 4` samples; and code
`0x05` is never returned. -/
def Obligations.AcceptedRunRanges : Prop :=
  (∀ s : State, check s ≠ 0x05#8) ∧
  ∀ s : State, check s = 0x00#8 →
    let p := runParamsOf s
    p.n = opN s ∧ p.r = opR s ∧ 200000 * p.d1 ≤ p.r ∧ p.r < 400000 * p.d1 ∧ 1 ≤ p.d1 ∧ 4 ≤ p.d2 ∧ p.d2 ≤ 9 ∧
      p.l1 = ceilDiv p.n p.d1 ∧ p.l2 = p.l1 - 1 ∧ 1 ≤ p.l2 ∧
      p.l3 = ceilDiv p.l2 p.d2 ∧ 1 ≤ p.l3 ∧ p.l3 ≤ p.n / 4 ∧ p.l3 ≤ oMax s

/-- R152: ABORT while idle has no effect; ABORT of a busy RUN writes the flags, IRQ_STAT and the output registers, and
leaves D1, D2, LEN1, the configuration, IRQ_EN and every byte outside the aborted RUN's OBUF words unchanged. Those OBUF
words become unspecified, so nothing is said of them. -/
def Obligations.AbortEndsTheRun : Prop :=
  encode .abort = 0x00000002#32 ∧
  (∀ s : State, s.status.busy = false → exec .abort s = .next s) ∧
  ∀ s : State, s.status.busy = true → ∃ t, exec .abort s = .next t ∧
    t.status = { s.status with
      busy := false, stage := 0#3, err := true, errcode := 0x11#8, done := false, silent := false } ∧
    t.irqStat = s.irqStat ||| 0b10#2 ∧ t.irqEn = s.irqEn ∧
    t.outlen = 0#32 ∧ t.peakLo = 0#32 ∧ t.peakHi = 0#32 ∧
    t.d1 = s.d1 ∧ t.d2 = s.d2 ∧ t.len1 = s.len1 ∧
    SameConfig s t ∧ SameOutside s t ∧ sameMemOutside s t obufBase (obufBytesOf s.hidden.run)

/-- R153: CLEAR while idle clears six STATUS fields and leaves everything else unchanged. -/
def Obligations.ClearClearsTheFlags : Prop :=
  encode .clear = 0x00000003#32 ∧ ∀ s : State, s.status.busy = false →
    exec .clear s = .next { s with status := { s.status with
      done := false, err := false, errcode := 0x00#8, silent := false, accessViol := false, cmdIgnored := false } }

/-- R155: SRST sets every register to its reset value; IBUF, COEF1, COEF2 and, when idle, all of memory are unchanged; of
a busy RUN only its OBUF words change; `irq` becomes 0. -/
def Obligations.SrstResetsTheRegisters : Prop :=
  encode .srst = 0x00000004#32 ∧
  ∀ s : State, ∃ t, exec .srst s = .next t ∧ RegistersReset t ∧ irq t = false ∧ SameOutside s t ∧
    (s.status.busy = false → t.mem = s.mem) ∧
    (s.status.busy = true → sameMemOutside s t obufBase (obufBytesOf s.hidden.run))

/-- R156, R140: a CMD write of an illegal word while idle sets ERR with code `0x10`, clears DONE, and sets ERR_IS; no
other state changes. -/
def Obligations.IllegalCommandWhileIdle : Prop :=
  ∀ (s : State) (w : Word) (e : Illegal), s.rstN = true → s.status.busy = false → decode w = .error e →
    writesTo s 0x0000004#26 w { s with
      status := { s.status with done := false, err := true, errcode := 0x10#8 }
      irqStat := s.irqStat ||| 0b10#2 }

/-- R151, R154, R157: while BUSY a RUN, a CLEAR and an illegal word set CMD_IGNORED and do nothing else. -/
def Obligations.CommandsWhileBusyAreIgnored : Prop :=
  ∀ s : State, s.status.busy = true →
    let t : State := { s with status := { s.status with cmdIgnored := true } }
    exec .run s = .next t ∧ exec .clear s = .next t ∧
      ∀ (w : Word) (e : Illegal), s.rstN = true → decode w = .error e → writesTo s 0x0000004#26 w t

/-- The frame of the commands other than SRST: the configuration, IRQ_EN and what lies outside the block are
unchanged; and NOP, RUN and CLEAR leave all of memory unchanged. -/
def Obligations.CommandFrames : Prop :=
  ∀ (i : Instr) (s t : State), i ≠ .srst → exec i s = .next t →
    SameConfig s t ∧ t.irqEn = s.irqEn ∧ SameOutside s t ∧
    (i ≠ .abort → ∀ a, readByte t.mem a = readByte s.mem a) ∧
    (i = .abort → sameMemOutside s t obufBase (obufBytesOf s.hidden.run))

/-- R336, R337: error entry writes ERR, ERRCODE, DONE and ERR_IS and nothing else; CLEAR's effect and a write of 1 to
ERR_IS, in either order, take every trace of it away again. -/
def Obligations.ErrorEntryAndAcknowledgment : Prop :=
  ∀ (s : State) (c : BitVec 8),
    raiseError c s = { s with
      status := { s.status with err := true, errcode := c, done := false }, irqStat := s.irqStat ||| 0b10#2 } ∧
    acknowledge (ackIrq 2#32 (raiseError c s)) = ackIrq 2#32 (acknowledge (raiseError c s)) ∧
    acknowledge (ackIrq 2#32 (raiseError c s)) = ackIrq 2#32 (acknowledge s)

/-! ### The port and the registers -/

/-- R81, R82: a transaction of one or two bytes, or at a misaligned offset, is answered ERROR, with read data 0, and
has no effect. -/
def Obligations.NarrowAndMisalignedAccessesAreErrors : Prop :=
  ∀ (s : State) (a : Offset) (n : Size) (v : Word), (n ≠ .four ∨ a.extractLsb' 0 2 ≠ 0#2) →
    answersError s (.read a n) ∧ answersError s (.write a n v)

/-- R87: an offset that is neither a register of R85 nor an implemented word of R86 is answered ERROR, with read data
0 and no effect; the two reserved ranges are such offsets. -/
def Obligations.UnmappedOffsetsAreErrors : Prop :=
  ∀ (s : State) (a : Offset) (v : Word), capsLegal s →
    (((∀ r : Reg, regOffset r ≠ a.toNat) ∧ ¬ inMemory s a.toNat) ∨
      (0x00030000 ≤ a.toNat ∧ a.toNat ≤ 0x00FFFFFF) ∨ 0x03000000 ≤ a.toNat) →
    answersError s (.read a .four) ∧ answersError s (.write a .four v)

/-- R32, R33, R35 to R39, R44, R158: what a read of each register of R85 returns, without any effect. -/
def Obligations.RegisterReads : Prop :=
  ∀ s : State, s.rstN = true →
    readsAs s 0x0000#26 0x464D0001#32 ∧ readsAs s 0x0004#26 0#32 ∧ readsAs s 0x0008#26 (statusWord s.status) ∧
    readsAs s 0x000C#26 (0#30 ++ s.irqEn) ∧ readsAs s 0x0010#26 (0#30 ++ s.irqStat) ∧
    readsAs s 0x0014#26 (0#31 ++ s.cfg) ∧
    readsAs s 0x0020#26 s.rate ∧ readsAs s 0x0024#26 s.offset ∧ readsAs s 0x0028#26 s.nsamp ∧
    readsAs s 0x002C#26 s.ntaps1 ∧ readsAs s 0x0030#26 s.ntaps2 ∧
    readsAs s 0x0040#26 s.d1 ∧ readsAs s 0x0044#26 s.d2 ∧ readsAs s 0x0048#26 s.len1 ∧
    readsAs s 0x004C#26 s.outlen ∧ readsAs s 0x0050#26 s.peakLo ∧ readsAs s 0x0054#26 s.peakHi ∧
    readsAs s 0x0058#26 s.paramNmax ∧ readsAs s 0x005C#26 s.paramTmax

/-- R33: where each field of STATUS stands, and that the reserved bits read 0. -/
def Obligations.StatusWordLayout : Prop :=
  ∀ t : Status,
    (statusWord t).getLsbD 0 = t.busy ∧ (statusWord t).getLsbD 1 = t.done ∧ (statusWord t).getLsbD 2 = t.err ∧
    (statusWord t).getLsbD 3 = t.silent ∧ (statusWord t).getLsbD 4 = t.accessViol ∧
    (statusWord t).getLsbD 5 = t.cmdIgnored ∧ (statusWord t).extractLsb' 6 2 = 0#2 ∧
    (statusWord t).extractLsb' 8 3 = t.stage ∧ (statusWord t).extractLsb' 11 5 = 0#5 ∧
    (statusWord t).extractLsb' 16 8 = t.errcode ∧ (statusWord t).extractLsb' 24 8 = 0#8

/-- R36, R37, R91, R159: a write to IRQ_EN stores bits [1:0]; a write to IRQ_STAT clears each of bits [1:0] it holds a
1 for and leaves the other; both act while BUSY as well. -/
def Obligations.InterruptRegisterWrites : Prop :=
  ∀ (s : State) (v : Word), s.rstN = true →
    writesTo s 0x000C#26 v { s with irqEn := v.extractLsb' 0 2 } ∧
    ∃ p : BitVec 2, writesTo s 0x0010#26 v { s with irqStat := p } ∧
      ∀ b, b < 2 → p.getLsbD b = (s.irqStat.getLsbD b && !v.getLsbD b)

/-- R38, R39, R159: while idle a write to CFG stores bit [0], and a write to a configuration register stores the whole
word. -/
def Obligations.ConfigurationWrites : Prop :=
  ∀ (s : State) (v : Word), s.rstN = true → s.status.busy = false →
    writesTo s 0x0014#26 v { s with cfg := v.extractLsb' 0 1 } ∧
    writesTo s 0x0020#26 v { s with rate := v } ∧ writesTo s 0x0024#26 v { s with offset := v } ∧
    writesTo s 0x0028#26 v { s with nsamp := v } ∧ writesTo s 0x002C#26 v { s with ntaps1 := v } ∧
    writesTo s 0x0030#26 v { s with ntaps2 := v }

/-- R91: while BUSY a write to CFG, a configuration register or an implemented word of COEF1, COEF2 or IBUF is answered
OKAY, is dropped, and sets ACCESS_VIOL. -/
def Obligations.WritesWhileBusyAreDropped : Prop :=
  ∀ (s : State) (a : Offset) (v : Word), capsLegal s → s.rstN = true → s.status.busy = true →
    (a ∈ [0x0014#26, 0x0020#26, 0x0024#26, 0x0028#26, 0x002C#26, 0x0030#26] ∨ inputWord s a.toNat) →
    writesTo s a v { s with status := { s.status with accessViol := true } }

/-- R90: a write to a read-only register or to an implemented OBUF word is answered OKAY and changes no state. -/
def Obligations.ReadOnlyWritesAreIgnored : Prop :=
  ∀ (s : State) (a : Offset) (v : Word), capsLegal s → s.rstN = true →
    (a ∈ [0x0000#26, 0x0008#26, 0x0040#26, 0x0044#26, 0x0048#26, 0x004C#26, 0x0050#26, 0x0054#26, 0x0058#26,
      0x005C#26] ∨ obufWord s a.toNat) →
    writesTo s a v s

/-- R158, R84: a read of an implemented word of COEF1, COEF2 or IBUF, or of OBUF while idle, returns the stored word,
byte `k` of which is the byte at address `a + k`. -/
def Obligations.MemoryReads : Prop :=
  ∀ (s : State) (a : Offset), capsLegal s → s.rstN = true →
    (inputWord s a.toNat ∨ (obufWord s a.toNat ∧ s.status.busy = false)) →
    ∃ v : Word, readsAs s a v ∧ ∀ k, k < 4 → v.extractLsb' (8 * k) 8 = readByte s.mem (a.toNat + k)

/-- R92: a read of an implemented OBUF word while BUSY is answered OKAY with some word, and changes nothing but the
model's draw counter (log entry 8). -/
def Obligations.ObufReadsWhileBusy : Prop :=
  ∀ (s : State) (a : Offset), capsLegal s → s.rstN = true → s.status.busy = true → obufWord s a.toNat →
    ∃ v : Word, afterHost (.read a .four) s =
      .next { s with reply := some { data := v, resp := .okay }, draws := s.draws + 1 }

/-- R83, R95: while idle a write to an input memory is read back, and every other aligned word of memory keeps its
value. -/
def Obligations.InputWritesAreReadBack : Prop :=
  ∀ (s : State) (a : Offset) (v : Word), capsLegal s → s.rstN = true → s.status.busy = false →
    inputWord s a.toNat →
    ∃ m, writesTo s a v { s with mem := m } ∧ readsAs { s with mem := m } a v ∧
      sameMemOutside s { s with mem := m } a.toNat 4

/-- R89: a read changes no state (only the port's answer and the model's draw counter move, log entries 8 and 14), and a
second read of the same word with no step between returns the same answer, except OBUF while BUSY. -/
def Obligations.ReadsHaveNoSideEffect : Prop :=
  ∀ (s : State) (a : Offset) (n : Size), ∃ t, afterHost (.read a n) s = .next t ∧
    t = { s with reply := t.reply, draws := t.draws } ∧
    ((s.status.busy = false ∨ ¬ obufWord s a.toNat) → capsLegal s → afterHost (.read a n) t = .next t)

/-- R49, R339, R340: the interrupt output is the OR of the enabled pending bits, in every state; it is 0 at reset. -/
def Obligations.IrqIsEnabledPending : Prop :=
  (∀ s : State, irq s = true ↔ s.irqStat &&& s.irqEn ≠ 0#2) ∧ irq State.reset = false

/-- R91, R98, R166: a HOST transaction that leaves a RUN in progress changes nothing the ENGINE reads: the
configuration, the run parameters, the working buffers, and every byte of memory. -/
def Obligations.HostCannotDisturbARun : Prop :=
  ∀ (s t : State) (tr : Transaction), s.status.busy = true → afterHost tr s = .next t → t.status.busy = true →
    SameConfig s t ∧ t.hidden = s.hidden ∧ t.status.stage = s.status.stage ∧
      ∀ a, readByte t.mem a = readByte s.mem a

/-! ### Reset -/

/-- R53, R381, R383: the state after reset: every register at its reset value, `irq = 0`, no memory word written yet.
A RUN right after it fails with `0x01`. That PARAM_NMAX and PARAM_TMAX hold the default capacities of R7, and that `rst_n` is
back at 1, are the model's choices (log entries 3 and 13). -/
def Obligations.ResetState : Prop :=
  RegistersReset State.reset ∧ irq State.reset = false ∧ State.reset.rstN = true ∧ State.reset.mem = [] ∧
    State.reset.paramNmax = 2097152#32 ∧ State.reset.paramTmax = 1024#32 ∧
    exec .run State.reset =
      .next { State.reset with
        status := { State.reset.status with err := true, errcode := 0x01#8 }, irqStat := 0b10#2 }

/-- R382: the assertion of `rst_n` and SRST have the same effect on every state element; `rst_n` is then 0. -/
def Obligations.ResetHasTheEffectOfSrst : Prop :=
  ∀ s : State, ∃ t, exec .srst s = .next t ∧ afterReset s = .next { t with rstN := false }

/-- R380: while `rst_n = 0` every HOST transaction is answered ERROR with read data 0 and no effect, and the ENGINE
takes no step. -/
def Obligations.ResetHoldsThePortAndTheEngine : Prop :=
  ∀ s : State, s.rstN = false → (∀ tr, answersError s tr) ∧ afterEngine s = .next s

/-! ### The ENGINE -/

/-- R160: the ENGINE's steps at stages 1 to 5: which working buffer each fills, from what, and that nothing else
changes but STAGE and the history the stage leaves. -/
def Obligations.EngineStagesFillBuffers : Prop :=
  ∀ s : State, s.rstN = true → s.status.busy = true →
    let p := s.hidden.run
    let go (k : BitVec 3) (h : Hidden) : State := { s with status := { s.status with stage := k }, hidden := h }
    (s.status.stage = 1#3 → ∃ ph, afterEngine s = .next (go 2#3 { s.hidden with
      w1 := shift p.f p.r s.hidden.hist.phase (ibufWords s p.n), hist := { s.hidden.hist with phase := ph } })) ∧
    (s.status.stage = 2#3 → afterEngine s = .next (go 3#3 { s.hidden with
      w2 := decimC s.hidden.w1 ((coef1Words s p.t1).map f32to64) p.d1 })) ∧
    (s.status.stage = 3#3 → afterEngine s = .next (go 4#3 { s.hidden with w3 := discrimBuf s.hidden.w2 })) ∧
    (s.status.stage = 4#3 → ∃ y, afterEngine s = .next (go 5#3 { s.hidden with
      w4 := deemph p.x p.b0 s.hidden.hist.deemphY s.hidden.w3, hist := { s.hidden.hist with deemphY := y } })) ∧
    (s.status.stage = 5#3 → afterEngine s = .next (go 6#3 { s.hidden with
      w5 := decimR s.hidden.w4 ((coef2Words s p.t2).map f32to64) p.d2 }))

/-- R162, R307: the ENGINE's step at stage 6: OBUF, the peak pair and SILENT as NORMALIZE gives them, completion in the
same step, and nothing else but the hidden state, which is unspecified from there on (a free value, log entry 6). -/
def Obligations.EngineStageSixCompletes : Prop :=
  ∀ s : State, s.rstN = true → s.status.busy = true → s.status.stage = 6#3 →
    let r := normalizeBuf s.hidden.w5 s.hidden.run.rnd
    ∃ (h : Hidden) (d : Nat), afterEngine s = .next { s with
      status := { s.status with busy := false, stage := 0#3, done := true, silent := r.silent }
      irqStat := s.irqStat ||| 0b01#2
      mem := writeBytes s.mem 0x02000000 ((packPcm r.pcm).flatMap bytesOfWord)
      peakLo := r.peak.extractLsb' 0 32
      peakHi := r.peak.extractLsb' 32 32
      hidden := h
      draws := d }

/-- R161, R34: from every legal busy state the ENGINE's step is to the next stage, or, at stage 6, to idle with DONE; no
stage is skipped. -/
def Obligations.StageOrderIsFixed : Prop :=
  ∀ s : State, Inv s → s.status.busy = true → ∃ t, afterEngine s = .next t ∧
    ((s.status.stage.toNat < 6 ∧ t.status.stage.toNat = s.status.stage.toNat + 1 ∧ t.status.busy = true) ∨
      (s.status.stage = 6#3 ∧ t.status.stage = 0#3 ∧ t.status.busy = false ∧ t.status.done = true ∧
        t.status.err = false))

/-- R93: an ENGINE step changes no configuration register, no enable, no result register but PEAK, and no byte outside
the RUN's OBUF words. -/
def Obligations.EngineFrame : Prop :=
  ∀ s t : State, Inv s → s.status.busy = true → afterEngine s = .next t →
    SameConfig s t ∧ SameOutside s t ∧ t.irqEn = s.irqEn ∧ t.d1 = s.d1 ∧ t.d2 = s.d2 ∧ t.len1 = s.len1 ∧
      t.outlen = s.outlen ∧ t.status.accessViol = s.status.accessViol ∧
      t.status.cmdIgnored = s.status.cmdIgnored ∧ sameMemOutside s t obufBase (obufBytesOf s.hidden.run)

/-- R163: with nothing more from the HOST, a RUN at stage `k` ends, completed, after exactly `7 - k` steps. That the
ENGINE moves when the schedule is empty is the model's form of weak fairness (log entry 4). -/
def Obligations.RunEndsAfterSixSteps : Prop :=
  ∀ s : State, Inv s → s.status.busy = true → s.agenda = [] →
    (∀ j, j < 7 - s.status.stage.toNat → ∃ t, Sys2Proof.core.run j s = .next t ∧ t.status.busy = true) ∧
    ∃ t, Sys2Proof.core.run (7 - s.status.stage.toNat) s = .next t ∧ t.status.busy = false ∧ t.status.done = true

/-- R123, R124, R163: `WAITIDLE` ends: polling STATUS, with the ENGINE moving between the reads, ends with the RUN
completed and the host program at its end. One ENGINE turn between two reads is the model's choice (log entry 4). -/
def Obligations.WaitIdleEndsWithTheRun : Prop :=
  ∀ s : State, Inv s → s.status.busy = true → s.agenda = [waitIdle] →
    ∃ n t, Sys2Proof.core.run n s = .next t ∧ t.agenda = [] ∧ t.status.busy = false ∧ t.status.done = true

/-- R164, R165: the six ENGINE steps compute DEMOD: from any legal idle state whose configuration passes the check,
RUN and six steps end in a state whose peak, SILENT and PCM samples are those of DEMOD of the inputs at acceptance.
The schedule, with no HOST step between the ENGINE's, is the model's choice (log entries 1, 2 and 4). -/
def Obligations.SixStepsComputeDemod : Prop :=
  ∀ s : State, Inv s → s.status.busy = false → s.rstN = true → s.agenda = [] → check s = 0x00#8 →
    let r := demodOf s
    ∃ t, Sys2Proof.core.run 7 (s.withFetchWord 32 1) = .next t ∧
      t.status = { s.status with
        busy := false, stage := 0#3, done := true, err := false, errcode := 0x00#8, silent := r.silent } ∧
      t.irqStat = s.irqStat ||| 0b01#2 ∧
      t.peakHi ++ t.peakLo = r.peak ∧
      t.outlen.toNat = r.pcm.length ∧
      pcmSamples t t.outlen.toNat = r.pcm.map BitVec.toInt ∧
      sameMemOutside s t obufBase (obufBytesOf (runParamsOf s))

/-- R164: two legal idle states with the same inputs give the same completed results, whatever else differs in them.
The schedule is that of `SixStepsComputeDemod` (log entries 1, 2 and 4). -/
def Obligations.CompletedRunsAreDeterministic : Prop :=
  ∀ s u : State, Inv s → Inv u → s.status.busy = false → u.status.busy = false → s.rstN = true → u.rstN = true →
    s.agenda = [] → u.agenda = [] → check s = 0x00#8 → check u = 0x00#8 → SameInputs s u →
    ∃ t v, Sys2Proof.core.run 7 (s.withFetchWord 32 1) = .next t ∧
      Sys2Proof.core.run 7 (u.withFetchWord 32 1) = .next v ∧
      t.peakLo = v.peakLo ∧ t.peakHi = v.peakHi ∧ t.status.silent = v.status.silent ∧ t.outlen = v.outlen ∧
      pcmSamples t t.outlen.toNat = pcmSamples v v.outlen.toNat

/-! ### Invariants -/

/-- R33, R48, R53: the invariant holds at reset. -/
def Obligations.ResetSatisfiesInvariant : Prop := Inv State.reset

/-- R33, R34, R48, R91: every step keeps the invariant: legal flags, stages and codes, memory in canonical form and
inside the map, and a RUN in progress whose frozen inputs are those it was accepted with. -/
def Obligations.StepKeepsInvariant : Prop :=
  ∀ s t : State, Inv s → step s = .next t → Inv t

/-- R330: from a legal state no step stops the machine: every step answers a next state. -/
def Obligations.LegalStatesNeverStop : Prop :=
  ∀ s : State, Inv s → ∃ t, step s = .next t

/-! ### Binary64 arithmetic -/

/-- R13: `RN` is the nearest binary64 value, ties to the even significand: for a number of `n / d` units of `2^-1074`
not above the largest finite value, no finite value is nearer than the result, and of two equally near the result is
the even one. -/
def Obligations.RoundingIsNearestEven : Prop :=
  ∀ n d : Nat, 0 < d → n ≤ d * unitsOfMag (infMag - 1) →
    rnUnits n d < infMag ∧
    ∀ m, m < infMag →
      |(n : ℚ) / d - unitsOfMag (rnUnits n d)| ≤ |(n : ℚ) / d - unitsOfMag m| ∧
      (|(n : ℚ) / d - unitsOfMag (rnUnits n d)| = |(n : ℚ) / d - unitsOfMag m| → m ≠ rnUnits n d →
        rnUnits n d % 2 = 0)

/-- R13: the basic operations are correctly rounded. For finite operands, an exact sum, difference, product or quotient
not above the largest finite value rounds to its nearest value, ties to even, which is finite; an exact zero sum or
difference is `-0` only when both terms are negative; a product or quotient has the exclusive or of the signs, a zero
result included. In units of `2^-1074`. -/
def Obligations.BasicOperationsAreCorrectlyRounded : Prop :=
  ∀ a b : F64, isFinite a = true → isFinite b = true →
    let ua : ℚ := units a
    let ub : ℚ := units b
    (|ua + ub| ≤ maxUnits → RoundsTo (ua + ub) (fadd a b)) ∧
    (|ua - ub| ≤ maxUnits → RoundsTo (ua - ub) (fsub a b)) ∧
    (|ua * ub / 2 ^ 1074| ≤ maxUnits → RoundsTo (ua * ub / 2 ^ 1074) (fmul a b)) ∧
    (ub ≠ 0 → |ua * 2 ^ 1074 / ub| ≤ maxUnits → RoundsTo (ua * 2 ^ 1074 / ub) (fdiv a b)) ∧
    (ua + ub = 0 → fadd a b = if signOf a && signOf b then fNegZero else fZero) ∧
    (ua - ub = 0 → fsub a b = if signOf a && !signOf b then fNegZero else fZero) ∧
    signOf (fmul a b) = (signOf a != signOf b) ∧
    (ub ≠ 0 → signOf (fdiv a b) = (signOf a != signOf b))

/-! ### The parameter functions -/

/-- R193: the obligations on NCO_FN: its four special points, and both components finite and in `[-1, +1]`. -/
def Obligations.NcoObligations : Prop :=
  ∀ p R : Nat, 0 < R →
    (p = 0 → ncoFn p R = (fOne, fZero)) ∧ (4 * p = R → ncoFn p R = (fZero, fNegOne)) ∧
    (2 * p = R → ncoFn p R = (fNegOne, fZero)) ∧ (4 * p = 3 * R → ncoFn p R = (fZero, fOne)) ∧
    isFinite (ncoFn p R).1 = true ∧ isFinite (ncoFn p R).2 = true ∧
    (units (ncoFn p R).1).natAbs ≤ 2 ^ 1074 ∧ (units (ncoFn p R).2).natAbs ≤ 2 ^ 1074

/-- R242: the obligations on ATAN2_FN for finite operands: the range, the axes whatever the sign of a zero, and the
half planes, read by the sign bit, `-0.0` being the upper bound of the lower one (DEDUCED, log entry 11). -/
def Obligations.Atan2Obligations : Prop :=
  ∀ y x : F64, isFinite y = true → isFinite x = true →
    isFinite (atan2Fn y x) = true ∧ magOf (atan2Fn y x) ≤ magOf 0x400921FB54442D18#64 ∧
    (units y = 0 → 0 ≤ units x → atan2Fn y x = 0x0000000000000000#64) ∧
    (units y = 0 → units x < 0 → atan2Fn y x = 0x400921FB54442D18#64) ∧
    (units x = 0 → 0 < units y → atan2Fn y x = 0x3FF921FB54442D18#64) ∧
    (units x = 0 → units y < 0 → atan2Fn y x = 0xBFF921FB54442D18#64) ∧
    (0 < units y → signOf (atan2Fn y x) = false) ∧ (units y < 0 → signOf (atan2Fn y x) = true)

/-- R261: the obligation on EXP_FN: on `[RN(-1/15), RN(-1/30)]` its value is finite and lies in `[0.5, 1.0)`. -/
def Obligations.ExpObligations : Prop :=
  ∀ a : F64, fle 0xBFB1111111111111#64 a = true → fle a 0xBFA1111111111111#64 = true →
    isFinite (expFn a) = true ∧ units fHalf ≤ units (expFn a) ∧ units (expFn a) < units fOne

/-! ### The data formats and the stages -/

/-- R115, R116: an IQ sample word is its two 16-bit integers, both ways, and each converts to binary64 exactly; a finite
coefficient word converts exactly, a non-finite one being one whose exponent field is `0xFF`. In units of `2^-1074`. -/
def Obligations.OperandsConvertExactly : Prop :=
  (∀ w : Word, iqWord (iqI w) (iqQ w) = w ∧
    isFinite (iqCplx w).re = true ∧ units (iqCplx w).re = (w.extractLsb' 0 16).toInt * 2 ^ 1074 ∧
    isFinite (iqCplx w).im = true ∧ units (iqCplx w).im = (w.extractLsb' 16 16).toInt * 2 ^ 1074) ∧
  (∀ i q : Int, -32768 ≤ i → i ≤ 32767 → -32768 ≤ q → q ≤ 32767 →
    iqI (iqWord i q) = i ∧ iqQ (iqWord i q) = q) ∧
  ∀ w : Word,
    let e := (w.extractLsb' 23 8).toNat
    let f := (w.extractLsb' 0 23).toNat
    (tapNonFinite w = true ↔ e = 0xFF) ∧
    (e ≠ 0xFF → isFinite (f32to64 w) = true ∧ signOf (f32to64 w) = w.getLsbD 31 ∧
      absUnits (f32to64 w) = (if e = 0 then f else (2 ^ 23 + f) * 2 ^ (e - 1)) * 2 ^ 925)

/-- R191: the phase index is `(F * i) mod R` and lies in `[0, R)`, and the accumulator
`p_(i+1) = (p_i + (F mod R)) mod R` gives the same values. -/
def Obligations.PhaseIndexIsAnAccumulator : Prop :=
  ∀ (F : Int) (R i : Nat), 0 < R →
    (phaseIndex F R 0 i : Int) = F * i % R ∧ phaseIndex F R 0 i < R ∧ phaseIndex F R 0 0 = 0 ∧
    phaseIndex F R 0 (i + 1) = (phaseIndex F R 0 i + (F % R).toNat) % R

/-- R194: with `F` a multiple of `R` every phase index is 0, the oscillator stays at `(+1, +0)`, and the frequency shift
returns every sample exactly, bit for bit. -/
def Obligations.ShiftByAMultipleOfRateIsIdentity : Prop :=
  ∀ (F : Int) (R : Nat) (ws : List Word), 0 < R → (R : Int) ∣ F →
    (∀ i, phaseIndex F R 0 i = 0 ∧ ncoFn (phaseIndex F R 0 i) R = (fOne, fZero)) ∧ shift F R 0 ws = ws.map iqCplx

/-- R210, R213, R211, R212: each output is summed from `+0` over ascending taps, one rounded product and one rounded sum
per tap, a tap that would reach before position 0 skipped: without taps every output is `+0`, and one more tap at the end
adds its product with the input sample that many positions back. The decimator computes exactly the outputs of the
full-rate filter at positions `0, d, 2d, ...`, `ceil(L / d)` of them. -/
def Obligations.DecimatorKeepsEveryDthOutput : Prop :=
  ∀ (x h : List F64) (d : Nat), 0 < d →
    (decimR x h d).length = ceilDiv x.length d ∧
    (∀ k, k < ceilDiv x.length d →
      (decimR x h d)[k]? = (decimR x h 1)[k * d]? ∧ (decimR x [] d)[k]? = some fZero) ∧
    ∀ (t : F64) (k : Nat) (acc : F64), (decimR x h d)[k]? = some acc →
      (k * d < h.length → (decimR x (h ++ [t]) d)[k]? = some acc) ∧
      (h.length ≤ k * d → ∃ v, x[k * d - h.length]? = some v ∧
        (decimR x (h ++ [t]) d)[k]? = some (fadd acc (fmul t v)))

/-- R214: an output of the decimator is never `-0`, so terms before position 0 may as well be products with `+0`. The
statement covers every data; that it holds of infinities and NaNs too, on which the spec gives the operations no result,
is the model's choice (PRESUMED, log entry 9). -/
def Obligations.DecimatorOutputIsNeverNegativeZero : Prop :=
  ∀ (x h : List F64) (d : Nat), fNegZero ∉ decimR x h d

/-- R262: for `x` in `[0.5, 1.0)` the de-emphasis gain `1 - x` is exact: gain and pole add up to 1, and the gain lies in
`(0, 0.5]`. -/
def Obligations.DeemphasisGainIsExact : Prop :=
  ∀ x : F64, fle fHalf x = true → flt x fOne = true →
    units (deemphB0 x) + units x = units fOne ∧ 0 < units (deemphB0 x) ∧ units (deemphB0 x) ≤ units fHalf

/-- R301, R302: on finite data the peak is an absolute value no sample exceeds, attained unless the buffer is empty, and
NORMALIZE reports silence exactly when every sample is a zero; then every PCM sample is 0. -/
def Obligations.PeakAndSilence : Prop :=
  ∀ (y : List F64) (rnd : Bool), (∀ v ∈ y, isFinite v = true) →
    (∀ v ∈ y, absUnits v ≤ absUnits (peakOf y)) ∧ signOf (peakOf y) = false ∧
    (y ≠ [] → ∃ v ∈ y, absUnits v = absUnits (peakOf y)) ∧
    ((normalizeBuf y rnd).silent = true ↔ ∀ v ∈ y, absUnits v = 0) ∧
    ((normalizeBuf y rnd).silent = true → ∀ c ∈ (normalizeBuf y rnd).pcm, c = 0#16)

/-- R304, R305: `ROUND` of a finite value is the nearest integer, ties to even, or with `RND = 1` the integer toward
zero; `SAT16` clamps an integer to `[-32768, 32767]` and gives 0 for a NaN. In units of `2^-1074`. -/
def Obligations.PcmRoundingAndSaturation : Prop :=
  (∀ v : F64, isFinite v = true →
    (∃ n : Int, roundPcm v false = .int n ∧ 2 * |units v - n * 2 ^ 1074| ≤ 2 ^ 1074 ∧
      (2 * |units v - n * 2 ^ 1074| = 2 ^ 1074 → n % 2 = 0)) ∧
    ∃ n : Int, roundPcm v true = .int n ∧ 0 ≤ n * units v ∧ |n| * 2 ^ 1074 ≤ |units v| ∧
      |units v| < (|n| + 1) * 2 ^ 1074) ∧
  (∀ n : Int, (n < -32768 → sat16 (.int n) = -32768) ∧ (32767 < n → sat16 (.int n) = 32767) ∧
    (-32768 ≤ n → n ≤ 32767 → sat16 (.int n) = n)) ∧
  sat16 .nan = 0

/-- R306, R308: on finite data below `2^200` that is not silent, every PCM sample has magnitude at most 10000, and the
largest has 10000 exactly with `RND = 0`, and 9999 or 10000 with `RND = 1`. -/
def Obligations.NormalizedAmplitude : Prop :=
  ∀ (y : List F64) (rnd : Bool), (∀ v ∈ y, isFinite v = true ∧ absUnits v < 2 ^ 1274) →
    (normalizeBuf y rnd).silent = false →
    (∀ c ∈ (normalizeBuf y rnd).pcm, c.toInt.natAbs ≤ 10000) ∧
    (rnd = false → ∃ c ∈ (normalizeBuf y rnd).pcm, c.toInt.natAbs = 10000) ∧
    (rnd = true → ∃ c ∈ (normalizeBuf y rnd).pcm, c.toInt.natAbs = 9999 ∨ c.toInt.natAbs = 10000)

/-- R117, R307: the HOST reads back, sample by sample, the PCM buffer that NORMALIZE stored. -/
def Obligations.StoredPcmIsReadBack : Prop :=
  ∀ (r : Normalized) (s : State), pcmSamples (storeResult r s) r.pcm.length = r.pcm.map BitVec.toInt

/-- The source's silent-input property (95_test_vectors.md V4; R194, R220, R245, R267, R302): an all-zero window gives
silence, for every accepted rate, every offset and all finite taps. -/
def Obligations.SilentInputGivesSilence : Prop :=
  ∀ (s h1 h2 : List Word) (R : Nat) (F : Int) (rnd : Bool), 200000 ≤ R → R < 2 ^ 32 →
    (∀ w ∈ s, w = 0#32) → (∀ w ∈ h1, tapNonFinite w = false) → (∀ w ∈ h2, tapNonFinite w = false) →
    (demod s h1 h2 R F rnd).silent = true ∧ (demod s h1 h2 R F rnd).peak = fZero ∧
      ∀ c ∈ (demod s h1 h2 R F rnd).pcm, c = 0#16
end

