-- ==== Sys2Proof/Laws/Float.lean ====
section
/-! SUPPORT. The laws of the binary64 encodings and of rounding: what the sign and magnitude bits of a value are, that
the order of magnitude bits is the order of the numbers, and what `rnUnits` is on a number of units. -/

namespace Sys2Proof.Laws

open Sys2Proof Sys2Proof.Machine

/-! ### Sign and magnitude -/

theorem magOf_lt (a : F64) : magOf a < 2 ^ 63 := Nat.mod_lt _ (by decide)

theorem toNat_eq_sign_mag (a : F64) : a.toNat = (if signOf a then 2 ^ 63 else 0) + magOf a := by
  have h := a.isLt
  simp only [signOf, magOf, BitVec.msb_eq_decide, decide_eq_true_eq]
  split <;> omega

theorem toNat_ofMag {neg : Bool} {m : Nat} (h : m < 2 ^ 63) :
    (ofMag neg m).toNat = (if neg then 2 ^ 63 else 0) + m := by
  cases neg <;> simp only [ofMag, BitVec.toNat_ofNat, if_true, if_false, Bool.false_eq_true] <;> omega

@[simp] theorem magOf_ofMag {neg : Bool} {m : Nat} (h : m < 2 ^ 63) : magOf (ofMag neg m) = m := by
  rw [magOf, toNat_ofMag h]
  cases neg <;> simp only [if_true, if_false, Bool.false_eq_true] <;> omega

@[simp] theorem signOf_ofMag {neg : Bool} {m : Nat} (h : m < 2 ^ 63) : signOf (ofMag neg m) = neg := by
  rw [signOf, BitVec.msb_eq_decide, toNat_ofMag h]
  cases neg <;> simp <;> omega

/-- A value is its sign and its magnitude bits. -/
theorem ofMag_signOf_magOf (a : F64) : ofMag (signOf a) (magOf a) = a := by
  apply BitVec.eq_of_toNat_eq
  rw [toNat_ofMag (magOf_lt a), toNat_eq_sign_mag a]

theorem eq_of_sign_mag {a b : F64} (hs : signOf a = signOf b) (hm : magOf a = magOf b) : a = b := by
  rw [← ofMag_signOf_magOf a, ← ofMag_signOf_magOf b, hs, hm]

@[simp] theorem magOf_fneg (a : F64) : magOf (fneg a) = magOf a := magOf_ofMag (magOf_lt a)
@[simp] theorem signOf_fneg (a : F64) : signOf (fneg a) = !signOf a := signOf_ofMag (magOf_lt a)
@[simp] theorem magOf_fabs (a : F64) : magOf (fabs a) = magOf a := magOf_ofMag (magOf_lt a)
@[simp] theorem signOf_fabs (a : F64) : signOf (fabs a) = false := signOf_ofMag (magOf_lt a)

theorem isFinite_iff (a : F64) : isFinite a = true ↔ magOf a < infMag := decide_eq_true_iff

theorem isNan_of_isFinite {a : F64} (h : isFinite a = true) : isNan a = false := by
  rw [isFinite_iff] at h
  exact decide_eq_false (by omega)

theorem isInf_of_isFinite {a : F64} (h : isFinite a = true) : isInf a = false := by
  rw [isFinite_iff] at h
  exact decide_eq_false (by omega)

/-! ### Magnitude bits and units -/

theorem oneUnits_eq : oneUnits = 2 ^ 1074 := by unfold oneUnits; rfl

theorem oneUnits_pos : 0 < oneUnits := by
  unfold oneUnits
  positivity

/-- The next magnitude is one quantum larger. -/
theorem unitsOfMag_succ (m : Nat) : unitsOfMag (m + 1) = unitsOfMag m + 2 ^ (m / 2 ^ 52 - 1) := by
  by_cases h : m + 1 < 2 ^ 52
  · have h1 : m < 2 ^ 52 := by omega
    have h2 : m / 2 ^ 52 = 0 := Nat.div_eq_of_lt h1
    simp only [unitsOfMag, if_pos h, if_pos h1, h2, Nat.zero_sub, Nat.pow_zero]
  · by_cases h1 : m < 2 ^ 52
    · have h2 : m + 1 = 2 ^ 52 := by omega
      have h3 : m / 2 ^ 52 = 0 := Nat.div_eq_of_lt h1
      rw [h3, unitsOfMag, h2, unitsOfMag, if_pos h1]
      norm_num
      omega
    · simp only [unitsOfMag, if_neg h, if_neg h1]
      by_cases h4 : m % 2 ^ 52 + 1 < 2 ^ 52
      · have h5 : (m + 1) / 2 ^ 52 = m / 2 ^ 52 := by omega
        have h6 : (m + 1) % 2 ^ 52 = m % 2 ^ 52 + 1 := by omega
        rw [h5, h6, ← add_assoc, add_mul, one_mul]
      · have h5 : (m + 1) / 2 ^ 52 = m / 2 ^ 52 + 1 := by omega
        have h6 : (m + 1) % 2 ^ 52 = 0 := by omega
        have h7 : m % 2 ^ 52 = 2 ^ 52 - 1 := by omega
        have h8 : m / 2 ^ 52 + 1 - 1 = m / 2 ^ 52 - 1 + 1 := by omega
        rw [h5, h6, h7, h8, pow_succ 2 (m / 2 ^ 52 - 1)]
        generalize 2 ^ (m / 2 ^ 52 - 1) = p
        omega

theorem unitsOfMag_strictMono : StrictMono unitsOfMag :=
  strictMono_nat_of_lt_succ fun m => by
    rw [unitsOfMag_succ]
    exact Nat.lt_add_of_pos_right (Nat.pow_pos (by decide))

theorem unitsOfMag_lt_iff {m k : Nat} : unitsOfMag m < unitsOfMag k ↔ m < k := unitsOfMag_strictMono.lt_iff_lt

theorem unitsOfMag_le_iff {m k : Nat} : unitsOfMag m ≤ unitsOfMag k ↔ m ≤ k := unitsOfMag_strictMono.le_iff_le

@[simp] theorem unitsOfMag_zero : unitsOfMag 0 = 0 := rfl

@[simp] theorem unitsOfMag_eq_zero {m : Nat} : unitsOfMag m = 0 ↔ m = 0 :=
  ⟨fun h => unitsOfMag_strictMono.injective (h.trans unitsOfMag_zero.symm), fun h => h ▸ unitsOfMag_zero⟩

/-- The magnitude bits of `c` quanta of `2^q` units: an exponent and a significand, or the next power of two. -/
theorem unitsOfMag_of_significand {q c : Nat} (hc : c ≤ 2 ^ 53) (hn : q = 0 ∨ 2 ^ 52 ≤ c) :
    unitsOfMag (q * 2 ^ 52 + c) = c * 2 ^ q := by
  by_cases h : c < 2 ^ 52
  · obtain rfl : q = 0 := by omega
    rw [Nat.zero_mul, Nat.zero_add, unitsOfMag, if_pos h, Nat.pow_zero, Nat.mul_one]
  · have h1 : ¬ q * 2 ^ 52 + c < 2 ^ 52 := by omega
    rw [unitsOfMag, if_neg h1]
    by_cases h2 : c = 2 ^ 53
    · have h3 : (q * 2 ^ 52 + c) % 2 ^ 52 = 0 := by omega
      have h4 : (q * 2 ^ 52 + c) / 2 ^ 52 - 1 = q + 1 := by omega
      rw [h3, h4, h2, pow_succ 2 q]
      generalize 2 ^ q = p
      omega
    · have h3 : 2 ^ 52 + (q * 2 ^ 52 + c) % 2 ^ 52 = c := by omega
      have h4 : (q * 2 ^ 52 + c) / 2 ^ 52 - 1 = q := by omega
      rw [h3, h4]

/-! ### Rounding -/

/-- The nearest integer is at most half away. -/
theorem divNearestEven_spec (n : Nat) {d : Nat} (hd : 0 < d) :
    2 * n ≤ d * (2 * divNearestEven n d + 1) ∧ d * (2 * divNearestEven n d) ≤ 2 * n + d := by
  have h1 := Nat.div_add_mod n d
  have h2 := Nat.mod_lt n hd
  simp only [divNearestEven]
  generalize n / d = q at *
  generalize n % d = r at *
  subst h1
  split <;> constructor <;> ring_nf <;> ring_nf at * <;> omega

/-- A tie goes to the even integer. -/
theorem divNearestEven_tie {n d : Nat} (h : 2 * (n % d) = d) : divNearestEven n d % 2 = 0 := by
  simp only [divNearestEven, h, true_and, lt_irrefl, false_or]
  split <;> omega

theorem divNearestEven_of_dvd {n d : Nat} (hd : 0 < d) (h : d ∣ n) : divNearestEven n d = n / d := by
  have h1 : n % d = 0 := Nat.mod_eq_zero_of_dvd h
  have h2 : ¬ (d < 2 * 0 ∨ (2 * 0 = d ∧ n / d % 2 = 1)) := by omega
  simp only [divNearestEven, h1, if_neg h2]

/-- The whole part of a number has at most 53 bits above its quantum, and 53 unless the quantum is one unit. -/
theorem quantum_spec (n d : Nat) :
    n / d < 2 ^ (53 + quantum n d) ∧ (quantum n d = 0 ∨ 2 ^ (52 + quantum n d) ≤ n / d) := by
  by_cases h : n / d = 0
  · have h1 : quantum n d = 0 := by simp [quantum, h]
    rw [h1, h]
    exact ⟨by decide, .inl rfl⟩
  · have hlt := @Nat.lt_log2_self (n / d)
    have hle := Nat.log2_self_le h
    refine ⟨lt_of_lt_of_le hlt (Nat.pow_le_pow_right (by decide) (by unfold quantum; omega)), ?_⟩
    by_cases h2 : quantum n d = 0
    · exact .inl h2
    · exact .inr (le_trans (Nat.pow_le_pow_right (by decide) (by unfold quantum at *; omega)) hle)

/-- The significand that rounding keeps: at most `2^53`, and at least `2^52` unless the quantum is one unit. -/
theorem significand_bounds (n : Nat) {d : Nat} (hd : 0 < d) :
    divNearestEven n (d * 2 ^ quantum n d) ≤ 2 ^ 53 ∧
      (quantum n d = 0 ∨ 2 ^ 52 ≤ divNearestEven n (d * 2 ^ quantum n d)) := by
  obtain ⟨h1, h2⟩ := quantum_spec n d
  generalize quantum n d = q at *
  have hD : 0 < d * 2 ^ q := Nat.mul_pos hd (Nat.pow_pos (by decide))
  obtain ⟨s1, s2⟩ := divNearestEven_spec n hD
  have hn : n < d * 2 ^ q * 2 ^ 53 := by
    have := (Nat.div_lt_iff_lt_mul hd).1 h1
    rw [pow_add] at this
    nlinarith [this]
  generalize divNearestEven n (d * 2 ^ q) = c at *
  constructor
  · by_contra hc
    have h3 : d * 2 ^ q * (2 * (2 ^ 53 + 1)) ≤ d * 2 ^ q * (2 * c) := Nat.mul_le_mul_left _ (by omega)
    generalize d * 2 ^ q = D at *
    omega
  · rcases h2 with h2 | h2
    · exact .inl h2
    · right
      have hn2 : d * 2 ^ q * 2 ^ 52 ≤ n := by
        have := (Nat.le_div_iff_mul_le hd).1 h2
        rw [pow_add] at this
        nlinarith [this]
      by_contra hc
      have h3 : d * 2 ^ q * (2 * c + 1) ≤ d * 2 ^ q * (2 * 2 ^ 52 - 1) := Nat.mul_le_mul_left _ (by omega)
      generalize d * 2 ^ q = D at *
      omega

theorem rnUnits_le (n d : Nat) : rnUnits n d ≤ infMag := Nat.min_le_right _ _

theorem rnUnits_lt (n d : Nat) : rnUnits n d < 2 ^ 63 := lt_of_le_of_lt (rnUnits_le n d) (by decide)

/-- Below infinity, the number that `rnUnits` encodes: the nearest whole number of quanta. -/
theorem unitsOfMag_rnUnits (n : Nat) {d : Nat} (hd : 0 < d) (h : rnUnits n d < infMag) :
    unitsOfMag (rnUnits n d) = divNearestEven n (d * 2 ^ quantum n d) * 2 ^ quantum n d := by
  have h1 : rnUnits n d = quantum n d * 2 ^ 52 + divNearestEven n (d * 2 ^ quantum n d) := by
    unfold rnUnits at *
    omega
  rw [h1]
  exact unitsOfMag_of_significand (significand_bounds n hd).1 (significand_bounds n hd).2

/-- A representable number is left as it is. -/
theorem rnUnits_exact {m d : Nat} (hd : 0 < d) (h : m < infMag) : rnUnits (unitsOfMag m * d) d = m := by
  obtain ⟨b1, b2⟩ := quantum_spec (unitsOfMag m * d) d
  have hq : 2 ^ quantum (unitsOfMag m * d) d ∣ unitsOfMag m := by
    rw [Nat.mul_div_cancel _ hd] at b1 b2
    rcases b2 with b2 | b2
    · rw [b2]; exact one_dvd _
    · by_cases hm : m < 2 ^ 52
      · exfalso
        have e : unitsOfMag m = m := if_pos hm
        rw [e] at b2
        have := Nat.pow_le_pow_right (n := 2) (by decide) (Nat.le_add_right 52 (quantum (unitsOfMag m * d) d))
        rw [e] at this
        omega
      · have e : unitsOfMag m = (2 ^ 52 + m % 2 ^ 52) * 2 ^ (m / 2 ^ 52 - 1) := if_neg hm
        have hlt : unitsOfMag m < 2 ^ (53 + (m / 2 ^ 52 - 1)) := by
          rw [e, pow_add]
          exact Nat.mul_lt_mul_of_pos_right (by omega) (Nat.pow_pos (by decide))
        have := (Nat.pow_lt_pow_iff_right (a := 2) (by decide)).1 (lt_of_le_of_lt b2 hlt)
        generalize quantum (unitsOfMag m * d) d = q at *
        rw [e]
        exact Dvd.dvd.mul_left (pow_dvd_pow 2 (by omega)) _
  apply unitsOfMag_strictMono.injective
  have hval : unitsOfMag (quantum (unitsOfMag m * d) d * 2 ^ 52 +
      divNearestEven (unitsOfMag m * d) (d * 2 ^ quantum (unitsOfMag m * d) d)) = unitsOfMag m := by
    rw [unitsOfMag_of_significand (significand_bounds _ hd).1 (significand_bounds _ hd).2]
    generalize quantum (unitsOfMag m * d) d = q at *
    obtain ⟨k, hk⟩ := hq
    have hD : 0 < d * 2 ^ q := Nat.mul_pos hd (Nat.pow_pos (by decide))
    have e : unitsOfMag m * d = d * 2 ^ q * k := by rw [hk]; ring
    rw [e, divNearestEven_of_dvd hD (Nat.dvd_mul_right _ _), Nat.mul_div_cancel_left _ hD, hk, mul_comm]
  have hm := unitsOfMag_strictMono.injective hval
  rw [rnUnits, hm, Nat.min_eq_left h.le]

/-! ### Values in units -/

theorem absUnits_ofMag {neg : Bool} {m : Nat} (h : m < 2 ^ 63) : absUnits (ofMag neg m) = unitsOfMag m := by
  rw [absUnits, magOf_ofMag h]

theorem units_natAbs (a : F64) : (units a).natAbs = absUnits a := by
  unfold units
  split <;> simp

theorem units_eq_zero (a : F64) : units a = 0 ↔ magOf a = 0 := by
  rw [← Int.natAbs_eq_zero, units_natAbs, absUnits, unitsOfMag_eq_zero]

theorem isZero_iff (a : F64) : isZero a = true ↔ magOf a = 0 := decide_eq_true_iff

/-- A finite binary64 value, rounded, is itself. -/
theorem rn_absUnits {a : F64} (h : isFinite a = true) : rn (signOf a) (absUnits a) 1 = a := by
  have := rnUnits_exact (d := 1) (by decide) ((isFinite_iff a).1 h)
  rw [Nat.mul_one] at this
  rw [rn, absUnits, this, ofMag_signOf_magOf]

theorem units_ofMag {neg : Bool} {m : Nat} (h : m < 2 ^ 63) :
    units (ofMag neg m) = if neg then -(unitsOfMag m : Int) else (unitsOfMag m : Int) := by
  rw [units, signOf_ofMag h, absUnits_ofMag h]

theorem units_rn (neg : Bool) (n d : Nat) :
    units (rn neg n d) = if neg then -(unitsOfMag (rnUnits n d) : Int) else (unitsOfMag (rnUnits n d) : Int) :=
  units_ofMag (rnUnits_lt n d)

@[simp] theorem units_fneg (a : F64) : units (fneg a) = -units a := by
  unfold units absUnits
  rw [magOf_fneg, signOf_fneg]
  cases signOf a <;> simp

theorem isFinite_fneg {a : F64} (h : isFinite a = true) : isFinite (fneg a) = true := by
  rw [isFinite_iff, magOf_fneg]
  exact (isFinite_iff a).1 h

theorem isFinite_rn {neg : Bool} {n d : Nat} : isFinite (rn neg n d) = true ↔ rnUnits n d < infMag := by
  rw [isFinite_iff, rn, magOf_ofMag (rnUnits_lt n d)]

theorem units_pos_iff (a : F64) : 0 < units a ↔ signOf a = false ∧ magOf a ≠ 0 := by
  have := @unitsOfMag_eq_zero (magOf a)
  unfold units absUnits
  generalize unitsOfMag (magOf a) = x at *
  cases signOf a <;> simp <;> omega

theorem units_neg_iff (a : F64) : units a < 0 ↔ signOf a = true ∧ magOf a ≠ 0 := by
  have := @unitsOfMag_eq_zero (magOf a)
  unfold units absUnits
  generalize unitsOfMag (magOf a) = x at *
  cases signOf a <;> simp <;> omega

/-- The order of the encodings is the order of the numbers (R14). -/
theorem orderKey_le_iff (a b : F64) : orderKey a ≤ orderKey b ↔ units a ≤ units b := by
  unfold orderKey units absUnits
  have h1 := @unitsOfMag_le_iff (magOf a) (magOf b)
  have h2 := @unitsOfMag_le_iff (magOf b) (magOf a)
  have z1 := @unitsOfMag_eq_zero (magOf a)
  have z2 := @unitsOfMag_eq_zero (magOf b)
  generalize unitsOfMag (magOf a) = x at *
  generalize unitsOfMag (magOf b) = y at *
  generalize magOf a = m at *
  generalize magOf b = n at *
  cases signOf a <;> cases signOf b <;> simp <;> omega

theorem orderKey_lt_iff (a b : F64) : orderKey a < orderKey b ↔ units a < units b := by
  have := orderKey_le_iff b a
  omega

theorem fle_iff (a b : F64) : fle a b = true ↔ isNan a = false ∧ isNan b = false ∧ units a ≤ units b := by
  unfold fle
  rw [← orderKey_le_iff]
  simp [and_assoc]

theorem flt_iff (a b : F64) : flt a b = true ↔ isNan a = false ∧ isNan b = false ∧ units a < units b := by
  unfold flt
  rw [← orderKey_lt_iff]
  simp [and_assoc]

/-! ### The operations on finite values -/

/-- `fadd` on finite values: one rounding of the exact sum, and the sign of a zero sum (R13). -/
theorem fadd_of_finite {a b : F64} (ha : isFinite a = true) (hb : isFinite b = true) :
    fadd a b =
      if units a + units b = 0 then ofMag (signOf a && signOf b) 0
      else rn (decide (units a + units b < 0)) (units a + units b).natAbs 1 := by
  unfold fadd
  rw [isNan_of_isFinite ha, isNan_of_isFinite hb, isInf_of_isFinite ha, isInf_of_isFinite hb]
  rfl

/-- `fmul` on finite values: one rounding of the exact product (R13). -/
theorem fmul_of_finite {a b : F64} (ha : isFinite a = true) (hb : isFinite b = true) :
    fmul a b = rn (signOf a != signOf b) (absUnits a * absUnits b) oneUnits := by
  unfold fmul
  rw [isNan_of_isFinite ha, isNan_of_isFinite hb, isInf_of_isFinite ha, isInf_of_isFinite hb]
  rfl

/-- `fdiv` on finite values: one rounding of the exact quotient (R13). -/
theorem fdiv_of_finite {a b : F64} (ha : isFinite a = true) (hb : isFinite b = true) (h : magOf b ≠ 0) :
    fdiv a b = rn (signOf a != signOf b) (absUnits a * oneUnits) (absUnits b) := by
  unfold fdiv
  rw [isNan_of_isFinite ha, isNan_of_isFinite hb, isInf_of_isFinite ha, isInf_of_isFinite hb]
  dsimp only
  rw [if_neg h]
  rfl

end Sys2Proof.Laws
end

