-- ==== Sys2Proof/Laws/Exact.lean ====
section
/-! SUPPORT. The exact cases of binary64 arithmetic: what stays finite, products and sums with a zero or with one, and
the conversions from integers and from binary32. -/

namespace Sys2Proof.Laws

open Sys2Proof Sys2Proof.Machine

/-! ### Range -/

/-- The largest finite value in units. -/
theorem unitsOfMag_max : unitsOfMag (infMag - 1) = (2 ^ 53 - 1) * 2 ^ 2045 := by
  have h1 : (infMag - 1) % 2^52 = 2^52 - 1 := by decide
  have h2 : (infMag - 1) / 2^52 = 2046 := by decide
  rw [unitsOfMag, if_neg (by decide), h1, h2]; norm_num

/-- A number not above the largest finite value rounds to a finite one. -/
theorem rnUnits_finite (n d : Nat) (hd : 0 < d) (h : n ≤ d * unitsOfMag (infMag - 1)) : rnUnits n d < infMag := by
  rw [unitsOfMag_max] at h
  obtain ⟨q1, q2⟩ := quantum_spec n d
  have b := (significand_bounds n hd).1
  unfold rnUnits
  have hle : n / d ≤ (2 ^ 53 - 1) * 2 ^ 2045 := by
    rw [mul_comm] at h
    exact Nat.div_le_of_le_mul (by linarith)
  have hq : quantum n d ≤ 2045 := by
    rcases q2 with q2 | q2
    · omega
    · have : 2 ^ (52 + quantum n d) < 2 ^ (53 + 2045) := by
        refine lt_of_le_of_lt (q2.trans hle) ?_
        rw [pow_add 2 53 2045]
        exact Nat.mul_lt_mul_of_pos_right (by decide) (Nat.pow_pos (by decide))
      have := (Nat.pow_lt_pow_iff_right (a := 2) (by decide)).1 this
      omega
  have hi : infMag = 2047 * 2^52 := by decide
  rcases Nat.lt_or_ge (quantum n d) 2045 with hq' | hq'
  · refine lt_of_le_of_lt (Nat.min_le_left _ _) ?_
    omega
  · have e : quantum n d = 2045 := by omega
    rw [e] at *
    have hD : 0 < d * 2 ^ 2045 := Nat.mul_pos hd (Nat.pow_pos (by decide))
    obtain ⟨s1, s2⟩ := divNearestEven_spec n hD
    have : divNearestEven n (d * 2 ^ 2045) ≤ 2 ^ 53 - 1 := by
      by_contra hc
      have hc : 2^53 ≤ divNearestEven n (d * 2 ^ 2045) := by omega
      have h3 : d * 2 ^ 2045 * (2 * 2 ^ 53) ≤ d * 2 ^ 2045 * (2 * divNearestEven n (d * 2 ^ 2045)) :=
        Nat.mul_le_mul_left _ (by omega)
      have h4 : n ≤ d * 2 ^ 2045 * (2 ^ 53 - 1) := by
        calc n ≤ _ := h
          _ = _ := by ring
      generalize d * 2 ^ 2045 = D at *
      omega
    refine lt_of_le_of_lt (Nat.min_le_left _ _) ?_
    omega

/-! ### Zeros and one -/

theorem eq_fNegZero_iff {a : F64} : a = fNegZero ↔ signOf a = true ∧ magOf a = 0 := by
  constructor
  · rintro rfl; decide
  · intro h
    exact eq_of_sign_mag (h.1.trans (by decide)) (h.2.trans (by decide))

theorem absUnits_fOne : absUnits fOne = oneUnits := by decide +kernel

theorem infMag_lt : infMag < 2 ^ 63 := by decide

theorem fmul_one {a : F64} (ha : isFinite a = true) : fmul a fOne = a := by
  rw [fmul_of_finite ha (by decide), absUnits_fOne]
  unfold rn absUnits
  rw [rnUnits_exact oneUnits_pos ((isFinite_iff a).1 ha)]
  have : (signOf a != signOf fOne) = signOf a := by
    have : signOf fOne = false := by decide
    rw [this]; cases signOf a <;> rfl
  rw [this, ofMag_signOf_magOf]

theorem rnUnits_zero {d : Nat} (hd : 0 < d) : rnUnits 0 d = 0 := by
  have := rnUnits_exact (m := 0) hd (by decide)
  simpa using this

theorem fmul_zero_right {a b : F64} (ha : isFinite a = true) (hb : magOf b = 0) :
    fmul a b = ofMag (signOf a != signOf b) 0 := by
  have fb : isFinite b = true := by rw [isFinite_iff, hb]; decide
  rw [fmul_of_finite ha fb]
  have : absUnits b = 0 := by unfold absUnits; rw [hb]; rfl
  rw [this, Nat.mul_zero, rn, rnUnits_zero oneUnits_pos]

theorem fmul_zero_left {a b : F64} (ha : isFinite a = true) (hb : magOf b = 0) :
    fmul b a = ofMag (signOf b != signOf a) 0 := by
  have fb : isFinite b = true := by rw [isFinite_iff, hb]; decide
  rw [fmul_of_finite fb ha]
  have : absUnits b = 0 := by unfold absUnits; rw [hb]; rfl
  rw [this, Nat.zero_mul, rn, rnUnits_zero oneUnits_pos]

theorem magOf_ofMag_zero (n : Bool) : magOf (ofMag n 0) = 0 := magOf_ofMag (by decide)

theorem isFinite_of_magOf_zero {a : F64} (h : magOf a = 0) : isFinite a = true := by rw [isFinite_iff, h]; decide

theorem units_of_magOf_zero {a : F64} (h : magOf a = 0) : units a = 0 := (units_eq_zero a).2 h

theorem signOf_eq_units_neg {a : F64} (h : units a ≠ 0) : signOf a = decide (units a < 0) := by
  have hp := @units_pos_iff a
  have hn := @units_neg_iff a
  cases hs : signOf a
  · symm; apply decide_eq_false; rw [hn, hs]; simp
  · symm; apply decide_eq_true; rw [hn]; exact ⟨hs, fun h0 => h (units_of_magOf_zero h0)⟩

theorem fadd_zero_right {a b : F64} (ha : isFinite a = true) (hn : a ≠ fNegZero) (hb : magOf b = 0) :
    fadd a b = a := by
  rw [fadd_of_finite ha (isFinite_of_magOf_zero hb), units_of_magOf_zero hb, add_zero]
  split
  · next h =>
    have hm := (units_eq_zero a).1 h
    have hs : signOf a = false := by
      cases hs : signOf a
      · rfl
      · exact absurd (eq_fNegZero_iff.2 ⟨hs, hm⟩) hn
    exact eq_of_sign_mag (by rw [signOf_ofMag (by decide), hs]; rfl) (by rw [magOf_ofMag_zero, hm])
  · next h =>
    rw [units_natAbs, ← signOf_eq_units_neg h]; exact rn_absUnits ha

theorem fadd_zero_left {a b : F64} (ha : isFinite a = true) (hn : a ≠ fNegZero) (hb : magOf b = 0) :
    fadd b a = a := by
  rw [fadd_of_finite (isFinite_of_magOf_zero hb) ha, units_of_magOf_zero hb, zero_add]
  split
  · next h =>
    have hm := (units_eq_zero a).1 h
    have hs : signOf a = false := by
      cases hs : signOf a
      · rfl
      · exact absurd (eq_fNegZero_iff.2 ⟨hs, hm⟩) hn
    exact eq_of_sign_mag (by rw [signOf_ofMag (by decide), hs, Bool.and_false]) (by rw [magOf_ofMag_zero, hm])
  · next h =>
    rw [units_natAbs, ← signOf_eq_units_neg h]; exact rn_absUnits ha

/-! ### Conversions -/

/-- An integer of at most 53 bits is a binary64 value. -/
theorem exists_mag_of_nat (n : Nat) (h : n ≤ 2^53) : ∃ m, m < infMag ∧ unitsOfMag m = n * oneUnits := by
  by_cases h0 : n = 0
  · exact ⟨0, by decide, by rw [h0]; simp⟩
  obtain ⟨e, he, c1, c2⟩ : ∃ e, e ≤ 53 ∧ 2^52 ≤ n * 2^e ∧ n * 2^e ≤ 2^53 := by
    by_cases hb : 2^52 ≤ n
    · exact ⟨0, by omega, by omega, by omega⟩
    have hl : Nat.log2 n ≤ 52 := by
      by_contra hc
      have h3 : 2^53 ≤ 2^Nat.log2 n := Nat.pow_le_pow_right (by decide) (by omega)
      have := Nat.log2_self_le h0
      omega
    refine ⟨52 - Nat.log2 n, by omega, ?_, ?_⟩
    · have := Nat.log2_self_le h0
      calc 2^52 = 2^(Nat.log2 n) * 2^(52 - Nat.log2 n) := by rw [← pow_add]; congr 1; omega
        _ ≤ _ := Nat.mul_le_mul_right _ this
    · have := (@Nat.lt_log2_self n).le
      calc n * 2^(52 - Nat.log2 n) ≤ 2^(Nat.log2 n + 1) * 2^(52 - Nat.log2 n) := Nat.mul_le_mul_right _ this
        _ = 2^53 := by rw [← pow_add]; congr 1; omega
  refine ⟨(1074 - e) * 2^52 + n * 2^e, ?_, ?_⟩
  · have : infMag = 2047 * 2^52 := by decide
    omega
  · rw [unitsOfMag_of_significand c2 (.inr c1), mul_assoc, ← pow_add]
    unfold oneUnits
    congr 2; omega

/-- `f64` is exact on integers of at most 53 bits (R12). -/
theorem f64_spec (n : Int) (h : n.natAbs ≤ 2^53) :
    isFinite (f64 n) = true ∧ units (f64 n) = n * 2^1074 ∧ f64 n ≠ fNegZero ∧ signOf (f64 n) = decide (n < 0) := by
  obtain ⟨m, hm, hu⟩ := exists_mag_of_nat _ h
  have e : rnUnits (n.natAbs * oneUnits) 1 = m := by
    have := rnUnits_exact (d := 1) (by decide) hm
    rwa [hu, mul_one] at this
  have hm63 : m < 2^63 := lt_trans hm infMag_lt
  have hf : f64 n = ofMag (decide (n < 0)) m := by unfold f64 rn; rw [e]
  have hs : signOf (f64 n) = decide (n < 0) := by rw [hf, signOf_ofMag hm63]
  refine ⟨by rw [hf, isFinite_iff, magOf_ofMag hm63]; exact hm, ?_, ?_, hs⟩
  · rw [hf, units_ofMag hm63, hu]
    have e2 : ((n.natAbs * oneUnits : ℕ) : ℤ) = |n| * 2^1074 := by unfold oneUnits; push_cast; rfl
    rw [e2]
    by_cases hn : n < 0
    · rw [decide_eq_true hn, if_pos rfl, abs_of_neg hn, neg_mul, neg_neg]
    · rw [decide_eq_false hn, if_neg (by decide), abs_of_nonneg (by omega)]
  · intro h
    rw [eq_fNegZero_iff, hs] at h
    have hn : n < 0 := of_decide_eq_true h.1
    rw [hf, magOf_ofMag hm63] at h
    rw [h.2] at hu
    have : 0 < n.natAbs * oneUnits := Nat.mul_pos (by omega) oneUnits_pos
    rw [← hu] at this; simp at this

theorem f32_le_max : 2^24 * 2^254 * oneUnits ≤ 2^149 * unitsOfMag (infMag - 1) := by decide +kernel

/-- A finite coefficient word is a finite binary64 value (R116). -/
theorem isFinite_f32to64 (w : Word) (h : tapNonFinite w = false) : isFinite (f32to64 w) = true := by
  unfold f32to64
  have he : (w.extractLsb' 23 8).toNat ≠ 255 := by
    intro he
    have : w.extractLsb' 23 8 = 0xFF#8 := BitVec.eq_of_toNat_eq he
    simp [tapNonFinite, this] at h
  have hlt := (w.extractLsb' 23 8).isLt
  have hf := (w.extractLsb' 0 23).isLt
  dsimp only
  rw [if_neg he, isFinite_iff, rn, magOf_ofMag (rnUnits_lt _ _)]
  apply rnUnits_finite _ _ (Nat.pow_pos (by decide))
  generalize (w.extractLsb' 23 8).toNat = e at *
  generalize (w.extractLsb' 0 23).toNat = f at *
  have hm : (if e = 0 then f else (2 ^ 23 + f) * 2 ^ (e - 1)) ≤ 2^24 * 2^254 := by
    split
    · have : 2^24 ≤ 2^24 * 2^254 := Nat.le_mul_of_pos_right _ (Nat.pow_pos (by decide))
      omega
    · exact Nat.mul_le_mul (by omega) (Nat.pow_le_pow_right (by decide) (by omega))
  have hU : 2^24 * 2^254 * oneUnits ≤ 2^149 * unitsOfMag (infMag - 1) := f32_le_max
  refine Nat.le_trans (Nat.mul_le_mul_right oneUnits hm) ?_
  convert hU using 1

end Sys2Proof.Laws
end

