-- ==== Sys2Proof/Laws/Memory.lean ====
section
/-! SUPPORT. The laws of memory: a read after a write, what a write leaves alone, and the canonical form that every
memory operation keeps. -/

namespace Sys2Proof.Laws

open Sys2Proof Sys2Proof.Machine

@[simp] theorem memGet_nil (a : Nat) : memGet [] a = none := rfl

theorem memGet_append (m n : List Host.Cell) (a : Nat) :
    memGet (m ++ n) a = (memGet m a).or (memGet n a) := by
  induction m with
  | nil => simp
  | cons c rest ih =>
    simp only [List.cons_append, memGet]
    split <;> simp [ih]

theorem memGet_filter (m : List Host.Cell) (p : Nat → Bool) (a : Nat) :
    memGet (m.filter (fun c => p c.1)) a = if p a then memGet m a else none := by
  induction m with
  | nil => simp
  | cons c rest ih =>
    by_cases hp : p c.1
    · rw [List.filter_cons_of_pos (by simpa using hp)]
      simp only [memGet]
      split
      · next h => subst h; simp [hp]
      · exact ih
    · rw [List.filter_cons_of_neg (by simpa using hp), ih]
      simp only [memGet]
      by_cases hc : c.1 = a
      · subst hc; simp [hp]
      · simp [hc]

theorem memGet_cellsFrom (bs : List Byte) (base a : Nat) :
    memGet (cellsFrom base bs) a = if base ≤ a then bs[a - base]? else none := by
  induction bs generalizing base with
  | nil => simp [cellsFrom]
  | cons b bs ih =>
    simp only [cellsFrom, memGet, ih]
    by_cases h : base = a
    · subst h; simp
    · by_cases h2 : base ≤ a
      · have h3 : base + 1 ≤ a := by omega
        have h4 : a - base = (a - (base + 1)) + 1 := by omega
        simp [h, h2, h3, h4]
      · have h3 : ¬ base + 1 ≤ a := by omega
        simp [h, h2, h3]

/-- What a byte holds after a write: the byte written there, or what it held before. -/
theorem memGet_writeBytes (m : List Host.Cell) (base a : Nat) (bs : List Byte) :
    memGet (writeBytes m base bs) a =
      if base ≤ a ∧ a < base + bs.length then bs[a - base]? else memGet m a := by
  have hlt := memGet_filter m (fun x => decide (x < base)) a
  have hge := memGet_filter m (fun x => decide (base + bs.length ≤ x)) a
  simp only [writeBytes, memGet_append, hlt, hge, memGet_cellsFrom]
  by_cases h1 : base ≤ a
  · by_cases h2 : a < base + bs.length
    · have h3 : bs[a - base]? = some bs[a - base] := List.getElem?_eq_getElem (by omega)
      have h4 : ¬ a < base := by omega
      simp [h1, h2, h3, h4]
    · have h3 : bs[a - base]? = none := List.getElem?_eq_none (by omega)
      have h4 : ¬ a < base := by omega
      have h5 : base + bs.length ≤ a := by omega
      simp [h1, h2, h3, h4, h5]
  · have h4 : a < base := by omega
    have h5 : ¬ base + bs.length ≤ a := by omega
    simp [h1, h4, h5]

/-- A write leaves every byte outside its range alone. -/
theorem readByte_writeBytes_outside (m : List Host.Cell) (base a : Nat) (bs : List Byte)
    (h : ¬(base ≤ a ∧ a < base + bs.length)) : readByte (writeBytes m base bs) a = readByte m a := by
  simp only [readByte, memGet_writeBytes, if_neg h]

/-- A read after a write gives the byte written. -/
theorem readByte_writeBytes_inside (m : List Host.Cell) (base i : Nat) (bs : List Byte) (h : i < bs.length) :
    readByte (writeBytes m base bs) (base + i) = bs[i] := by
  have h1 : base ≤ base + i ∧ base + i < base + bs.length := by omega
  have h2 : bs[base + i - base]? = some bs[i] := by
    rw [Nat.add_sub_cancel_left]; exact List.getElem?_eq_getElem h
  simp only [readByte, memGet_writeBytes, if_pos h1, h2]

@[simp] theorem bytesOfWord_length (v : Word) : (bytesOfWord v).length = 4 := rfl

/-- The bytes of a word, put back together in their order, are the word (R84). -/
theorem wordOfBytes_byteLane (v : Word) :
    wordOfBytes (byteLane v 0) (byteLane v 1) (byteLane v 2) (byteLane v 3) = v := by
  apply BitVec.eq_of_getLsbD_eq
  intro i hi
  simp only [wordOfBytes, byteLane, BitVec.getLsbD_append, BitVec.getLsbD_extractLsb']
  have h : i < 8 ∨ (8 ≤ i ∧ i < 16) ∨ (16 ≤ i ∧ i < 24) ∨ 24 ≤ i := by omega
  rcases h with h | ⟨h1, h2⟩ | ⟨h1, h2⟩ | h
  · simp [h]
  · have a1 : ¬ i < 8 := by omega
    have a2 : i - 8 < 8 := by omega
    have a3 : 8 + (i - 8) = i := by omega
    simp [a1, a2, a3]
  · have a1 : ¬ i < 8 := by omega
    have a2 : ¬ i - 8 < 8 := by omega
    have a4 : i - 8 - 8 < 8 := by omega
    have a3 : 16 + (i - 8 - 8) = i := by omega
    simp [a1, a2, a3, a4]
  · have a1 : ¬ i < 8 := by omega
    have a2 : ¬ i - 8 < 8 := by omega
    have a4 : ¬ i - 8 - 8 < 8 := by omega
    have a5 : i - 8 - 8 - 8 < 8 := by omega
    have a3 : 24 + (i - 8 - 8 - 8) = i := by omega
    simp [a1, a2, a3, a4, a5]

/-- A word read after it is written is the word written. -/
theorem readWord_writeWord_same (m : List Host.Cell) (a : Nat) (v : Word) :
    readWord (writeWord m a v) a = v := by
  have h (i : Nat) (hi : i < 4) := readByte_writeBytes_inside m a i (bytesOfWord v) (by simpa using hi)
  have h0 := h 0 (by omega)
  have h1 := h 1 (by omega)
  have h2 := h 2 (by omega)
  have h3 := h 3 (by omega)
  rw [Nat.add_zero] at h0
  rw [readWord, writeWord, h0, h1, h2, h3]
  exact wordOfBytes_byteLane v

/-- A write leaves every word that does not overlap its range alone. -/
theorem readWord_writeBytes_disjoint (m : List Host.Cell) (a base : Nat) (bs : List Byte)
    (h : a + 4 ≤ base ∨ base + bs.length ≤ a) : readWord (writeBytes m base bs) a = readWord m a := by
  have k (i : Nat) (hi : i < 4) := readByte_writeBytes_outside m base (a + i) bs (by omega)
  have h0 := k 0 (by omega)
  rw [Nat.add_zero] at h0
  simp only [readWord, h0, k 1 (by omega), k 2 (by omega), k 3 (by omega)]

/-- A word write leaves every other aligned word alone. -/
theorem readWord_writeWord_other (m : List Host.Cell) (a b : Nat) (v : Word) (h : a + 4 ≤ b ∨ b + 4 ≤ a) :
    readWord (writeWord m b v) a = readWord m a :=
  readWord_writeBytes_disjoint m a b (bytesOfWord v) (by simpa using h)

@[simp] theorem readWords_length (m : List Host.Cell) (base n : Nat) : (readWords m base n).length = n := by
  simp [readWords]

/-- A write leaves a run of words it does not overlap alone. -/
theorem readWords_writeBytes_disjoint (m : List Host.Cell) (base n b : Nat) (bs : List Byte)
    (h : base + 4 * n ≤ b ∨ b + bs.length ≤ base) : readWords (writeBytes m b bs) base n = readWords m base n := by
  apply List.map_congr_left
  intro i hi
  have := List.mem_range.mp hi
  exact readWord_writeBytes_disjoint m (base + 4 * i) b bs (by omega)

/-- The canonical form as a property of the list: addresses rise strictly. -/
theorem memWf_iff_pairwise (m : List Host.Cell) : memWf m = true ↔ m.Pairwise (fun c d => c.1 < d.1) := by
  induction m with
  | nil => simp [memWf]
  | cons c rest ih =>
    cases rest with
    | nil => simp [memWf]
    | cons d rest =>
      rw [memWf, Bool.and_eq_true, ih, List.pairwise_cons (a := c), decide_eq_true_eq]
      refine ⟨fun ⟨h, hp⟩ => ⟨fun x hx => ?_, hp⟩, fun ⟨h, hp⟩ => ⟨h d (by simp), hp⟩⟩
      rcases List.mem_cons.mp hx with rfl | hx
      · exact h
      · exact lt_trans h ((List.pairwise_cons.mp hp).1 x hx)

theorem mem_cellsFrom {bs : List Byte} {base : Nat} {c : Host.Cell} (h : c ∈ cellsFrom base bs) :
    base ≤ c.1 ∧ c.1 < base + bs.length := by
  induction bs generalizing base with
  | nil => simp [cellsFrom] at h
  | cons b bs ih =>
    rcases List.mem_cons.mp h with rfl | h
    · simp
    · have := ih h
      simp only [List.length_cons]
      omega

theorem cellsFrom_pairwise (base : Nat) (bs : List Byte) : (cellsFrom base bs).Pairwise (fun c d => c.1 < d.1) := by
  induction bs generalizing base with
  | nil => simp [cellsFrom]
  | cons b bs ih =>
    refine List.pairwise_cons.mpr ⟨fun c hc => ?_, ih (base + 1)⟩
    have := mem_cellsFrom hc
    simp only
    omega

/-- Every memory operation is a `writeBytes`, and it keeps the canonical form. -/
theorem writeBytes_memWf {m : List Host.Cell} (h : memWf m = true) (base : Nat) (bs : List Byte) :
    memWf (writeBytes m base bs) = true := by
  rw [memWf_iff_pairwise] at h ⊢
  have hlow (c : Host.Cell) (hc : c ∈ m.filter (fun c => decide (c.1 < base))) : c.1 < base := by
    simpa using (List.mem_filter.mp hc).2
  have hhigh (c : Host.Cell) (hc : c ∈ m.filter (fun c => decide (base + bs.length ≤ c.1))) :
      base + bs.length ≤ c.1 := by
    simpa using (List.mem_filter.mp hc).2
  refine List.pairwise_append.mpr ⟨List.pairwise_append.mpr
    ⟨h.sublist (List.filter_sublist), cellsFrom_pairwise base bs, fun c hc d hd => ?_⟩,
    h.sublist (List.filter_sublist), fun c hc d hd => ?_⟩
  · have := hlow c hc
    have := mem_cellsFrom hd
    omega
  · have := hhigh d hd
    rcases List.mem_append.mp hc with hc | hc
    · have := hlow c hc
      omega
    · have := mem_cellsFrom hc
      omega

theorem writeWord_memWf {m : List Host.Cell} (h : memWf m = true) (a : Nat) (v : Word) :
    memWf (writeWord m a v) = true :=
  writeBytes_memWf h a (bytesOfWord v)

/-- A write adds cells of its own range only. -/
theorem mem_writeBytes {m : List Host.Cell} {base : Nat} {bs : List Byte} {c : Host.Cell}
    (h : c ∈ writeBytes m base bs) : c ∈ m ∨ (base ≤ c.1 ∧ c.1 < base + bs.length) := by
  rcases List.mem_append.mp h with h | h
  · rcases List.mem_append.mp h with h | h
    · exact .inl (List.mem_filter.mp h).1
    · exact .inr (mem_cellsFrom h)
  · exact .inl (List.mem_filter.mp h).1

end Sys2Proof.Laws
end

