-- ==== Sys2Proof/Laws/State.lean ====
section
/-! SUPPORT. The named updates of the state, field by field: what each writes, and every field it leaves alone. All hold
by definition; as simp lemmas they spare every later proof the unfolding of a record update. -/

namespace Sys2Proof.Laws

open Sys2Proof Sys2Proof.Machine

/-! ### `ackIrq`: the write-1-to-clear of R37 -/

@[simp] theorem ackIrq_status (v : Word) (s : State) : (ackIrq v s).status = s.status := rfl
@[simp] theorem ackIrq_irqEn (v : Word) (s : State) : (ackIrq v s).irqEn = s.irqEn := rfl
@[simp] theorem ackIrq_irqStat (v : Word) (s : State) : (ackIrq v s).irqStat = s.irqStat &&& ~~~(v.setWidth 2) := rfl
@[simp] theorem ackIrq_cfg (v : Word) (s : State) : (ackIrq v s).cfg = s.cfg := rfl
@[simp] theorem ackIrq_rate (v : Word) (s : State) : (ackIrq v s).rate = s.rate := rfl
@[simp] theorem ackIrq_offset (v : Word) (s : State) : (ackIrq v s).offset = s.offset := rfl
@[simp] theorem ackIrq_nsamp (v : Word) (s : State) : (ackIrq v s).nsamp = s.nsamp := rfl
@[simp] theorem ackIrq_ntaps1 (v : Word) (s : State) : (ackIrq v s).ntaps1 = s.ntaps1 := rfl
@[simp] theorem ackIrq_ntaps2 (v : Word) (s : State) : (ackIrq v s).ntaps2 = s.ntaps2 := rfl
@[simp] theorem ackIrq_d1 (v : Word) (s : State) : (ackIrq v s).d1 = s.d1 := rfl
@[simp] theorem ackIrq_d2 (v : Word) (s : State) : (ackIrq v s).d2 = s.d2 := rfl
@[simp] theorem ackIrq_len1 (v : Word) (s : State) : (ackIrq v s).len1 = s.len1 := rfl
@[simp] theorem ackIrq_outlen (v : Word) (s : State) : (ackIrq v s).outlen = s.outlen := rfl
@[simp] theorem ackIrq_peakLo (v : Word) (s : State) : (ackIrq v s).peakLo = s.peakLo := rfl
@[simp] theorem ackIrq_peakHi (v : Word) (s : State) : (ackIrq v s).peakHi = s.peakHi := rfl
@[simp] theorem ackIrq_paramNmax (v : Word) (s : State) : (ackIrq v s).paramNmax = s.paramNmax := rfl
@[simp] theorem ackIrq_paramTmax (v : Word) (s : State) : (ackIrq v s).paramTmax = s.paramTmax := rfl
@[simp] theorem ackIrq_mem (v : Word) (s : State) : (ackIrq v s).mem = s.mem := rfl
@[simp] theorem ackIrq_hidden (v : Word) (s : State) : (ackIrq v s).hidden = s.hidden := rfl
@[simp] theorem ackIrq_rstN (v : Word) (s : State) : (ackIrq v s).rstN = s.rstN := rfl
@[simp] theorem ackIrq_agenda (v : Word) (s : State) : (ackIrq v s).agenda = s.agenda := rfl
@[simp] theorem ackIrq_reply (v : Word) (s : State) : (ackIrq v s).reply = s.reply := rfl
@[simp] theorem ackIrq_draws (v : Word) (s : State) : (ackIrq v s).draws = s.draws := rfl

/-! ### `setCmdIgnored`: a command ignored while BUSY (R151) -/

@[simp] theorem setCmdIgnored_status (s : State) : (setCmdIgnored s).status =
    { s.status with cmdIgnored := true } := rfl
@[simp] theorem setCmdIgnored_irqEn (s : State) : (setCmdIgnored s).irqEn = s.irqEn := rfl
@[simp] theorem setCmdIgnored_irqStat (s : State) : (setCmdIgnored s).irqStat = s.irqStat := rfl
@[simp] theorem setCmdIgnored_cfg (s : State) : (setCmdIgnored s).cfg = s.cfg := rfl
@[simp] theorem setCmdIgnored_rate (s : State) : (setCmdIgnored s).rate = s.rate := rfl
@[simp] theorem setCmdIgnored_offset (s : State) : (setCmdIgnored s).offset = s.offset := rfl
@[simp] theorem setCmdIgnored_nsamp (s : State) : (setCmdIgnored s).nsamp = s.nsamp := rfl
@[simp] theorem setCmdIgnored_ntaps1 (s : State) : (setCmdIgnored s).ntaps1 = s.ntaps1 := rfl
@[simp] theorem setCmdIgnored_ntaps2 (s : State) : (setCmdIgnored s).ntaps2 = s.ntaps2 := rfl
@[simp] theorem setCmdIgnored_d1 (s : State) : (setCmdIgnored s).d1 = s.d1 := rfl
@[simp] theorem setCmdIgnored_d2 (s : State) : (setCmdIgnored s).d2 = s.d2 := rfl
@[simp] theorem setCmdIgnored_len1 (s : State) : (setCmdIgnored s).len1 = s.len1 := rfl
@[simp] theorem setCmdIgnored_outlen (s : State) : (setCmdIgnored s).outlen = s.outlen := rfl
@[simp] theorem setCmdIgnored_peakLo (s : State) : (setCmdIgnored s).peakLo = s.peakLo := rfl
@[simp] theorem setCmdIgnored_peakHi (s : State) : (setCmdIgnored s).peakHi = s.peakHi := rfl
@[simp] theorem setCmdIgnored_paramNmax (s : State) : (setCmdIgnored s).paramNmax = s.paramNmax := rfl
@[simp] theorem setCmdIgnored_paramTmax (s : State) : (setCmdIgnored s).paramTmax = s.paramTmax := rfl
@[simp] theorem setCmdIgnored_mem (s : State) : (setCmdIgnored s).mem = s.mem := rfl
@[simp] theorem setCmdIgnored_hidden (s : State) : (setCmdIgnored s).hidden = s.hidden := rfl
@[simp] theorem setCmdIgnored_rstN (s : State) : (setCmdIgnored s).rstN = s.rstN := rfl
@[simp] theorem setCmdIgnored_agenda (s : State) : (setCmdIgnored s).agenda = s.agenda := rfl
@[simp] theorem setCmdIgnored_reply (s : State) : (setCmdIgnored s).reply = s.reply := rfl
@[simp] theorem setCmdIgnored_draws (s : State) : (setCmdIgnored s).draws = s.draws := rfl

/-! ### `setAccessViol`: a write dropped while BUSY (R91) -/

@[simp] theorem setAccessViol_status (s : State) : (setAccessViol s).status =
    { s.status with accessViol := true } := rfl
@[simp] theorem setAccessViol_irqEn (s : State) : (setAccessViol s).irqEn = s.irqEn := rfl
@[simp] theorem setAccessViol_irqStat (s : State) : (setAccessViol s).irqStat = s.irqStat := rfl
@[simp] theorem setAccessViol_cfg (s : State) : (setAccessViol s).cfg = s.cfg := rfl
@[simp] theorem setAccessViol_rate (s : State) : (setAccessViol s).rate = s.rate := rfl
@[simp] theorem setAccessViol_offset (s : State) : (setAccessViol s).offset = s.offset := rfl
@[simp] theorem setAccessViol_nsamp (s : State) : (setAccessViol s).nsamp = s.nsamp := rfl
@[simp] theorem setAccessViol_ntaps1 (s : State) : (setAccessViol s).ntaps1 = s.ntaps1 := rfl
@[simp] theorem setAccessViol_ntaps2 (s : State) : (setAccessViol s).ntaps2 = s.ntaps2 := rfl
@[simp] theorem setAccessViol_d1 (s : State) : (setAccessViol s).d1 = s.d1 := rfl
@[simp] theorem setAccessViol_d2 (s : State) : (setAccessViol s).d2 = s.d2 := rfl
@[simp] theorem setAccessViol_len1 (s : State) : (setAccessViol s).len1 = s.len1 := rfl
@[simp] theorem setAccessViol_outlen (s : State) : (setAccessViol s).outlen = s.outlen := rfl
@[simp] theorem setAccessViol_peakLo (s : State) : (setAccessViol s).peakLo = s.peakLo := rfl
@[simp] theorem setAccessViol_peakHi (s : State) : (setAccessViol s).peakHi = s.peakHi := rfl
@[simp] theorem setAccessViol_paramNmax (s : State) : (setAccessViol s).paramNmax = s.paramNmax := rfl
@[simp] theorem setAccessViol_paramTmax (s : State) : (setAccessViol s).paramTmax = s.paramTmax := rfl
@[simp] theorem setAccessViol_mem (s : State) : (setAccessViol s).mem = s.mem := rfl
@[simp] theorem setAccessViol_hidden (s : State) : (setAccessViol s).hidden = s.hidden := rfl
@[simp] theorem setAccessViol_rstN (s : State) : (setAccessViol s).rstN = s.rstN := rfl
@[simp] theorem setAccessViol_agenda (s : State) : (setAccessViol s).agenda = s.agenda := rfl
@[simp] theorem setAccessViol_reply (s : State) : (setAccessViol s).reply = s.reply := rfl
@[simp] theorem setAccessViol_draws (s : State) : (setAccessViol s).draws = s.draws := rfl

/-! ### `clearRunFlags`: the flags a RUN clears (R142) -/

@[simp] theorem clearRunFlags_status (s : State) : (clearRunFlags s).status =
    { s.status with done := false, err := false, errcode := 0x00#8, silent := false } := rfl
@[simp] theorem clearRunFlags_irqEn (s : State) : (clearRunFlags s).irqEn = s.irqEn := rfl
@[simp] theorem clearRunFlags_irqStat (s : State) : (clearRunFlags s).irqStat = s.irqStat := rfl
@[simp] theorem clearRunFlags_cfg (s : State) : (clearRunFlags s).cfg = s.cfg := rfl
@[simp] theorem clearRunFlags_rate (s : State) : (clearRunFlags s).rate = s.rate := rfl
@[simp] theorem clearRunFlags_offset (s : State) : (clearRunFlags s).offset = s.offset := rfl
@[simp] theorem clearRunFlags_nsamp (s : State) : (clearRunFlags s).nsamp = s.nsamp := rfl
@[simp] theorem clearRunFlags_ntaps1 (s : State) : (clearRunFlags s).ntaps1 = s.ntaps1 := rfl
@[simp] theorem clearRunFlags_ntaps2 (s : State) : (clearRunFlags s).ntaps2 = s.ntaps2 := rfl
@[simp] theorem clearRunFlags_d1 (s : State) : (clearRunFlags s).d1 = s.d1 := rfl
@[simp] theorem clearRunFlags_d2 (s : State) : (clearRunFlags s).d2 = s.d2 := rfl
@[simp] theorem clearRunFlags_len1 (s : State) : (clearRunFlags s).len1 = s.len1 := rfl
@[simp] theorem clearRunFlags_outlen (s : State) : (clearRunFlags s).outlen = s.outlen := rfl
@[simp] theorem clearRunFlags_peakLo (s : State) : (clearRunFlags s).peakLo = s.peakLo := rfl
@[simp] theorem clearRunFlags_peakHi (s : State) : (clearRunFlags s).peakHi = s.peakHi := rfl
@[simp] theorem clearRunFlags_paramNmax (s : State) : (clearRunFlags s).paramNmax = s.paramNmax := rfl
@[simp] theorem clearRunFlags_paramTmax (s : State) : (clearRunFlags s).paramTmax = s.paramTmax := rfl
@[simp] theorem clearRunFlags_mem (s : State) : (clearRunFlags s).mem = s.mem := rfl
@[simp] theorem clearRunFlags_hidden (s : State) : (clearRunFlags s).hidden = s.hidden := rfl
@[simp] theorem clearRunFlags_rstN (s : State) : (clearRunFlags s).rstN = s.rstN := rfl
@[simp] theorem clearRunFlags_agenda (s : State) : (clearRunFlags s).agenda = s.agenda := rfl
@[simp] theorem clearRunFlags_reply (s : State) : (clearRunFlags s).reply = s.reply := rfl
@[simp] theorem clearRunFlags_draws (s : State) : (clearRunFlags s).draws = s.draws := rfl

/-! ### `clearAllFlags`: the flags CLEAR clears (R153) -/

@[simp] theorem clearAllFlags_status (s : State) : (clearAllFlags s).status = { s.status with
      done := false, err := false, errcode := 0x00#8, silent := false, accessViol := false, cmdIgnored := false } := rfl
@[simp] theorem clearAllFlags_irqEn (s : State) : (clearAllFlags s).irqEn = s.irqEn := rfl
@[simp] theorem clearAllFlags_irqStat (s : State) : (clearAllFlags s).irqStat = s.irqStat := rfl
@[simp] theorem clearAllFlags_cfg (s : State) : (clearAllFlags s).cfg = s.cfg := rfl
@[simp] theorem clearAllFlags_rate (s : State) : (clearAllFlags s).rate = s.rate := rfl
@[simp] theorem clearAllFlags_offset (s : State) : (clearAllFlags s).offset = s.offset := rfl
@[simp] theorem clearAllFlags_nsamp (s : State) : (clearAllFlags s).nsamp = s.nsamp := rfl
@[simp] theorem clearAllFlags_ntaps1 (s : State) : (clearAllFlags s).ntaps1 = s.ntaps1 := rfl
@[simp] theorem clearAllFlags_ntaps2 (s : State) : (clearAllFlags s).ntaps2 = s.ntaps2 := rfl
@[simp] theorem clearAllFlags_d1 (s : State) : (clearAllFlags s).d1 = s.d1 := rfl
@[simp] theorem clearAllFlags_d2 (s : State) : (clearAllFlags s).d2 = s.d2 := rfl
@[simp] theorem clearAllFlags_len1 (s : State) : (clearAllFlags s).len1 = s.len1 := rfl
@[simp] theorem clearAllFlags_outlen (s : State) : (clearAllFlags s).outlen = s.outlen := rfl
@[simp] theorem clearAllFlags_peakLo (s : State) : (clearAllFlags s).peakLo = s.peakLo := rfl
@[simp] theorem clearAllFlags_peakHi (s : State) : (clearAllFlags s).peakHi = s.peakHi := rfl
@[simp] theorem clearAllFlags_paramNmax (s : State) : (clearAllFlags s).paramNmax = s.paramNmax := rfl
@[simp] theorem clearAllFlags_paramTmax (s : State) : (clearAllFlags s).paramTmax = s.paramTmax := rfl
@[simp] theorem clearAllFlags_mem (s : State) : (clearAllFlags s).mem = s.mem := rfl
@[simp] theorem clearAllFlags_hidden (s : State) : (clearAllFlags s).hidden = s.hidden := rfl
@[simp] theorem clearAllFlags_rstN (s : State) : (clearAllFlags s).rstN = s.rstN := rfl
@[simp] theorem clearAllFlags_agenda (s : State) : (clearAllFlags s).agenda = s.agenda := rfl
@[simp] theorem clearAllFlags_reply (s : State) : (clearAllFlags s).reply = s.reply := rfl
@[simp] theorem clearAllFlags_draws (s : State) : (clearAllFlags s).draws = s.draws := rfl

/-! ### `raiseError`: error entry (R336) -/

@[simp] theorem raiseError_status (c : BitVec 8) (s : State) : (raiseError c s).status =
    { s.status with err := true, errcode := c, done := false } := rfl
@[simp] theorem raiseError_irqEn (c : BitVec 8) (s : State) : (raiseError c s).irqEn = s.irqEn := rfl
@[simp] theorem raiseError_irqStat (c : BitVec 8) (s : State) : (raiseError c s).irqStat = s.irqStat ||| errBit := rfl
@[simp] theorem raiseError_cfg (c : BitVec 8) (s : State) : (raiseError c s).cfg = s.cfg := rfl
@[simp] theorem raiseError_rate (c : BitVec 8) (s : State) : (raiseError c s).rate = s.rate := rfl
@[simp] theorem raiseError_offset (c : BitVec 8) (s : State) : (raiseError c s).offset = s.offset := rfl
@[simp] theorem raiseError_nsamp (c : BitVec 8) (s : State) : (raiseError c s).nsamp = s.nsamp := rfl
@[simp] theorem raiseError_ntaps1 (c : BitVec 8) (s : State) : (raiseError c s).ntaps1 = s.ntaps1 := rfl
@[simp] theorem raiseError_ntaps2 (c : BitVec 8) (s : State) : (raiseError c s).ntaps2 = s.ntaps2 := rfl
@[simp] theorem raiseError_d1 (c : BitVec 8) (s : State) : (raiseError c s).d1 = s.d1 := rfl
@[simp] theorem raiseError_d2 (c : BitVec 8) (s : State) : (raiseError c s).d2 = s.d2 := rfl
@[simp] theorem raiseError_len1 (c : BitVec 8) (s : State) : (raiseError c s).len1 = s.len1 := rfl
@[simp] theorem raiseError_outlen (c : BitVec 8) (s : State) : (raiseError c s).outlen = s.outlen := rfl
@[simp] theorem raiseError_peakLo (c : BitVec 8) (s : State) : (raiseError c s).peakLo = s.peakLo := rfl
@[simp] theorem raiseError_peakHi (c : BitVec 8) (s : State) : (raiseError c s).peakHi = s.peakHi := rfl
@[simp] theorem raiseError_paramNmax (c : BitVec 8) (s : State) : (raiseError c s).paramNmax = s.paramNmax := rfl
@[simp] theorem raiseError_paramTmax (c : BitVec 8) (s : State) : (raiseError c s).paramTmax = s.paramTmax := rfl
@[simp] theorem raiseError_mem (c : BitVec 8) (s : State) : (raiseError c s).mem = s.mem := rfl
@[simp] theorem raiseError_hidden (c : BitVec 8) (s : State) : (raiseError c s).hidden = s.hidden := rfl
@[simp] theorem raiseError_rstN (c : BitVec 8) (s : State) : (raiseError c s).rstN = s.rstN := rfl
@[simp] theorem raiseError_agenda (c : BitVec 8) (s : State) : (raiseError c s).agenda = s.agenda := rfl
@[simp] theorem raiseError_reply (c : BitVec 8) (s : State) : (raiseError c s).reply = s.reply := rfl
@[simp] theorem raiseError_draws (c : BitVec 8) (s : State) : (raiseError c s).draws = s.draws := rfl

/-! ### `zeroResults`: the result registers at 0 (R150) -/

@[simp] theorem zeroResults_status (s : State) : (zeroResults s).status = s.status := rfl
@[simp] theorem zeroResults_irqEn (s : State) : (zeroResults s).irqEn = s.irqEn := rfl
@[simp] theorem zeroResults_irqStat (s : State) : (zeroResults s).irqStat = s.irqStat := rfl
@[simp] theorem zeroResults_cfg (s : State) : (zeroResults s).cfg = s.cfg := rfl
@[simp] theorem zeroResults_rate (s : State) : (zeroResults s).rate = s.rate := rfl
@[simp] theorem zeroResults_offset (s : State) : (zeroResults s).offset = s.offset := rfl
@[simp] theorem zeroResults_nsamp (s : State) : (zeroResults s).nsamp = s.nsamp := rfl
@[simp] theorem zeroResults_ntaps1 (s : State) : (zeroResults s).ntaps1 = s.ntaps1 := rfl
@[simp] theorem zeroResults_ntaps2 (s : State) : (zeroResults s).ntaps2 = s.ntaps2 := rfl
@[simp] theorem zeroResults_d1 (s : State) : (zeroResults s).d1 = 0#32 := rfl
@[simp] theorem zeroResults_d2 (s : State) : (zeroResults s).d2 = 0#32 := rfl
@[simp] theorem zeroResults_len1 (s : State) : (zeroResults s).len1 = 0#32 := rfl
@[simp] theorem zeroResults_outlen (s : State) : (zeroResults s).outlen = 0#32 := rfl
@[simp] theorem zeroResults_peakLo (s : State) : (zeroResults s).peakLo = 0#32 := rfl
@[simp] theorem zeroResults_peakHi (s : State) : (zeroResults s).peakHi = 0#32 := rfl
@[simp] theorem zeroResults_paramNmax (s : State) : (zeroResults s).paramNmax = s.paramNmax := rfl
@[simp] theorem zeroResults_paramTmax (s : State) : (zeroResults s).paramTmax = s.paramTmax := rfl
@[simp] theorem zeroResults_mem (s : State) : (zeroResults s).mem = s.mem := rfl
@[simp] theorem zeroResults_hidden (s : State) : (zeroResults s).hidden = s.hidden := rfl
@[simp] theorem zeroResults_rstN (s : State) : (zeroResults s).rstN = s.rstN := rfl
@[simp] theorem zeroResults_agenda (s : State) : (zeroResults s).agenda = s.agenda := rfl
@[simp] theorem zeroResults_reply (s : State) : (zeroResults s).reply = s.reply := rfl
@[simp] theorem zeroResults_draws (s : State) : (zeroResults s).draws = s.draws := rfl

/-! ### `zeroOutput`: the registers ABORT clears (R152) -/

@[simp] theorem zeroOutput_status (s : State) : (zeroOutput s).status = s.status := rfl
@[simp] theorem zeroOutput_irqEn (s : State) : (zeroOutput s).irqEn = s.irqEn := rfl
@[simp] theorem zeroOutput_irqStat (s : State) : (zeroOutput s).irqStat = s.irqStat := rfl
@[simp] theorem zeroOutput_cfg (s : State) : (zeroOutput s).cfg = s.cfg := rfl
@[simp] theorem zeroOutput_rate (s : State) : (zeroOutput s).rate = s.rate := rfl
@[simp] theorem zeroOutput_offset (s : State) : (zeroOutput s).offset = s.offset := rfl
@[simp] theorem zeroOutput_nsamp (s : State) : (zeroOutput s).nsamp = s.nsamp := rfl
@[simp] theorem zeroOutput_ntaps1 (s : State) : (zeroOutput s).ntaps1 = s.ntaps1 := rfl
@[simp] theorem zeroOutput_ntaps2 (s : State) : (zeroOutput s).ntaps2 = s.ntaps2 := rfl
@[simp] theorem zeroOutput_d1 (s : State) : (zeroOutput s).d1 = s.d1 := rfl
@[simp] theorem zeroOutput_d2 (s : State) : (zeroOutput s).d2 = s.d2 := rfl
@[simp] theorem zeroOutput_len1 (s : State) : (zeroOutput s).len1 = s.len1 := rfl
@[simp] theorem zeroOutput_outlen (s : State) : (zeroOutput s).outlen = 0#32 := rfl
@[simp] theorem zeroOutput_peakLo (s : State) : (zeroOutput s).peakLo = 0#32 := rfl
@[simp] theorem zeroOutput_peakHi (s : State) : (zeroOutput s).peakHi = 0#32 := rfl
@[simp] theorem zeroOutput_paramNmax (s : State) : (zeroOutput s).paramNmax = s.paramNmax := rfl
@[simp] theorem zeroOutput_paramTmax (s : State) : (zeroOutput s).paramTmax = s.paramTmax := rfl
@[simp] theorem zeroOutput_mem (s : State) : (zeroOutput s).mem = s.mem := rfl
@[simp] theorem zeroOutput_hidden (s : State) : (zeroOutput s).hidden = s.hidden := rfl
@[simp] theorem zeroOutput_rstN (s : State) : (zeroOutput s).rstN = s.rstN := rfl
@[simp] theorem zeroOutput_agenda (s : State) : (zeroOutput s).agenda = s.agenda := rfl
@[simp] theorem zeroOutput_reply (s : State) : (zeroOutput s).reply = s.reply := rfl
@[simp] theorem zeroOutput_draws (s : State) : (zeroOutput s).draws = s.draws := rfl

/-! ### `dropHidden`: the hidden state between RUNs (R46) -/

@[simp] theorem dropHidden_status (s : State) : (dropHidden s).status = s.status := rfl
@[simp] theorem dropHidden_irqEn (s : State) : (dropHidden s).irqEn = s.irqEn := rfl
@[simp] theorem dropHidden_irqStat (s : State) : (dropHidden s).irqStat = s.irqStat := rfl
@[simp] theorem dropHidden_cfg (s : State) : (dropHidden s).cfg = s.cfg := rfl
@[simp] theorem dropHidden_rate (s : State) : (dropHidden s).rate = s.rate := rfl
@[simp] theorem dropHidden_offset (s : State) : (dropHidden s).offset = s.offset := rfl
@[simp] theorem dropHidden_nsamp (s : State) : (dropHidden s).nsamp = s.nsamp := rfl
@[simp] theorem dropHidden_ntaps1 (s : State) : (dropHidden s).ntaps1 = s.ntaps1 := rfl
@[simp] theorem dropHidden_ntaps2 (s : State) : (dropHidden s).ntaps2 = s.ntaps2 := rfl
@[simp] theorem dropHidden_d1 (s : State) : (dropHidden s).d1 = s.d1 := rfl
@[simp] theorem dropHidden_d2 (s : State) : (dropHidden s).d2 = s.d2 := rfl
@[simp] theorem dropHidden_len1 (s : State) : (dropHidden s).len1 = s.len1 := rfl
@[simp] theorem dropHidden_outlen (s : State) : (dropHidden s).outlen = s.outlen := rfl
@[simp] theorem dropHidden_peakLo (s : State) : (dropHidden s).peakLo = s.peakLo := rfl
@[simp] theorem dropHidden_peakHi (s : State) : (dropHidden s).peakHi = s.peakHi := rfl
@[simp] theorem dropHidden_paramNmax (s : State) : (dropHidden s).paramNmax = s.paramNmax := rfl
@[simp] theorem dropHidden_paramTmax (s : State) : (dropHidden s).paramTmax = s.paramTmax := rfl
@[simp] theorem dropHidden_mem (s : State) : (dropHidden s).mem = s.mem := rfl
@[simp] theorem dropHidden_hidden (s : State) : (dropHidden s).hidden = Config.betweenRuns s.draws := rfl
@[simp] theorem dropHidden_rstN (s : State) : (dropHidden s).rstN = s.rstN := rfl
@[simp] theorem dropHidden_agenda (s : State) : (dropHidden s).agenda = s.agenda := rfl
@[simp] theorem dropHidden_reply (s : State) : (dropHidden s).reply = s.reply := rfl
@[simp] theorem dropHidden_draws (s : State) : (dropHidden s).draws = s.draws + 1 := rfl

/-! ### `loseObuf`: the OBUF words of a RUN that did not complete (R152) -/

@[simp] theorem loseObuf_status (s : State) : (loseObuf s).status = s.status := rfl
@[simp] theorem loseObuf_irqEn (s : State) : (loseObuf s).irqEn = s.irqEn := rfl
@[simp] theorem loseObuf_irqStat (s : State) : (loseObuf s).irqStat = s.irqStat := rfl
@[simp] theorem loseObuf_cfg (s : State) : (loseObuf s).cfg = s.cfg := rfl
@[simp] theorem loseObuf_rate (s : State) : (loseObuf s).rate = s.rate := rfl
@[simp] theorem loseObuf_offset (s : State) : (loseObuf s).offset = s.offset := rfl
@[simp] theorem loseObuf_nsamp (s : State) : (loseObuf s).nsamp = s.nsamp := rfl
@[simp] theorem loseObuf_ntaps1 (s : State) : (loseObuf s).ntaps1 = s.ntaps1 := rfl
@[simp] theorem loseObuf_ntaps2 (s : State) : (loseObuf s).ntaps2 = s.ntaps2 := rfl
@[simp] theorem loseObuf_d1 (s : State) : (loseObuf s).d1 = s.d1 := rfl
@[simp] theorem loseObuf_d2 (s : State) : (loseObuf s).d2 = s.d2 := rfl
@[simp] theorem loseObuf_len1 (s : State) : (loseObuf s).len1 = s.len1 := rfl
@[simp] theorem loseObuf_outlen (s : State) : (loseObuf s).outlen = s.outlen := rfl
@[simp] theorem loseObuf_peakLo (s : State) : (loseObuf s).peakLo = s.peakLo := rfl
@[simp] theorem loseObuf_peakHi (s : State) : (loseObuf s).peakHi = s.peakHi := rfl
@[simp] theorem loseObuf_paramNmax (s : State) : (loseObuf s).paramNmax = s.paramNmax := rfl
@[simp] theorem loseObuf_paramTmax (s : State) : (loseObuf s).paramTmax = s.paramTmax := rfl
@[simp] theorem loseObuf_mem (s : State) : (loseObuf s).mem = writeBytes s.mem obufBase
      ((List.range (4 * ceilDiv s.hidden.run.l3 2)).map (fun i => Config.lostObufByte s.draws (obufBase + i))) := rfl
@[simp] theorem loseObuf_hidden (s : State) : (loseObuf s).hidden = s.hidden := rfl
@[simp] theorem loseObuf_rstN (s : State) : (loseObuf s).rstN = s.rstN := rfl
@[simp] theorem loseObuf_agenda (s : State) : (loseObuf s).agenda = s.agenda := rfl
@[simp] theorem loseObuf_reply (s : State) : (loseObuf s).reply = s.reply := rfl
@[simp] theorem loseObuf_draws (s : State) : (loseObuf s).draws = s.draws + 1 := rfl

/-! ### `resetRegisters`: the registers of R53 -/

@[simp] theorem resetRegisters_status (s : State) : (resetRegisters s).status = Status.reset := rfl
@[simp] theorem resetRegisters_irqEn (s : State) : (resetRegisters s).irqEn = 0#2 := rfl
@[simp] theorem resetRegisters_irqStat (s : State) : (resetRegisters s).irqStat = 0#2 := rfl
@[simp] theorem resetRegisters_cfg (s : State) : (resetRegisters s).cfg = 0#1 := rfl
@[simp] theorem resetRegisters_rate (s : State) : (resetRegisters s).rate = 0#32 := rfl
@[simp] theorem resetRegisters_offset (s : State) : (resetRegisters s).offset = 0#32 := rfl
@[simp] theorem resetRegisters_nsamp (s : State) : (resetRegisters s).nsamp = 0#32 := rfl
@[simp] theorem resetRegisters_ntaps1 (s : State) : (resetRegisters s).ntaps1 = 0#32 := rfl
@[simp] theorem resetRegisters_ntaps2 (s : State) : (resetRegisters s).ntaps2 = 0#32 := rfl
@[simp] theorem resetRegisters_d1 (s : State) : (resetRegisters s).d1 = 0#32 := rfl
@[simp] theorem resetRegisters_d2 (s : State) : (resetRegisters s).d2 = 0#32 := rfl
@[simp] theorem resetRegisters_len1 (s : State) : (resetRegisters s).len1 = 0#32 := rfl
@[simp] theorem resetRegisters_outlen (s : State) : (resetRegisters s).outlen = 0#32 := rfl
@[simp] theorem resetRegisters_peakLo (s : State) : (resetRegisters s).peakLo = 0#32 := rfl
@[simp] theorem resetRegisters_peakHi (s : State) : (resetRegisters s).peakHi = 0#32 := rfl
@[simp] theorem resetRegisters_paramNmax (s : State) : (resetRegisters s).paramNmax = s.paramNmax := rfl
@[simp] theorem resetRegisters_paramTmax (s : State) : (resetRegisters s).paramTmax = s.paramTmax := rfl
@[simp] theorem resetRegisters_mem (s : State) : (resetRegisters s).mem = s.mem := rfl
@[simp] theorem resetRegisters_hidden (s : State) : (resetRegisters s).hidden = s.hidden := rfl
@[simp] theorem resetRegisters_rstN (s : State) : (resetRegisters s).rstN = s.rstN := rfl
@[simp] theorem resetRegisters_agenda (s : State) : (resetRegisters s).agenda = s.agenda := rfl
@[simp] theorem resetRegisters_reply (s : State) : (resetRegisters s).reply = s.reply := rfl
@[simp] theorem resetRegisters_draws (s : State) : (resetRegisters s).draws = s.draws := rfl

/-! ### `accept`: acceptance (R149) -/

@[simp] theorem accept_status (s : State) : (accept s).status = { s.status with busy := true, stage := 1#3 } := rfl
@[simp] theorem accept_irqEn (s : State) : (accept s).irqEn = s.irqEn := rfl
@[simp] theorem accept_irqStat (s : State) : (accept s).irqStat = s.irqStat := rfl
@[simp] theorem accept_cfg (s : State) : (accept s).cfg = s.cfg := rfl
@[simp] theorem accept_rate (s : State) : (accept s).rate = s.rate := rfl
@[simp] theorem accept_offset (s : State) : (accept s).offset = s.offset := rfl
@[simp] theorem accept_nsamp (s : State) : (accept s).nsamp = s.nsamp := rfl
@[simp] theorem accept_ntaps1 (s : State) : (accept s).ntaps1 = s.ntaps1 := rfl
@[simp] theorem accept_ntaps2 (s : State) : (accept s).ntaps2 = s.ntaps2 := rfl
@[simp] theorem accept_d1 (s : State) : (accept s).d1 = BitVec.ofNat 32 (runParamsOf s).d1 := rfl
@[simp] theorem accept_d2 (s : State) : (accept s).d2 = BitVec.ofNat 32 (runParamsOf s).d2 := rfl
@[simp] theorem accept_len1 (s : State) : (accept s).len1 = BitVec.ofNat 32 (runParamsOf s).l1 := rfl
@[simp] theorem accept_outlen (s : State) : (accept s).outlen = BitVec.ofNat 32 (runParamsOf s).l3 := rfl
@[simp] theorem accept_peakLo (s : State) : (accept s).peakLo = 0#32 := rfl
@[simp] theorem accept_peakHi (s : State) : (accept s).peakHi = 0#32 := rfl
@[simp] theorem accept_paramNmax (s : State) : (accept s).paramNmax = s.paramNmax := rfl
@[simp] theorem accept_paramTmax (s : State) : (accept s).paramTmax = s.paramTmax := rfl
@[simp] theorem accept_mem (s : State) : (accept s).mem = s.mem := rfl
@[simp] theorem accept_hidden (s : State) : (accept s).hidden =
    { s.hidden with run := runParamsOf s, hist := histStart } := rfl
@[simp] theorem accept_rstN (s : State) : (accept s).rstN = s.rstN := rfl
@[simp] theorem accept_agenda (s : State) : (accept s).agenda = s.agenda := rfl
@[simp] theorem accept_reply (s : State) : (accept s).reply = s.reply := rfl
@[simp] theorem accept_draws (s : State) : (accept s).draws = s.draws := rfl

/-! ### `nextStage`: the sequencer's advance (R160) -/

@[simp] theorem nextStage_status (s : State) : (nextStage s).status =
    { s.status with stage := s.status.stage + 1#3 } := rfl
@[simp] theorem nextStage_irqEn (s : State) : (nextStage s).irqEn = s.irqEn := rfl
@[simp] theorem nextStage_irqStat (s : State) : (nextStage s).irqStat = s.irqStat := rfl
@[simp] theorem nextStage_cfg (s : State) : (nextStage s).cfg = s.cfg := rfl
@[simp] theorem nextStage_rate (s : State) : (nextStage s).rate = s.rate := rfl
@[simp] theorem nextStage_offset (s : State) : (nextStage s).offset = s.offset := rfl
@[simp] theorem nextStage_nsamp (s : State) : (nextStage s).nsamp = s.nsamp := rfl
@[simp] theorem nextStage_ntaps1 (s : State) : (nextStage s).ntaps1 = s.ntaps1 := rfl
@[simp] theorem nextStage_ntaps2 (s : State) : (nextStage s).ntaps2 = s.ntaps2 := rfl
@[simp] theorem nextStage_d1 (s : State) : (nextStage s).d1 = s.d1 := rfl
@[simp] theorem nextStage_d2 (s : State) : (nextStage s).d2 = s.d2 := rfl
@[simp] theorem nextStage_len1 (s : State) : (nextStage s).len1 = s.len1 := rfl
@[simp] theorem nextStage_outlen (s : State) : (nextStage s).outlen = s.outlen := rfl
@[simp] theorem nextStage_peakLo (s : State) : (nextStage s).peakLo = s.peakLo := rfl
@[simp] theorem nextStage_peakHi (s : State) : (nextStage s).peakHi = s.peakHi := rfl
@[simp] theorem nextStage_paramNmax (s : State) : (nextStage s).paramNmax = s.paramNmax := rfl
@[simp] theorem nextStage_paramTmax (s : State) : (nextStage s).paramTmax = s.paramTmax := rfl
@[simp] theorem nextStage_mem (s : State) : (nextStage s).mem = s.mem := rfl
@[simp] theorem nextStage_hidden (s : State) : (nextStage s).hidden = s.hidden := rfl
@[simp] theorem nextStage_rstN (s : State) : (nextStage s).rstN = s.rstN := rfl
@[simp] theorem nextStage_agenda (s : State) : (nextStage s).agenda = s.agenda := rfl
@[simp] theorem nextStage_reply (s : State) : (nextStage s).reply = s.reply := rfl
@[simp] theorem nextStage_draws (s : State) : (nextStage s).draws = s.draws := rfl

/-! ### `storeResult`: what NORMALIZE writes (R307) -/

@[simp] theorem storeResult_status (r : Normalized) (s : State) : (storeResult r s).status =
    { s.status with silent := r.silent } := rfl
@[simp] theorem storeResult_irqEn (r : Normalized) (s : State) : (storeResult r s).irqEn = s.irqEn := rfl
@[simp] theorem storeResult_irqStat (r : Normalized) (s : State) : (storeResult r s).irqStat = s.irqStat := rfl
@[simp] theorem storeResult_cfg (r : Normalized) (s : State) : (storeResult r s).cfg = s.cfg := rfl
@[simp] theorem storeResult_rate (r : Normalized) (s : State) : (storeResult r s).rate = s.rate := rfl
@[simp] theorem storeResult_offset (r : Normalized) (s : State) : (storeResult r s).offset = s.offset := rfl
@[simp] theorem storeResult_nsamp (r : Normalized) (s : State) : (storeResult r s).nsamp = s.nsamp := rfl
@[simp] theorem storeResult_ntaps1 (r : Normalized) (s : State) : (storeResult r s).ntaps1 = s.ntaps1 := rfl
@[simp] theorem storeResult_ntaps2 (r : Normalized) (s : State) : (storeResult r s).ntaps2 = s.ntaps2 := rfl
@[simp] theorem storeResult_d1 (r : Normalized) (s : State) : (storeResult r s).d1 = s.d1 := rfl
@[simp] theorem storeResult_d2 (r : Normalized) (s : State) : (storeResult r s).d2 = s.d2 := rfl
@[simp] theorem storeResult_len1 (r : Normalized) (s : State) : (storeResult r s).len1 = s.len1 := rfl
@[simp] theorem storeResult_outlen (r : Normalized) (s : State) : (storeResult r s).outlen = s.outlen := rfl
@[simp] theorem storeResult_peakLo (r : Normalized) (s : State) : (storeResult r s).peakLo = peakLoOf r.peak := rfl
@[simp] theorem storeResult_peakHi (r : Normalized) (s : State) : (storeResult r s).peakHi = peakHiOf r.peak := rfl
@[simp] theorem storeResult_paramNmax (r : Normalized) (s : State) : (storeResult r s).paramNmax = s.paramNmax := rfl
@[simp] theorem storeResult_paramTmax (r : Normalized) (s : State) : (storeResult r s).paramTmax = s.paramTmax := rfl
@[simp] theorem storeResult_mem (r : Normalized) (s : State) : (storeResult r s).mem =
    writeBytes s.mem obufBase ((packPcm r.pcm).flatMap bytesOfWord) := rfl
@[simp] theorem storeResult_hidden (r : Normalized) (s : State) : (storeResult r s).hidden = s.hidden := rfl
@[simp] theorem storeResult_rstN (r : Normalized) (s : State) : (storeResult r s).rstN = s.rstN := rfl
@[simp] theorem storeResult_agenda (r : Normalized) (s : State) : (storeResult r s).agenda = s.agenda := rfl
@[simp] theorem storeResult_reply (r : Normalized) (s : State) : (storeResult r s).reply = s.reply := rfl
@[simp] theorem storeResult_draws (r : Normalized) (s : State) : (storeResult r s).draws = s.draws := rfl

/-! ### `answer`: an answer of the port (R80) -/

@[simp] theorem answer_status (r : Reply) (s : State) : (answer r s).status = s.status := rfl
@[simp] theorem answer_irqEn (r : Reply) (s : State) : (answer r s).irqEn = s.irqEn := rfl
@[simp] theorem answer_irqStat (r : Reply) (s : State) : (answer r s).irqStat = s.irqStat := rfl
@[simp] theorem answer_cfg (r : Reply) (s : State) : (answer r s).cfg = s.cfg := rfl
@[simp] theorem answer_rate (r : Reply) (s : State) : (answer r s).rate = s.rate := rfl
@[simp] theorem answer_offset (r : Reply) (s : State) : (answer r s).offset = s.offset := rfl
@[simp] theorem answer_nsamp (r : Reply) (s : State) : (answer r s).nsamp = s.nsamp := rfl
@[simp] theorem answer_ntaps1 (r : Reply) (s : State) : (answer r s).ntaps1 = s.ntaps1 := rfl
@[simp] theorem answer_ntaps2 (r : Reply) (s : State) : (answer r s).ntaps2 = s.ntaps2 := rfl
@[simp] theorem answer_d1 (r : Reply) (s : State) : (answer r s).d1 = s.d1 := rfl
@[simp] theorem answer_d2 (r : Reply) (s : State) : (answer r s).d2 = s.d2 := rfl
@[simp] theorem answer_len1 (r : Reply) (s : State) : (answer r s).len1 = s.len1 := rfl
@[simp] theorem answer_outlen (r : Reply) (s : State) : (answer r s).outlen = s.outlen := rfl
@[simp] theorem answer_peakLo (r : Reply) (s : State) : (answer r s).peakLo = s.peakLo := rfl
@[simp] theorem answer_peakHi (r : Reply) (s : State) : (answer r s).peakHi = s.peakHi := rfl
@[simp] theorem answer_paramNmax (r : Reply) (s : State) : (answer r s).paramNmax = s.paramNmax := rfl
@[simp] theorem answer_paramTmax (r : Reply) (s : State) : (answer r s).paramTmax = s.paramTmax := rfl
@[simp] theorem answer_mem (r : Reply) (s : State) : (answer r s).mem = s.mem := rfl
@[simp] theorem answer_hidden (r : Reply) (s : State) : (answer r s).hidden = s.hidden := rfl
@[simp] theorem answer_rstN (r : Reply) (s : State) : (answer r s).rstN = s.rstN := rfl
@[simp] theorem answer_agenda (r : Reply) (s : State) : (answer r s).agenda = s.agenda := rfl
@[simp] theorem answer_reply (r : Reply) (s : State) : (answer r s).reply = some r := rfl
@[simp] theorem answer_draws (r : Reply) (s : State) : (answer r s).draws = s.draws := rfl

/-! ### `storeWord`: a store to an input memory (R159) -/

@[simp] theorem storeWord_status (a : Nat) (v : Word) (s : State) : (storeWord a v s).status = s.status := rfl
@[simp] theorem storeWord_irqEn (a : Nat) (v : Word) (s : State) : (storeWord a v s).irqEn = s.irqEn := rfl
@[simp] theorem storeWord_irqStat (a : Nat) (v : Word) (s : State) : (storeWord a v s).irqStat = s.irqStat := rfl
@[simp] theorem storeWord_cfg (a : Nat) (v : Word) (s : State) : (storeWord a v s).cfg = s.cfg := rfl
@[simp] theorem storeWord_rate (a : Nat) (v : Word) (s : State) : (storeWord a v s).rate = s.rate := rfl
@[simp] theorem storeWord_offset (a : Nat) (v : Word) (s : State) : (storeWord a v s).offset = s.offset := rfl
@[simp] theorem storeWord_nsamp (a : Nat) (v : Word) (s : State) : (storeWord a v s).nsamp = s.nsamp := rfl
@[simp] theorem storeWord_ntaps1 (a : Nat) (v : Word) (s : State) : (storeWord a v s).ntaps1 = s.ntaps1 := rfl
@[simp] theorem storeWord_ntaps2 (a : Nat) (v : Word) (s : State) : (storeWord a v s).ntaps2 = s.ntaps2 := rfl
@[simp] theorem storeWord_d1 (a : Nat) (v : Word) (s : State) : (storeWord a v s).d1 = s.d1 := rfl
@[simp] theorem storeWord_d2 (a : Nat) (v : Word) (s : State) : (storeWord a v s).d2 = s.d2 := rfl
@[simp] theorem storeWord_len1 (a : Nat) (v : Word) (s : State) : (storeWord a v s).len1 = s.len1 := rfl
@[simp] theorem storeWord_outlen (a : Nat) (v : Word) (s : State) : (storeWord a v s).outlen = s.outlen := rfl
@[simp] theorem storeWord_peakLo (a : Nat) (v : Word) (s : State) : (storeWord a v s).peakLo = s.peakLo := rfl
@[simp] theorem storeWord_peakHi (a : Nat) (v : Word) (s : State) : (storeWord a v s).peakHi = s.peakHi := rfl
@[simp] theorem storeWord_paramNmax (a : Nat) (v : Word) (s : State) : (storeWord a v s).paramNmax =
    s.paramNmax := rfl
@[simp] theorem storeWord_paramTmax (a : Nat) (v : Word) (s : State) : (storeWord a v s).paramTmax =
    s.paramTmax := rfl
@[simp] theorem storeWord_mem (a : Nat) (v : Word) (s : State) : (storeWord a v s).mem = writeWord s.mem a v := rfl
@[simp] theorem storeWord_hidden (a : Nat) (v : Word) (s : State) : (storeWord a v s).hidden = s.hidden := rfl
@[simp] theorem storeWord_rstN (a : Nat) (v : Word) (s : State) : (storeWord a v s).rstN = s.rstN := rfl
@[simp] theorem storeWord_agenda (a : Nat) (v : Word) (s : State) : (storeWord a v s).agenda = s.agenda := rfl
@[simp] theorem storeWord_reply (a : Nat) (v : Word) (s : State) : (storeWord a v s).reply = s.reply := rfl
@[simp] theorem storeWord_draws (a : Nat) (v : Word) (s : State) : (storeWord a v s).draws = s.draws := rfl

end Sys2Proof.Laws
end

