-- ==== Sys2Proof/Laws/Ops.lean ====
section
/-! SUPPORT. For each shared operation, what it can do, said once: later proofs cite these and unfold nothing. -/

namespace Sys2Proof.Laws

open Sys2Proof Sys2Proof.Machine Sys2Proof.Safety

/-! ### Outcomes -/

/-- `mapNext` ends in a next state only from one. -/
theorem mapNext_eq_next {f : State → State} {o : Host.Outcome State Fault Refusal} {t : State}
    (h : mapNext f o = .next t) : ∃ u, o = .next u ∧ t = f u := by
  cases o <;> cases h
  exact ⟨_, rfl, rfl⟩

@[simp] theorem mapNext_next (f : State → State) (s : State) : mapNext f (.next s) = .next (f s) := rfl

/-- One more step of a run whose first step answers a next state. -/
theorem run_succ (M : Host.Core) (n : Nat) (s t : M.State) (h : M.step s = .next t) : M.run (n + 1) s = M.run n t := by
  simp [Host.Core.run, h]

/-- One more step of a run of this block. -/
theorem core_run_succ (n : Nat) (s t : State) (h : step s = .next t) : core.run (n + 1) s = core.run n t :=
  run_succ core n s t h

/-! ### Error entry and acknowledgment -/

/-- All of error entry (R336): four fields, and nothing else. -/
theorem raiseError_eq (c : BitVec 8) (s : State) :
    raiseError c s = { s with
      status := { s.status with err := true, errcode := c, done := false }, irqStat := s.irqStat ||| errBit } := rfl

/-- All of the acknowledgment (R337, R153): six fields, and nothing else. -/
theorem acknowledge_eq (s : State) :
    acknowledge s = { s with status := { s.status with
      done := false, err := false, errcode := 0x00#8, silent := false, accessViol := false, cmdIgnored := false } } :=
  rfl

/-! ### The end of a RUN and reset -/

/-- `loseObuf` writes the running RUN's OBUF words and no other byte. -/
theorem readByte_loseObuf {s : State} {a : Nat}
    (h : ¬(obufBase ≤ a ∧ a < obufBase + obufBytesOf s.hidden.run)) :
    readByte (loseObuf s).mem a = readByte s.mem a := by
  rw [loseObuf_mem]
  exact readByte_writeBytes_outside _ _ _ _ (by simpa [obufBytesOf] using h)

/-- All of `loseObuf`: memory outside the RUN's words, its canonical form, the draw counter; every other field stays. -/
theorem loseObuf_spec (s : State) :
    ∃ m, loseObuf s = { s with mem := m, draws := s.draws + 1 } ∧ (memWf s.mem = true → memWf m = true) ∧
      ∀ a, ¬(obufBase ≤ a ∧ a < obufBase + obufBytesOf s.hidden.run) → readByte m a = readByte s.mem a :=
  ⟨_, rfl, fun h => writeBytes_memWf h _ _, fun _ h => readByte_loseObuf h⟩

/-- All of reset and SRST (R155, R382): the registers, a running RUN's OBUF words, the hidden state, the draws. -/
theorem resetBlock_spec (s : State) :
    ∃ m h d, resetBlock s = { resetRegisters s with mem := m, hidden := h, draws := d } ∧
      (s.status.busy = false → m = s.mem) ∧ (memWf s.mem = true → memWf m = true) ∧
      ∀ a, ¬(obufBase ≤ a ∧ a < obufBase + obufBytesOf s.hidden.run) → readByte m a = readByte s.mem a := by
  by_cases hb : s.status.busy = true
  · refine ⟨(loseObuf s).mem, Config.betweenRuns (s.draws + 1), s.draws + 1 + 1, ?_, ?_, ?_, ?_⟩
    · rw [resetBlock, if_pos hb]
      rfl
    · intro h
      simp [hb] at h
    · exact fun h => writeBytes_memWf h _ _
    · exact fun _ h => readByte_loseObuf h
  · refine ⟨s.mem, Config.betweenRuns s.draws, s.draws + 1, ?_, fun _ => rfl, fun h => h, fun _ _ => rfl⟩
    rw [resetBlock, if_neg hb]
    rfl

/-! ### The configuration check -/

theorem ceilDiv_le {a b c : Nat} (hb : 0 < b) : ceilDiv a b ≤ c ↔ a ≤ c * b := by
  unfold ceilDiv
  rw [← Nat.lt_succ_iff, Nat.div_lt_iff_lt_mul hb, Nat.succ_mul]
  omega

theorem lt_ceilDiv {a b c : Nat} (hb : 0 < b) : c < ceilDiv a b ↔ c * b < a := by
  have := ceilDiv_le (a := a) (c := c) hb
  omega

theorem check_clearRunFlags (s : State) : check (clearRunFlags s) = check s := rfl

/-- The check answers a code of R331. -/
theorem check_mem_errorCodes (s : State) : check s ∈ errorCodes := by
  unfold check
  dsimp only
  repeat' split
  all_goals decide

/-- The finiteness check of a bank, word by word (R116, R143). -/
theorem any_tapNonFinite (mem : List Host.Cell) (base t : Nat) :
    (readWords mem base t).any tapNonFinite = false ↔
      ∀ j, j < t → (readWord mem (base + 4 * j)).extractLsb' 23 8 ≠ 0xFF#8 := by
  simp [readWords, tapNonFinite]

/-! ### The address map -/

theorem coef1Base_eq : coef1Base = 65536 := rfl
theorem coef2Base_eq : coef2Base = 131072 := rfl
theorem ibufBase_eq : ibufBase = 16777216 := rfl
theorem obufBase_eq : obufBase = 33554432 := rfl
theorem oMax_eq (s : State) : oMax s = nMax s / 4 := rfl

theorem regAt_eq_none {a : Nat} (h : ∀ r : Reg, regOffset r ≠ a) : regAt a = none :=
  List.find?_eq_none.2 (by intro r _; simpa using h r)

@[simp] theorem regAt_regOffset (r : Reg) : regAt (regOffset r) = some r := by cases r <;> decide

/-- The port selects something only for an aligned word access with `rst_n = 1` (R81, R82, R380). -/
theorem portSelect_eq_some {a : Offset} {n : Size} {s : State} {p : Place} (h : portSelect a n s = some p) :
    s.rstN = true ∧ n = .four ∧ a.toNat % 4 = 0 ∧ placeAt s a.toNat = some p := by
  unfold portSelect at h
  split at h
  · next hh =>
    rw [Bool.and_eq_true, Bool.and_eq_true] at hh
    exact ⟨hh.1.1, of_decide_eq_true hh.1.2, of_decide_eq_true hh.2, h⟩
  · cases h

/-- A register's offset selects that register. -/
theorem portSelect_reg {s : State} (h : s.rstN = true) (r : Reg) :
    portSelect (BitVec.ofNat 26 (regOffset r)) .four s = some (.reg r) := by
  cases r <;> simp [portSelect, h, placeAt, regAt, allRegs, regOffset]

/-- An implemented word of an input memory selects that word. -/
theorem portSelect_input {s : State} (hr : s.rstN = true) (hc : capsLegal s) {a : Offset} (h : inputWord s a.toNat) :
    ∃ p, portSelect a .four s = some p ∧
      ((∃ j, p = .coef1 j ∧ a.toNat = coef1Base + 4 * j) ∨ (∃ j, p = .coef2 j ∧ a.toNat = coef2Base + 4 * j) ∨
        (∃ j, p = .ibuf j ∧ a.toNat = ibufBase + 4 * j)) := by
  obtain ⟨c1, c2, c3, c4, c5⟩ := hc
  obtain ⟨h4, h⟩ := h
  have b1 := coef1Base_eq
  have b2 := coef2Base_eq
  have b3 := ibufBase_eq
  unfold portSelect
  rw [if_pos (by simp [hr, h4])]
  unfold placeAt windowWord
  rcases h with h | h | h
  · rw [if_neg (by omega), if_pos (by omega), if_pos (by omega)]
    exact ⟨_, rfl, .inl ⟨_, rfl, by omega⟩⟩
  · rw [if_neg (by omega), if_neg (by omega), if_pos (by omega), if_pos (by omega)]
    exact ⟨_, rfl, .inr (.inl ⟨_, rfl, by omega⟩)⟩
  · rw [if_neg (by omega), if_neg (by omega), if_neg (by omega), if_neg (by omega), if_pos (by omega),
      if_pos (by omega)]
    exact ⟨_, rfl, .inr (.inr ⟨_, rfl, by omega⟩)⟩

/-- An implemented word of OBUF selects that word. -/
theorem portSelect_obuf {s : State} (hr : s.rstN = true) (hc : capsLegal s) {a : Offset} (h : obufWord s a.toNat) :
    ∃ m, portSelect a .four s = some (.obuf m) ∧ a.toNat = obufBase + 4 * m := by
  obtain ⟨c1, c2, c3, c4, c5⟩ := hc
  obtain ⟨h4, h1, h2⟩ := h
  have b4 := obufBase_eq
  have b5 := oMax_eq s
  unfold portSelect
  rw [if_pos (by simp [hr, h4])]
  unfold placeAt windowWord
  rw [if_neg (by omega), if_neg (by omega), if_neg (by omega), if_neg (by omega), if_neg (by omega),
    if_pos (by omega), if_pos (by omega)]
  exact ⟨_, rfl, by omega⟩

/-- A selected memory word is an implemented one (R86). -/
theorem portSelect_range {s : State} {a : Offset} {n : Size} {p : Place} (h : portSelect a n s = some p) :
    (∀ j, p = .coef1 j → j < tMax s) ∧ (∀ j, p = .coef2 j → j < tMax s) ∧ (∀ j, p = .ibuf j → j < nMax s) ∧
      (∀ j, p = .obuf j → j < oMax s / 2) := by
  have h := (portSelect_eq_some h).2.2.2
  unfold placeAt windowWord at h
  split at h
  · cases hr : regAt a.toNat <;> simp [hr] at h
    subst h
    simp
  · repeat' split at h
    all_goals (try cases h)
    all_goals (refine ⟨?_, ?_, ?_, ?_⟩ <;> intro j hj <;> cases hj <;> assumption)

/-! ### The port's operations -/

theorem unlessBusy_of_busy {f : State → State} {s : State} (h : s.status.busy = true) :
    unlessBusy f s = setAccessViol s := if_pos h

theorem unlessBusy_of_idle {f : State → State} {s : State} (h : s.status.busy = false) : unlessBusy f s = f s :=
  if_neg (by simp [h])

/-- A read moves the port's answer and the draw counter, and nothing else (R89). -/
theorem busRead_eq (a : Offset) (n : Size) (s : State) :
    busRead a n s = { s with reply := (busRead a n s).reply, draws := (busRead a n s).draws } := by
  unfold busRead
  split
  · rfl
  · unfold afterRead
    split
    · split <;> rfl
    · rfl

/-- A write that selects nothing is answered ERROR with no effect (R81, R82, R87, R380). -/
theorem busWrite_of_none {a : Offset} {n : Size} {v : Word} {s : State} (h : portSelect a n s = none) :
    busWrite a n v s = .next (answer errorReply s) := by
  simp only [busWrite, h]

/-- A write that selects a place has that place's effect, and is answered OKAY (R159). -/
theorem busWrite_of_some {a : Offset} {n : Size} {v : Word} {s : State} {p : Place} (h : portSelect a n s = some p) :
    busWrite a n v s = mapNext (answer (okayReply 0#32)) (writePlace p v s) := by
  simp only [busWrite, h]

theorem command_of_ok {v : Word} {i : Instr} (h : decode v = .ok i) (s : State) : command v s = exec i s := by
  simp only [command, h]

theorem command_of_error {v : Word} {e : Illegal} (h : decode v = .error e) (s : State) :
    command v s = .next (illegalCommand s) := by
  simp only [command, h]

/-- Byte lane `k` of a word put together from its bytes is the byte of that lane (R84). -/
theorem wordOfBytes_lane (b0 b1 b2 b3 : Byte) {k : Nat} (h : k < 4) :
    (wordOfBytes b0 b1 b2 b3).extractLsb' (8 * k) 8 = [b0, b1, b2, b3].getD k 0 := by
  apply BitVec.eq_of_getLsbD_eq
  intro i hi
  simp only [wordOfBytes, BitVec.getLsbD_append, BitVec.getLsbD_extractLsb']
  interval_cases k
  · simp [hi]
  · have e1 : ¬ 8 * 1 + i < 8 := by omega
    have e2 : 8 * 1 + i - 8 = i := by omega
    simp only [e1, e2, hi, if_true, if_false]
    simp
  · have e1 : ¬ 8 * 2 + i < 8 := by omega
    have e2 : ¬ 8 * 2 + i - 8 < 8 := by omega
    have e3 : 8 * 2 + i - 8 - 8 = i := by omega
    simp only [e1, e2, e3, hi, if_true, if_false]
    simp
  · have e1 : ¬ 8 * 3 + i < 8 := by omega
    have e2 : ¬ 8 * 3 + i - 8 < 8 := by omega
    have e3 : ¬ 8 * 3 + i - 8 - 8 < 8 := by omega
    have e4 : 8 * 3 + i - 8 - 8 - 8 = i := by omega
    simp only [e1, e2, e3, e4, hi, if_true, if_false]
    simp

theorem readWord_lane (mem : List Host.Cell) (a : Nat) {k : Nat} (h : k < 4) :
    (readWord mem a).extractLsb' (8 * k) 8 = readByte mem (a + k) := by
  rw [readWord, wordOfBytes_lane _ _ _ _ h]
  interval_cases k <;> rfl

/-! ### Turns -/

/-- With an empty schedule the ENGINE moves (R163). -/
theorem step_of_agenda_nil {s : State} (h : s.agenda = []) : step s = engineTurn s := by
  unfold step nextTurn
  rw [h]

/-- Otherwise the first entry of the schedule moves, and is taken off it (R18). -/
theorem step_of_agenda_cons {s : State} {t : Turn} {rest : List Turn} (h : s.agenda = t :: rest) :
    step s = turnStep t { s with agenda := rest } := by
  unfold step nextTurn
  rw [h]

theorem engineTurn_of_busy {s : State} (hr : s.rstN = true) (hb : s.status.busy = true) : engineTurn s = engineStep s :=
  if_pos (by simp [hr, hb])

theorem engineTurn_of_idle {s : State} (hb : s.status.busy = false) : engineTurn s = .next s :=
  if_neg (by simp [hb])

theorem engineTurn_of_reset {s : State} (hr : s.rstN = false) : engineTurn s = .next s :=
  if_neg (by simp [hr])

/-- The ENGINE's step at a known stage (R160). -/
theorem engineStep_of_stage {s : State} {k : BitVec 3} (h : s.status.stage = k) :
    engineStep s =
      match k.toNat with
      | 1 => .next (stage1 s)
      | 2 => .next (stage2 s)
      | 3 => .next (stage3 s)
      | 4 => .next (stage4 s)
      | 5 => .next (stage5 s)
      | 6 => .next (stage6 s)
      | _ => .fault .stageNotHeld := by
  subst h
  rfl

theorem nextStage_of_stage {s : State} {k : BitVec 3} (h : s.status.stage = k) :
    nextStage s = { s with status := { s.status with stage := k + 1#3 } } := by
  subst h
  rfl

/-- A read of STATUS, whatever else the schedule holds (R158). -/
theorem busRead_status {s : State} (h : s.rstN = true) :
    busRead (regName .status) .four s = { s with reply := some { data := statusWord s.status, resp := .okay } } := by
  have hp : portSelect (regName .status) .four s = some (.reg .status) := portSelect_reg h .status
  simp only [busRead, hp]
  rfl

end Sys2Proof.Laws
end

