-- ==== Sys2Proof/Laws/PerInstr.lean ====
section
/-! SUPPORT. The statement family over commands, one lemma per constructor: the shape of the encoding (R111, R112). -/

namespace Sys2Proof.Laws.EncodingShape

open Sys2Proof

/-- The word of a command holds its assigned operation code in OP and zero in RSV (R111, R112). -/
def Statement (i : Instr) : Prop :=
  rsvField (encode i) = 0#24 ∧ opField (encode i) = opcode i ∧ (opcode i).toNat ≤ 4 ∧
    wordWellFormed (encode i) = true

theorem nop : Statement .nop := by
  unfold Statement
  decide

theorem run : Statement .run := by
  unfold Statement
  decide

theorem abort : Statement .abort := by
  unfold Statement
  decide

theorem clear : Statement .clear := by
  unfold Statement
  decide

theorem srst : Statement .srst := by
  unfold Statement
  decide

end Sys2Proof.Laws.EncodingShape
end

