-- ==== Sys2Proof/Laws/Stages.lean ====
section
/-! SUPPORT. The laws of the stage functions: lengths, the two sums of a shifted sample, and the packing of PCM. -/

namespace Sys2Proof.Laws

open Sys2Proof Sys2Proof.Machine

/-! ### One sample of SHIFT -/

theorem shiftOne_re (F : Int) (R p0 i : Nat) (w : Word) :
    (shiftOne F R p0 i w).re =
      fsub (fmul (iqCplx w).re (ncoFn (phaseIndex F R p0 i) R).1)
        (fmul (iqCplx w).im (ncoFn (phaseIndex F R p0 i) R).2) := by
  simp only [shiftOne]

theorem shiftOne_im (F : Int) (R p0 i : Nat) (w : Word) :
    (shiftOne F R p0 i w).im =
      fadd (fmul (iqCplx w).re (ncoFn (phaseIndex F R p0 i) R).2)
        (fmul (iqCplx w).im (ncoFn (phaseIndex F R p0 i) R).1) := by
  simp only [shiftOne]

/-! ### Lengths (R147) -/

@[simp] theorem shift_length (F : Int) (R p0 : Nat) (s : List Word) : (shift F R p0 s).length = s.length := by
  simp [shift]

@[simp] theorem decimR_length (x h : List F64) (d : Nat) : (decimR x h d).length = ceilDiv x.length d := by
  simp [decimR]

@[simp] theorem decimC_length (z : List Cplx) (h : List F64) (d : Nat) :
    (decimC z h d).length = ceilDiv z.length d := by
  simp [decimC]

@[simp] theorem discrimBuf_length (w : List Cplx) : (discrimBuf w).length = w.length - 1 := by
  simp [discrimBuf]

@[simp] theorem deemph_length (x b0 : F64) (u : List F64) (y : F64) : (deemph x b0 y u).length = u.length := by
  induction u generalizing y with
  | nil => rfl
  | cons v us ih => simp [deemph, ih]

@[simp] theorem normalizeBuf_length (y : List F64) (rnd : Bool) : (normalizeBuf y rnd).pcm.length = y.length := by
  unfold normalizeBuf
  dsimp only
  split <;> simp

/-! ### PCM words (R117) -/

@[simp] theorem packPcm_length : ∀ l : List (BitVec 16), (packPcm l).length = (l.length + 1) / 2
  | [] => by simp [packPcm]
  | [_] => by simp [packPcm]
  | _ :: _ :: rest => by
    simp only [packPcm, List.length_cons, packPcm_length rest]
    omega

@[simp] theorem flatMap_bytesOfWord_length (l : List Word) : (l.flatMap bytesOfWord).length = 4 * l.length := by
  induction l with
  | nil => rfl
  | cons a l ih =>
    simp only [List.flatMap_cons, List.length_append, bytesOfWord_length, ih, List.length_cons]
    omega

theorem pcmWord_even (p q : BitVec 16) : (pcmWord p q).extractLsb' 0 16 = p := by
  apply BitVec.eq_of_getLsbD_eq
  intro i hi
  rw [pcmWord, BitVec.getLsbD_extractLsb', BitVec.getLsbD_append]
  simp [hi]

theorem pcmWord_odd (p q : BitVec 16) : (pcmWord p q).extractLsb' 16 16 = q := by
  apply BitVec.eq_of_getLsbD_eq
  intro i hi
  rw [pcmWord, BitVec.getLsbD_extractLsb', BitVec.getLsbD_append]
  simp [hi]

/-- Sample `k` stands in word `k / 2` of the packed buffer. -/
theorem packPcm_getElem? : ∀ (l : List (BitVec 16)) (k : Nat) (hk : k < l.length),
    ∃ w, (packPcm l)[k / 2]? = some w ∧ pcmOfWord k w = l[k].toInt
  | [_], 0, _ => ⟨_, rfl, congrArg BitVec.toInt (pcmWord_even _ _)⟩
  | _ :: _ :: _, 0, _ => ⟨_, rfl, congrArg BitVec.toInt (pcmWord_even _ _)⟩
  | _ :: _ :: _, 1, _ => ⟨_, rfl, congrArg BitVec.toInt (pcmWord_odd _ _)⟩
  | _ :: _ :: rest, k + 2, h => by
    obtain ⟨w, h1, h2⟩ := packPcm_getElem? rest k (by simpa using h)
    refine ⟨w, ?_, ?_⟩
    · rw [show (k + 2) / 2 = k / 2 + 1 by omega]
      simpa [packPcm] using h1
    · unfold pcmOfWord at *
      rw [show (k + 2) % 2 = k % 2 by omega]
      simpa using h2

/-- Byte lane `k` of word `m` in the bytes of a list of words. -/
theorem flatMap_bytesOfWord_getElem? : ∀ (l : List Word) (m : Nat) (w : Word), l[m]? = some w →
    ∀ k, k < 4 → (l.flatMap bytesOfWord)[4 * m + k]? = some (byteLane w k)
  | a :: l, 0, w, h, k, hk => by
    simp at h
    subst h
    interval_cases k <;> rfl
  | a :: l, m + 1, w, h, k, hk => by
    have := flatMap_bytesOfWord_getElem? l m w (by simpa using h) k hk
    rw [List.flatMap_cons, show 4 * (m + 1) + k = (bytesOfWord a).length + (4 * m + k) by simp; omega,
      List.getElem?_append_right (by simp)]
    simpa using this

/-- The two halves of a binary64 encoding, put together, are the encoding (R118). -/
theorem peakHiOf_append_peakLoOf (b : F64) : peakHiOf b ++ peakLoOf b = b := by
  apply BitVec.eq_of_getLsbD_eq
  intro i hi
  rw [BitVec.getLsbD_append, peakHiOf, peakLoOf, BitVec.getLsbD_extractLsb', BitVec.getLsbD_extractLsb']
  by_cases h : i < 32
  · simp [h]
  · have h1 : 32 + (i - 32) = i := by omega
    have h2 : i - 32 < 32 := by omega
    simp [h, h1, h2]

end Sys2Proof.Laws
end

