-- ==== Sys2Proof/Tests/Slice0.lean ====
section
/-! SUPPORT. Tests on fixed values, each with the vector of spec/95_test_vectors.md or the rule's own example it takes its
expected value from, and, for every statement with hypotheses, a named witness that meets them. -/

namespace Sys2Proof.Tests

open Sys2Proof Sys2Proof.Machine Sys2Proof.Safety Sys2Proof.Laws

/-! ### Well-formedness and decoding -/

/-- K14: RSV is not zero. -/
theorem test_rsvZero_refuses : rsvZero 0x00000105#32 = false ∧ wordWellFormed 0x00000105#32 = false := by decide

/-- R113: OP `0x05` and OP `0xFF` are not assigned. -/
theorem test_opAssigned_refuses :
    opAssigned 0x00000005#32 = false ∧ wordWellFormed 0x00000005#32 = false ∧ opAssigned 0x000000FF#32 = false := by
  decide

/-- R112: the five words. -/
theorem test_wordWellFormed :
    ([0x0#32, 0x1#32, 0x2#32, 0x3#32, 0x4#32].all wordWellFormed) = true := by decide

/-- R111, R112: RSV and OP written out bit by bit. -/
theorem test_decode_nop : decode (0b000000000000000000000000#24 ++ 0b00000000#8) = .ok .nop := by decide
theorem test_decode_run : decode (0b000000000000000000000000#24 ++ 0b00000001#8) = .ok .run := by decide
theorem test_decode_abort : decode (0b000000000000000000000000#24 ++ 0b00000010#8) = .ok .abort := by decide
theorem test_decode_clear : decode (0b000000000000000000000000#24 ++ 0b00000011#8) = .ok .clear := by decide
theorem test_decode_srst : decode (0b000000000000000000000000#24 ++ 0b00000100#8) = .ok .srst := by decide

/-- R113, K14, K15: boundary words that are illegal. -/
theorem test_decode_illegal :
    decode 0x00000005#32 = .error .unassignedOp ∧ decode 0x000000FF#32 = .error .unassignedOp ∧
    decode 0x00000100#32 = .error .reservedBits ∧ decode 0x80000001#32 = .error .reservedBits := by decide

/-- The table's words, read through the byte order. -/
theorem test_decodeTableWord :
    decodeTableWord 32 0 = some .nop ∧ decodeTableWord 32 3 = some .clear ∧ decodeTableWord 32 0x105 = none ∧
    decodeTableWord 8 4 = some .srst := by decide

/-! ### States -/

/-- The default configuration of the check vectors Q: `R = 200000`, `N = 1024`, `T1 = T2 = 1`, both taps `1.0`. -/
def idle : State :=
  { State.reset with
    rate := 200000#32, nsamp := 1024#32, ntaps1 := 1#32, ntaps2 := 1#32
    mem := writeWord (writeWord [] 0x00010000 0x3F800000#32) 0x00020000 0x3F800000#32 }

/-- The run parameters of a RUN of `idle`, and its working buffers as the stages compute them. -/
def runP : RunParams := runParamsOf idle
def bufW1 : List Cplx := shift runP.f runP.r 0 (ibufWords idle runP.n)
def bufW2 : List Cplx := decimC bufW1 ((coef1Words idle runP.t1).map f32to64) runP.d1
def bufW3 : List F64 := discrimBuf bufW2
def bufW4 : List F64 := deemph runP.x runP.b0 fZero bufW3
def bufW5 : List F64 := decimR bufW4 ((coef2Words idle runP.t2).map f32to64) runP.d2

/-- A RUN of `idle` whose next stage is `k`. -/
def running (k : BitVec 3) : State :=
  { idle with
    status := { Status.reset with busy := true, stage := k }
    d1 := 1#32, d2 := 4#32, len1 := 1024#32, outlen := 256#32
    hidden := { w1 := bufW1, w2 := bufW2, w3 := bufW3, w4 := bufW4, w5 := bufW5, run := runP, hist := histStart } }

/-- `idle` with RATE, NSAMP, NTAPS1 and NTAPS2 replaced. -/
def config (r n t1 t2 : Word) : State := { idle with rate := r, nsamp := n, ntaps1 := t1, ntaps2 := t2 }

/-- STATUS and IRQ_STAT after an outcome, as the HOST reads them. -/
def flagsOf : Host.Outcome State Fault Refusal → Option (Word × BitVec 2)
  | .next t => some (statusWord t.status, t.irqStat)
  | .fault _ => none
  | .refused _ => none

/-- The port's answer after an outcome. -/
def replyOf : Host.Outcome State Fault Refusal → Option Reply
  | .next t => t.reply
  | .fault _ => none
  | .refused _ => none

/-- `idle` with the flags DONE and SILENT, STATUS `0x0000000A`. -/
def doneSilent : State := { idle with status := { Status.reset with done := true, silent := true } }

/-! ### Commands -/

/-- K2: NOP while busy. -/
theorem test_nop_busy : flagsOf (exec .nop (running 1#3)) = some (0x00000101#32, 0#2) := by decide

/-- K3 with `R = 200000`: an accepted RUN. -/
theorem test_run_accepted : flagsOf (exec .run doneSilent) = some (0x00000101#32, 0#2) := by decide

/-- K4: RATE below 200000. -/
theorem test_run_fails :
    flagsOf (exec .run { doneSilent with rate := 150000#32 }) = some (0x00040004#32, 0b10#2) := by decide

/-- K6, K7: ABORT while idle and while busy. -/
theorem test_abort_idle : flagsOf (exec .abort State.reset) = some (0x00000000#32, 0#2) := by decide
theorem test_abort_busy : flagsOf (exec .abort (running 5#3)) = some (0x00110004#32, 0b10#2) := by decide

/-- K9, K10: CLEAR while idle and while busy. -/
theorem test_clear_idle :
    flagsOf (exec .clear { idle with status := { Status.reset with accessViol := true, cmdIgnored := true } }) =
      some (0x00000000#32, 0#2) := by decide
theorem test_clear_busy : flagsOf (exec .clear (running 2#3)) = some (0x00000221#32, 0#2) := by decide

/-- K11, K12: SRST while busy and while idle. -/
theorem test_srst_busy : flagsOf (exec .srst (running 4#3)) = some (0x00000000#32, 0#2) := by decide
theorem test_srst_idle : flagsOf (exec .srst doneSilent) = some (0x00000000#32, 0#2) := by decide

/-- K13, K16: an illegal word while idle and while busy, through a step. -/
theorem test_illegal_idle : flagsOf (step (doneSilent.withFetchWord 32 7)) = some (0x0010000C#32, 0b10#2) := by decide
theorem test_illegal_busy : flagsOf (step ((running 6#3).withFetchWord 32 0xFF)) = some (0x00000621#32, 0#2) := by
  decide

/-- K5: RUN while busy, as the first step after the command is placed. -/
theorem test_run_busy : flagsOf (step ((running 3#3).withFetchWord 32 1)) = some (0x00000321#32, 0#2) := by decide

/-- Q3, R142: a RUN right after reset fails with `0x01`. -/
theorem test_run_after_reset : flagsOf (step (State.reset.withFetchWord 32 1)) = some (0x00010004#32, 0b10#2) := by
  decide

/-! ### Configuration (40_control.md R143 to R147) -/

/-- Q3, Q4, Q6, Q8: window and rate. -/
theorem test_check_window :
    check (config 0#32 0#32 1#32 1#32) = 0x01#8 ∧ check (config 0#32 1000#32 1#32 1#32) = 0x02#8 ∧
    check (config 1200000#32 2098176#32 1#32 1#32) = 0x03#8 ∧ check (config 199999#32 1024#32 1#32 1#32) = 0x04#8 := by
  decide

/-- Q7, Q9, Q16: the bounds are inclusive. -/
theorem test_check_bounds :
    check (config 1200000#32 2097152#32 1#32 1#32) = 0x00#8 ∧ check (config 200000#32 1024#32 1#32 1#32) = 0x00#8 ∧
    check (config 204799999#32 1024#32 1#32 1#32) = 0x00#8 := by decide

/-- Q11, Q13, Q14, Q15: taps and the short window. -/
theorem test_check_taps :
    check (config 1200000#32 1024#32 1025#32 1#32) = 0x06#8 ∧ check (config 1200000#32 1024#32 0#32 0#32) = 0x06#8 ∧
    check (config 1200000#32 1024#32 1#32 0#32) = 0x07#8 ∧ check (config 204800000#32 1024#32 1#32 1#32) = 0x08#8 := by
  decide

/-- Q12 with `T_MAX = 1`: `T1 = T_MAX` passes, `T1 = T_MAX + 1` does not. -/
theorem test_check_tMax :
    check { idle with paramTmax := 1#32 } = 0x00#8 ∧ check { idle with paramTmax := 1#32, ntaps1 := 2#32 } = 0x06#8 := by
  decide

/-- Q18, Q19, Q22: non-finite taps, and a finite `-0`. -/
theorem test_check_nonfinite :
    check { idle with mem := writeWord idle.mem 0x00010000 0x7F800000#32 } = 0x09#8 ∧
    check { idle with mem := writeWord idle.mem 0x00020000 0xFFC00001#32 } = 0x09#8 ∧
    check { idle with mem := writeWord idle.mem 0x00010000 0x80000000#32 } = 0x00#8 := by decide

/-- V1: factors and lengths of the source's example. -/
theorem test_lengths :
    factor1 1200000 = 6 ∧ factor2 1200000 = 4 ∧ length1 1177600 1200000 = 196267 ∧
    length2 1177600 1200000 = 196266 ∧ length3 1177600 1200000 = 49067 := by decide

/-- V3: the exponent of the de-emphasis pole. -/
theorem test_deemphArg :
    deemphArg 1200000 6 = 0xBFB1111111111111#64 ∧ deemphArg 1102500 5 = 0xBFAEF5BE98DD5D13#64 := by decide +kernel

/-! ### Port, registers and interrupts -/

/-- B1, B2, B3, B5: ID, a misaligned and a narrow read, an unmapped offset. -/
theorem test_port_reads :
    replyOf (afterHost (.read 0x0000#26 .four) idle) = some { data := 0x464D0001#32, resp := .okay } ∧
    replyOf (afterHost (.read 0x0002#26 .four) idle) = some { data := 0#32, resp := .error } ∧
    replyOf (afterHost (.read 0x0008#26 .two) idle) = some { data := 0#32, resp := .error } ∧
    replyOf (afterHost (.read 0x0018#26 .four) idle) = some { data := 0#32, resp := .error } := by decide

/-- B7, B9, and R86's last words: the edges of IBUF, COEF1 and OBUF. -/
theorem test_port_edges :
    placeAt idle 0x01800000 = none ∧ placeAt idle 0x017FFFFC = some (.ibuf 2097151) ∧ placeAt idle 0x00011000 = none ∧
    placeAt idle 0x00010FFC = some (.coef1 1023) ∧ placeAt idle 0x020FFFFC = some (.obuf 262143) ∧
    placeAt idle 0x02100000 = none := by decide

/-- B26: byte lanes of a stored IQ sample word. -/
theorem test_byte_lanes :
    (List.range 4).map (fun k => readByte (writeWord [] 0x01000000 0xFC1803E8#32) (0x01000000 + k)) =
      [0xE8#8, 0x03#8, 0x18#8, 0xFC#8] := by decide

/-- B26, B27, B28: the fields of IQ sample words. -/
theorem test_iq_fields :
    (iqI 0xFC1803E8#32, iqQ 0xFC1803E8#32) = (1000, -1000) ∧ (iqI 0x80007FFF#32, iqQ 0x80007FFF#32) = (32767, -32768) ∧
    (iqI 0xFFFF8000#32, iqQ 0xFFFF8000#32) = (-32768, -1) := by decide

/-- B16, B17: write-1-to-clear. -/
theorem test_irqStat_write :
    flagsOf (afterHost (.write 0x0010#26 .four 0x00000002#32) { idle with irqStat := 0b11#2 }) = some (0#32, 0b01#2) ∧
    flagsOf (afterHost (.write 0x0010#26 .four 0xFFFFFFFC#32) { idle with irqStat := 0b01#2 }) = some (0#32, 0b01#2) := by
  decide

/-- B18, B23: a dropped write sets ACCESS_VIOL, a write to OBUF does not. -/
theorem test_busy_writes :
    flagsOf (afterHost (.write 0x0020#26 .four 400000#32) (running 1#3)) = some (0x00000111#32, 0#2) ∧
    flagsOf (afterHost (.write 0x02000000#26 .four 1#32) (running 1#3)) = some (0x00000101#32, 0#2) := by decide

/-- The interrupt table of 95_test_vectors.md section 2.2. -/
theorem test_irq_table :
    ([(0, 3), (1, 0), (1, 2), (1, 1), (1, 3), (2, 0), (2, 1), (2, 2), (2, 3), (3, 0), (3, 1), (3, 2), (3, 3)].map
      (fun p : Nat × Nat => irq { idle with irqStat := BitVec.ofNat 2 p.1, irqEn := BitVec.ofNat 2 p.2 })) =
      [false, false, false, true, true, false, false, true, true, false, true, true, true] := by decide

/-- P4: PEAK and the other result registers after the acceptance of `idle`'s RUN. -/
theorem test_acceptance_registers :
    (startRun idle).d1 = 1#32 ∧ (startRun idle).d2 = 4#32 ∧ (startRun idle).len1 = 1024#32 ∧
    (startRun idle).outlen = 256#32 ∧ (startRun idle).peakLo = 0#32 := by decide

/-! ### Stages -/

/-- R198, S1: a quarter-rate shift. -/
theorem test_shift :
    shift 50000 200000 0 (List.replicate 4 (iqWord 3 4)) =
      [⟨f64 3, f64 4⟩, ⟨f64 4, f64 (-3)⟩, ⟨f64 (-3), f64 (-4)⟩, ⟨f64 (-4), f64 3⟩] := by decide +kernel

/-- S6: the zero sample at index 2 gives `(-0, +0)`. -/
theorem test_shift_zero :
    (shift 50000 200000 0 (List.replicate 3 0#32)).getLast? = some ⟨fNegZero, fZero⟩ := by decide +kernel

/-- S12, S13: the phase index of extreme offsets. -/
theorem test_phase :
    phaseIndex 2147483647 1200000 0 1 = 683647 ∧ phaseIndex (-2147483648) 1200000 0 1 = 516352 := by decide

/-- F1 (R223) and F3 (R285): decimation. -/
theorem test_decim :
    decimR ([1, 2, 3, 4, 5, 6, 7].map f64) [0x3FD0000000000000#64, fHalf, 0x3FD0000000000000#64] 3 =
      [0x3FD0000000000000#64, f64 3, f64 6] := by decide +kernel

/-- F2 (R213): the summation order. -/
theorem test_decim_order :
    decimR [fOne, 0x4341C37937E08000#64, 0xC341C37937E08000#64] [fOne, fOne, fOne] 1 =
      [fOne, 0x4341C37937E08000#64, fOne] := by decide +kernel

/-- F8: a `-0` input gives `+0`. -/
theorem test_decim_zero : decimR [fNegZero, fNegZero, f64 5] [fOne] 1 = [fZero, fZero, f64 5] := by decide +kernel

/-- P1v to P4v, and P2v's half turn. -/
theorem test_discrim :
    discrimBuf [⟨fOne, fZero⟩, ⟨fOne, fZero⟩] = [fZero] ∧ discrimBuf [⟨fOne, fZero⟩, ⟨fNegOne, fZero⟩] = [pi64] ∧
    discrimBuf [⟨fOne, fZero⟩, ⟨fZero, fOne⟩] = [pi64Half] ∧
    discrimBuf [⟨fOne, fZero⟩, ⟨fZero, fNegOne⟩] = [negPi64Half] := by decide +kernel

/-- E1 and E3 (R268), the coefficients as given there. -/
theorem test_deemph :
    deemph 0x3FEDEFAC583C7DD4#64 0x3FB0829D3E1C1160#64 fZero [fOne, fZero, fZero] =
      [0x3FB0829D3E1C1160#64, 0x3FAEE40DE489CAEA#64, 0x3FACE60A3DD7FCB2#64] ∧
    deemph 0x3FEDEFAC583C7DD4#64 0x3FB0829D3E1C1160#64 fZero [pi64Half, negPi64Half, fZero] =
      [0x3FB9EF266D52C68D#64, 0xBF7AC2DC64E04B70#64, 0xBF7909073AA7C274#64] := by decide +kernel

/-- N1 (R311): ties and truncation. -/
theorem test_normalize :
    let y := [f10000, 0x4004000000000000#64, 0xC004000000000000#64, 0x400C000000000000#64, 0xBFE0000000000000#64,
      0x3FF7FF972474538F#64]
    (normalizeBuf y false).pcm.map BitVec.toInt = [10000, 2, -2, 4, 0, 1] ∧
    (normalizeBuf y true).pcm.map BitVec.toInt = [10000, 2, -2, 3, 0, 1] := by decide +kernel

/-- N6 (R310) and N9: subnormal data, and zeros of both signs. -/
theorem test_normalize_subnormal :
    (normalizeBuf [0x0000000000000001#64, fZero, 0x8000000000000001#64] false).pcm.map BitVec.toInt = [10000, 0, -10000] ∧
    (normalizeBuf [fNegZero, fZero] false).silent = true := by decide +kernel

/-- N2 stored (R311): packing, and the upper half of an odd tail. -/
theorem test_packing :
    packPcm [BitVec.ofInt 16 5000, BitVec.ofInt 16 (-10000), BitVec.ofInt 16 2500] = [0xD8F01388#32, 0x000009C4#32] := by
  decide

/-- R305: the clamp and the NaN. -/
theorem test_sat16 :
    sat16 (.int (-32769)) = -32768 ∧ sat16 (.int 32768) = 32767 ∧ sat16 (.int (-32768)) = -32768 ∧ sat16 .nan = 0 := by
  decide

/-- R116: `1.0`, `0.5`, `-1.0` and the smallest subnormal `2^-149`. -/
theorem test_f32 :
    f32to64 0x3F800000#32 = fOne ∧ f32to64 0x3F000000#32 = fHalf ∧ f32to64 0xBF800000#32 = fNegOne ∧
    f32to64 0x00000001#32 = 0x36A0000000000000#64 := by decide +kernel

/-! ### Legal states -/

theorem idle_capsLegal : capsLegal idle := by
  unfold capsLegal
  decide

theorem idle_memLegal : memLegal idle := by
  unfold memLegal inMemory
  decide

theorem idle_inv : Inv idle where
  caps := idle_capsLegal
  status := by unfold statusLegal; decide
  mem := idle_memLegal
  run := fun h => absurd h (by decide)
  data := fun h => absurd h (by decide)

theorem running_runLegal (k : BitVec 3) : runLegal (running k) := by
  refine ⟨?_, rfl, ?_, ?_, ?_, ?_, rfl, rfl, rfl⟩
  · change check idle = codeNone
    decide
  · change 1#32 = BitVec.ofNat 32 (factor1 (opR idle))
    decide
  · change 4#32 = BitVec.ofNat 32 (factor2 (opR idle))
    decide
  · change 1024#32 = BitVec.ofNat 32 (length1 (opN idle) (opR idle))
    decide
  · change 256#32 = BitVec.ofNat 32 (length3 (opN idle) (opR idle))
    decide

theorem running_stageData (k : BitVec 3) : stageData (running k) := by
  have hi : ∀ n, ibufWords (running k) n = ibufWords idle n := fun _ => rfl
  have h1 : ∀ n, coef1Words (running k) n = coef1Words idle n := fun _ => rfl
  have h2 : ∀ n, coef2Words (running k) n = coef2Words idle n := fun _ => rfl
  unfold stageData
  simp only [hi, h1, h2]
  simp only [running]
  refine ⟨fun _ => rfl, fun _ => rfl, fun _ => ?_, fun _ => ?_, fun _ => ?_, fun _ => ?_, fun _ => ?_⟩
  · rw [bufW1]
  · rw [bufW2]
  · rw [bufW3]
  · rw [bufW4]
  · rw [bufW5]

/-- `running k` is legal for every stage `k` a RUN holds. -/
theorem running_inv (k : BitVec 3) (h0 : k ≠ 0#3) (h7 : k ≠ 7#3) : Inv (running k) where
  caps := idle_capsLegal
  status := ⟨by change ¬(false = true ∧ false = true); decide, fun _ => ⟨rfl, rfl⟩, ⟨fun _ => rfl, fun _ => h0⟩, h7, ⟨fun _ => rfl, fun _ => rfl⟩,
    List.mem_cons_self ..⟩
  mem := idle_memLegal
  run := fun _ => running_runLegal k
  data := fun _ => running_stageData k

/-! ### Witnesses of the statements' hypotheses -/

theorem witness_DecodeEncodeAgree : Instr.wellFormed .srst = true ∧ decode 0x00000004#32 = .ok .srst := by decide

theorem witness_StepRunsDecodedCommand :
    idle.rstN = true ∧ decode 0x00000001#32 = .ok .run ∧ Instr.wellFormed .run = true := by decide

theorem witness_RunIsAccepted : idle.status.busy = false ∧ check idle = 0x00#8 := by decide

theorem witness_RunReportsConfigurationError :
    State.reset.status.busy = false ∧ check State.reset ≠ 0x00#8 := by decide

/-- The least and the greatest rate an accepted RUN of 1024 samples can have. -/
theorem witness_AcceptedRunRanges :
    check idle = 0x00#8 ∧ check (config 204799999#32 1024#32 1#32 1#32) = 0x00#8 := by decide

theorem witness_AbortEndsTheRun : idle.status.busy = false ∧ (running 1#3).status.busy = true ∧
    (running 6#3).status.busy = true := by decide

theorem witness_ClearClearsTheFlags : doneSilent.status.busy = false := by decide

theorem witness_SrstResetsTheRegisters : idle.status.busy = false ∧ (running 3#3).status.busy = true := by decide

theorem witness_IllegalCommandWhileIdle :
    idle.rstN = true ∧ idle.status.busy = false ∧ decode 0x00000105#32 = .error .reservedBits ∧
    decode 0x00000005#32 = .error .unassignedOp := by decide

theorem witness_CommandsWhileBusyAreIgnored :
    (running 2#3).status.busy = true ∧ (running 2#3).rstN = true ∧ decode 0x000000FF#32 = .error .unassignedOp := by
  decide

theorem witness_CommandFrames :
    (Instr.run ≠ .srst ∧ exec .run idle = .next (startRun idle)) ∧
    (Instr.abort ≠ .srst ∧ exec .abort (running 4#3) = .next (abortRun (running 4#3))) :=
  ⟨⟨by decide, rfl⟩, by decide, rfl⟩

theorem witness_NarrowAndMisalignedAccessesAreErrors :
    Size.two ≠ .four ∧ Size.one ≠ .four ∧ (0x0000001#26).extractLsb' 0 2 ≠ 0#2 ∧
    (0x0000003#26).extractLsb' 0 2 ≠ 0#2 := by decide

/-- An unmapped register offset, the words just past COEF1, COEF2, IBUF and OBUF, and the ends of the reserved ranges. -/
theorem witness_UnmappedOffsetsAreErrors :
    capsLegal idle ∧ (∀ r : Reg, regOffset r ≠ (0x0000018#26).toNat) ∧ ¬ inMemory idle (0x0000018#26).toNat ∧
    ¬ inMemory idle (0x0011000#26).toNat ∧ ¬ inMemory idle (0x0021000#26).toNat ∧
    ¬ inMemory idle (0x1800000#26).toNat ∧ ¬ inMemory idle (0x2100000#26).toNat ∧
    (0x00030000 ≤ (0x0030000#26).toNat ∧ (0x0FFFFFF#26).toNat ≤ 0x00FFFFFF) ∧
    0x03000000 ≤ (0x3000000#26).toNat ∧ 0x03000000 ≤ (0x3FFFFFF#26).toNat := by
  refine ⟨idle_capsLegal, fun r => by cases r <;> decide, ?_⟩
  unfold inMemory
  decide

theorem witness_RegisterReads : idle.rstN = true ∧ (running 1#3).rstN = true := by decide

theorem witness_InterruptRegisterWrites : (running 1#3).rstN = true := by decide

theorem witness_ConfigurationWrites : idle.rstN = true ∧ idle.status.busy = false := by decide

/-- CFG, and the first and last words of the input memories. -/
theorem witness_WritesWhileBusyAreDropped :
    capsLegal (running 1#3) ∧ (running 1#3).rstN = true ∧ (running 1#3).status.busy = true ∧
    0x0000014#26 ∈ [0x0014#26, 0x0020#26, 0x0024#26, 0x0028#26, 0x002C#26, 0x0030#26] ∧
    inputWord (running 1#3) (0x0010000#26).toNat ∧ inputWord (running 1#3) (0x0010FFC#26).toNat ∧
    inputWord (running 1#3) (0x0020FFC#26).toNat ∧ inputWord (running 1#3) (0x17FFFFC#26).toNat := by
  refine ⟨idle_capsLegal, ?_⟩
  unfold inputWord
  decide

/-- A read-only register, and the first and last words of OBUF. -/
theorem witness_ReadOnlyWritesAreIgnored :
    capsLegal idle ∧ idle.rstN = true ∧
    0x000005C#26 ∈ [0x0000#26, 0x0008#26, 0x0040#26, 0x0044#26, 0x0048#26, 0x004C#26, 0x0050#26, 0x0054#26, 0x0058#26,
      0x005C#26] ∧
    obufWord idle (0x2000000#26).toNat ∧ obufWord idle (0x20FFFFC#26).toNat := by
  refine ⟨idle_capsLegal, ?_⟩
  unfold obufWord
  decide

theorem witness_MemoryReads :
    capsLegal idle ∧ idle.rstN = true ∧ inputWord idle (0x1000000#26).toNat ∧ inputWord idle (0x17FFFFC#26).toNat ∧
    obufWord idle (0x20FFFFC#26).toNat ∧ idle.status.busy = false := by
  refine ⟨idle_capsLegal, ?_⟩
  unfold inputWord obufWord
  decide

theorem witness_ObufReadsWhileBusy :
    capsLegal (running 5#3) ∧ (running 5#3).rstN = true ∧ (running 5#3).status.busy = true ∧
    obufWord (running 5#3) (0x2000000#26).toNat := by
  refine ⟨idle_capsLegal, ?_⟩
  unfold obufWord
  decide

theorem witness_InputWritesAreReadBack :
    capsLegal idle ∧ idle.rstN = true ∧ idle.status.busy = false ∧ inputWord idle (0x0020FFC#26).toNat ∧
    inputWord idle (0x1000000#26).toNat := by
  refine ⟨idle_capsLegal, ?_⟩
  unfold inputWord
  decide

theorem witness_ReadsHaveNoSideEffect :
    (idle.status.busy = false ∧ capsLegal idle) ∧
    ¬ obufWord (running 1#3) (0x2100000#26).toNat ∧ capsLegal (running 1#3) := by
  refine ⟨⟨rfl, idle_capsLegal⟩, ?_, idle_capsLegal⟩
  unfold obufWord
  decide

theorem witness_HostCannotDisturbARun :
    (running 1#3).status.busy = true ∧
    ∃ t, afterHost (.write 0x0000020#26 .four 400000#32) (running 1#3) = .next t ∧ t.status.busy = true :=
  ⟨rfl, _, rfl, rfl⟩

theorem witness_ResetHoldsThePortAndTheEngine : (assertReset idle).rstN = false := rfl

theorem witness_EngineStagesFillBuffers :
    ∀ k ∈ [1#3, 2#3, 3#3, 4#3, 5#3],
      (running k).rstN = true ∧ (running k).status.busy = true ∧ (running k).status.stage = k := by decide

theorem witness_EngineStageSixCompletes :
    (running 6#3).rstN = true ∧ (running 6#3).status.busy = true ∧ (running 6#3).status.stage = 6#3 := by decide

theorem witness_StageOrderIsFixed :
    (Inv (running 1#3) ∧ (running 1#3).status.busy = true ∧ (running 1#3).status.stage.toNat < 6) ∧
    (Inv (running 5#3) ∧ (running 5#3).status.stage.toNat < 6) ∧
    Inv (running 6#3) ∧ (running 6#3).status.busy = true ∧ (running 6#3).status.stage = 6#3 :=
  ⟨⟨running_inv _ (by decide) (by decide), rfl, by decide⟩, ⟨running_inv _ (by decide) (by decide), by decide⟩,
    running_inv _ (by decide) (by decide), rfl, rfl⟩

theorem witness_EngineFrame :
    Inv (running 2#3) ∧ (running 2#3).status.busy = true ∧ ∃ t, afterEngine (running 2#3) = .next t :=
  ⟨running_inv _ (by decide) (by decide), rfl, _, rfl⟩

theorem witness_RunEndsAfterSixSteps :
    Inv (running 1#3) ∧ Inv (running 6#3) ∧ (running 1#3).status.busy = true ∧ (running 6#3).status.busy = true ∧
    (running 1#3).agenda = [] ∧ (running 6#3).agenda = [] :=
  ⟨running_inv _ (by decide) (by decide), running_inv _ (by decide) (by decide), rfl, rfl, rfl, rfl⟩

theorem witness_WaitIdleEndsWithTheRun :
    Inv { running 1#3 with agenda := [waitIdle] } ∧ ({ running 1#3 with agenda := [waitIdle] } : State).status.busy = true ∧
    ({ running 1#3 with agenda := [waitIdle] } : State).agenda = [waitIdle] := by
  have h := running_inv 1#3 (by decide) (by decide)
  exact ⟨⟨h.caps, h.status, h.mem, h.run, h.data⟩, rfl, rfl⟩

theorem witness_SixStepsComputeDemod :
    Inv idle ∧ idle.status.busy = false ∧ idle.rstN = true ∧ idle.agenda = [] ∧ check idle = 0x00#8 :=
  ⟨idle_inv, rfl, rfl, rfl, by decide⟩

/-- Two states that differ in what is no input of a RUN. -/
theorem witness_CompletedRunsAreDeterministic :
    let u : State := { idle with irqEn := 0b11#2, irqStat := 0b10#2, draws := 7 }
    Inv idle ∧ Inv u ∧ idle ≠ u ∧ idle.status.busy = false ∧ u.status.busy = false ∧ idle.rstN = true ∧ u.rstN = true ∧
    idle.agenda = [] ∧ u.agenda = [] ∧ check idle = 0x00#8 ∧ check u = 0x00#8 ∧ SameInputs idle u :=
  ⟨idle_inv, ⟨idle_inv.caps, idle_inv.status, idle_inv.mem, fun h => absurd h (by decide), fun h => absurd h (by decide)⟩,
    fun h => absurd (congrArg State.draws h) (by decide), rfl, rfl, rfl, rfl, rfl, rfl, by decide, by decide,
    ⟨rfl, rfl, rfl, rfl, rfl, rfl, rfl, rfl, rfl⟩⟩

theorem witness_StepKeepsInvariant :
    Inv (running 3#3) ∧ ∃ t, step (running 3#3) = .next t :=
  ⟨running_inv _ (by decide) (by decide), _, rfl⟩

theorem witness_LegalStatesNeverStop : Inv idle ∧ Inv (running 6#3) :=
  ⟨idle_inv, running_inv _ (by decide) (by decide)⟩

/-- A tie between 0 and one unit, and the largest finite value. -/
theorem witness_RoundingIsNearestEven :
    (0 < 2 ∧ 1 ≤ 2 * unitsOfMag (infMag - 1)) ∧ (0 < 1 ∧ unitsOfMag (infMag - 1) ≤ 1 * unitsOfMag (infMag - 1)) := by
  refine ⟨⟨by decide, ?_⟩, by decide, by omega⟩
  have : unitsOfMag 0 < unitsOfMag (infMag - 1) := unitsOfMag_strictMono (by decide)
  omega

/-- The units of `1.0`, of `-1.0` and of the largest finite value. -/
theorem units_fOne : units fOne = 2 ^ 1074 := by
  have h : units fOne = (oneUnits : Int) := by decide +kernel
  rw [h, oneUnits_eq]
  push_cast
  rfl

theorem units_fNegOne : units fNegOne = -2 ^ 1074 := by
  have h : units fNegOne = -(oneUnits : Int) := by decide +kernel
  rw [h, oneUnits_eq]
  push_cast
  rfl

theorem units_largest : (units 0x7FEFFFFFFFFFFFFF#64 : ℚ) = maxUnits := by
  have h : units 0x7FEFFFFFFFFFFFFF#64 = (unitsOfMag (infMag - 1) : Int) := by decide +kernel
  rw [h, maxUnits]
  push_cast
  rfl

theorem two_pow_le_maxUnits : (2 : ℚ) ^ 1074 ≤ maxUnits := by
  have h : oneUnits ≤ unitsOfMag (infMag - 1) := by decide +kernel
  rw [oneUnits_eq] at h
  unfold maxUnits
  exact_mod_cast h

/-- A zero sum and a zero difference of either kind, an exact product and quotient, and a sum at the bound. -/
theorem witness_BasicOperationsAreCorrectlyRounded :
    isFinite fOne = true ∧ isFinite fNegOne = true ∧ isFinite 0x7FEFFFFFFFFFFFFF#64 = true ∧ isFinite fNegZero = true ∧
    ((units fOne : ℚ) + units fNegOne = 0 ∧ |(units fOne : ℚ) + units fNegOne| ≤ maxUnits) ∧
    ((units fNegZero : ℚ) + units fNegZero = 0 ∧ (signOf fNegZero && signOf fNegZero) = true) ∧
    ((units fOne : ℚ) - units fOne = 0 ∧ |(units fOne : ℚ) - units fOne| ≤ maxUnits) ∧
    |(units 0x7FEFFFFFFFFFFFFF#64 : ℚ) + units fNegZero| ≤ maxUnits ∧
    |(units fOne : ℚ) * units fNegOne / 2 ^ 1074| ≤ maxUnits ∧
    ((units fNegOne : ℚ) ≠ 0 ∧ |(units fOne : ℚ) * 2 ^ 1074 / units fNegOne| ≤ maxUnits) := by
  have hz : units fNegZero = 0 := by decide
  have hb := two_pow_le_maxUnits
  have hp : (0 : ℚ) < 2 ^ 1074 := by positivity
  rw [units_largest, units_fOne, units_fNegOne, hz]
  push_cast
  generalize (2 : ℚ) ^ 1074 = p at *
  have hm : 0 ≤ maxUnits := le_trans hp.le hb
  have e1 : p * -p / p = -p := by field_simp
  have e2 : p * p / -p = -p := by field_simp
  rw [e1, e2, abs_neg, abs_of_pos hp]
  refine ⟨by decide, by decide, by decide, by decide, ⟨by ring, ?_⟩, ⟨by ring, by decide⟩, ⟨by ring, ?_⟩, ?_, hb, ?_, hb⟩
  · simpa using hm
  · simpa using hm
  · rw [add_zero, abs_of_nonneg hm]
  · exact neg_ne_zero.2 hp.ne'

theorem witness_NcoObligations :
    0 < 200000 ∧ 4 * 50000 = 200000 ∧ 2 * 100000 = 200000 ∧ 4 * 150000 = 3 * 200000 := by decide

/-- Both zeros against both signs of the other operand, and a point of each half plane. -/
theorem witness_Atan2Obligations :
    isFinite fOne = true ∧ isFinite fNegOne = true ∧ isFinite fZero = true ∧ isFinite fNegZero = true ∧
    (units fNegZero = 0 ∧ 0 ≤ units fNegZero) ∧ (units fNegZero = 0 ∧ units fNegOne < 0) ∧
    (units fNegZero = 0 ∧ 0 < units fOne) := by decide +kernel

theorem witness_ExpObligations :
    (fle 0xBFB1111111111111#64 0xBFB1111111111111#64 = true ∧ fle 0xBFB1111111111111#64 0xBFA1111111111111#64 = true) ∧
    (fle 0xBFB1111111111111#64 0xBFA1111111111111#64 = true ∧ fle 0xBFA1111111111111#64 0xBFA1111111111111#64 = true) := by
  decide +kernel

theorem witness_OperandsConvertExactly :
    ((-32768 : Int) ≤ -32768 ∧ (-32768 : Int) ≤ 32767 ∧ (-32768 : Int) ≤ 32767 ∧ (32767 : Int) ≤ 32767) ∧
    ((0x00000001#32).extractLsb' 23 8).toNat ≠ 0xFF ∧ ((0x7F7FFFFF#32).extractLsb' 23 8).toNat ≠ 0xFF ∧
    tapNonFinite 0x7F800000#32 = true := by decide

theorem witness_PhaseIndexIsAnAccumulator : 0 < 1 ∧ 0 < 200000 := by decide

theorem witness_ShiftByAMultipleOfRateIsIdentity :
    0 < 200000 ∧ ((200000 : Nat) : Int) ∣ 0 ∧ ((200000 : Nat) : Int) ∣ -200000 := by decide

/-- Two taps at `d = 1`: output 1 does not reach a third tap, output 2 just does. -/
theorem witness_DecimatorKeepsEveryDthOutput :
    let x := [fOne, f64 2, f64 3]
    0 < 1 ∧ 2 < ceilDiv x.length 1 ∧
    ((decimR x [fOne, fOne] 1)[1]? = some (f64 3) ∧ 1 * 1 < [fOne, fOne].length) ∧
    ((decimR x [fOne, fOne] 1)[2]? = some (f64 5) ∧ [fOne, fOne].length ≤ 2 * 1) := by decide +kernel

theorem witness_DeemphasisGainIsExact :
    (fle fHalf fHalf = true ∧ flt fHalf fOne = true) ∧
    (fle fHalf 0x3FEFFFFFFFFFFFFF#64 = true ∧ flt 0x3FEFFFFFFFFFFFFF#64 fOne = true) := by decide +kernel

/-- A buffer that is not silent, the empty buffer, and one that is silent without being empty. -/
theorem witness_PeakAndSilence :
    (∀ v ∈ [fOne, fNegOne], isFinite v = true) ∧ [fOne, fNegOne] ≠ [] ∧ (normalizeBuf [fOne, fNegOne] false).silent = false ∧
    (∀ v ∈ ([] : List F64), isFinite v = true) ∧ (normalizeBuf [] true).silent = true ∧
    (normalizeBuf [fNegZero] true).silent = true := by
  refine ⟨?_, by decide, by decide +kernel, fun v hv => absurd hv (List.not_mem_nil), by decide +kernel, by decide +kernel⟩
  exact List.all_eq_true.1 (by decide)

theorem witness_NormalizedAmplitude :
    (∀ v ∈ [fOne, fNegOne], isFinite v = true ∧ absUnits v < 2 ^ 1274) ∧
    (normalizeBuf [fOne, fNegOne] false).silent = false ∧ (normalizeBuf [fOne, fNegOne] true).silent = false := by
  refine ⟨?_, by decide +kernel, by decide +kernel⟩
  have h : absUnits fOne = oneUnits ∧ absUnits fNegOne = oneUnits := by decide +kernel
  have h2 : oneUnits < 2 ^ 1274 := by
    rw [oneUnits_eq]
    exact Nat.pow_lt_pow_right (by decide) (by decide)
  intro v hv
  rcases List.mem_pair.1 hv with rfl | rfl
  · exact ⟨by decide, h.1 ▸ h2⟩
  · exact ⟨by decide, h.2 ▸ h2⟩

theorem witness_PcmRoundingAndSaturation :
    isFinite 0x4004000000000000#64 = true ∧ (-32769 : Int) < -32768 ∧ (32767 : Int) < 32768 ∧
    ((-32768 : Int) ≤ -32768 ∧ (32767 : Int) ≤ 32767) := by decide

theorem witness_SilentInputGivesSilence :
    200000 ≤ 200000 ∧ 4294967295 < 2 ^ 32 ∧ (∀ w ∈ List.replicate 3 0#32, w = 0#32) ∧
    (∀ w ∈ [0x3F800000#32, 0x7F7FFFFF#32], tapNonFinite w = false) := by
  refine ⟨by decide, by decide, fun w hw => List.eq_of_mem_replicate hw, fun w hw => ?_⟩
  rcases List.mem_pair.1 hw with rfl | rfl <;> decide

end Sys2Proof.Tests
end

-- ==== The factors and lengths of an accepted RUN ====
section
/-! PROOFS. The factors and lengths of R144 to R147 as arithmetic on `N` and `R`, what the configuration check says when
it passes (R143), and the ranges every accepted RUN has (R8, R147, R148, R243). -/

namespace Sys2Proof.Proofs

open Sys2Proof Sys2Proof.Machine Sys2Proof.Laws

/-! ### The decimation factors (R144, R145, R148) -/

section Factors

variable {R : Nat}

theorem factor1_pos (hR : 200000 ≤ R) : 1 ≤ factor1 R :=
  Nat.div_pos hR (by decide)

theorem mul_factor1_le (R : Nat) : 200000 * factor1 R ≤ R :=
  Nat.mul_div_le R 200000

/-- The stage-2 rate is below twice the least rate, since `d1` is at least 1. -/
theorem lt_mul_factor1 (hR : 200000 ≤ R) : R < 400000 * factor1 R := by
  have hpos := factor1_pos hR
  have hlt : R < 200000 * (factor1 R + 1) := Nat.lt_mul_div_succ R (by decide)
  omega

/-- `200000 / 44100` is above 4. -/
theorem four_le_factor2 (hR : 200000 ≤ R) : 4 ≤ factor2 R := by
  have hpos := factor1_pos hR
  have hle := mul_factor1_le R
  exact (Nat.le_div_iff_mul_le (by omega)).2 (by omega)

/-- `400000 / 44100` is below 10. -/
theorem factor2_le_nine (hR : 200000 ≤ R) : factor2 R ≤ 9 := by
  have hpos := factor1_pos hR
  have hlt := lt_mul_factor1 hR
  exact Nat.le_of_lt_succ ((Nat.div_lt_iff_lt_mul (by omega)).2 (by omega))

end Factors

/-! ### The lengths (R147, R243, R8) -/

section Lengths

variable {N R : Nat}

theorem length1_le (hR : 200000 ≤ R) : length1 N R ≤ N :=
  (ceilDiv_le (factor1_pos hR)).2 (Nat.le_mul_of_pos_right N (factor1_pos hR))

theorem length2_pos (hL : 1 < length1 N R) : 1 ≤ length2 N R :=
  Nat.sub_pos_of_lt hL

theorem length3_pos (hR : 200000 ≤ R) (hL : 1 < length1 N R) : 1 ≤ length3 N R := by
  have hd2 := four_le_factor2 hR
  have hL2 := length2_pos hL
  exact (lt_ceilDiv (by omega)).2 (by omega)

/-- The output fits in a quarter of the window (R8): stage 5 keeps at most every fourth sample. -/
theorem length3_le_quarter (hR : 200000 ≤ R) (hN : N % 1024 = 0) : length3 N R ≤ N / 4 := by
  have hd2 := four_le_factor2 hR
  refine (ceilDiv_le (by omega)).2 ?_
  calc length2 N R ≤ length1 N R := Nat.sub_le _ _
    _ ≤ N := length1_le hR
    _ = N / 4 * 4 := by omega
    _ ≤ N / 4 * factor2 R := Nat.mul_le_mul_left _ hd2

end Lengths

/-! ### The configuration check (R143, R148) -/

/-- The check passes exactly when no code of R143 applies. -/
theorem check_eq_codeNone_iff (s : State) :
    check s = codeNone ↔
      opN s ≠ 0 ∧ opN s % 1024 = 0 ∧ opN s ≤ nMax s ∧ 200000 ≤ opR s ∧ factor2 (opR s) ≠ 0 ∧
      (opT1 s ≠ 0 ∧ opT1 s ≤ tMax s) ∧ (opT2 s ≠ 0 ∧ opT2 s ≤ tMax s) ∧ 1 < length1 (opN s) (opR s) ∧
      (coef1Words s (opT1 s)).any tapNonFinite = false ∧ (coef2Words s (opT2 s)).any tapNonFinite = false := by
  simp [check, ite_eq_iff, codeNone, codeZeroWindow, codeWindowAlign, codeWindowRange, codeD1Zero, codeD2Zero,
    codeNtaps1, codeNtaps2, codeShortWindow, codeTapNonFinite]

/-- Code `0x05` could only follow a rate that passed check `0x04`, and such a rate has a factor `d2` of at least 4. -/
theorem check_ne_codeD2Zero (s : State) : check s ≠ codeD2Zero := by
  unfold check
  dsimp only
  repeat' split
  case isFalse.isFalse.isFalse.isFalse.isTrue hR hd2 =>
    have := four_le_factor2 (Nat.le_of_not_lt hR)
    omega
  all_goals decide

/-- Settles O9: a passing check gives the premises `N % 1024 = 0`, `N <= N_MAX`, `R >= 200000` and `L1 >= 2` of the ranges
above. -/
theorem acceptedRunRanges : Obligations.AcceptedRunRanges := by
  refine ⟨check_ne_codeD2Zero, fun s hs => ?_⟩
  obtain ⟨-, hAlign, hCap, hR, -, -, -, hL1, -, -⟩ := (check_eq_codeNone_iff s).1 hs
  have hQuarter := length3_le_quarter hR hAlign
  exact ⟨rfl, rfl, mul_factor1_le _, lt_mul_factor1 hR, factor1_pos hR, four_le_factor2 hR, factor2_le_nine hR,
    rfl, rfl, length2_pos hL1, rfl, length3_pos hR hL1, hQuarter, hQuarter.trans (Nat.div_le_div_right hCap)⟩

end Sys2Proof.Proofs
end

-- ==== The signal irq ====
section
/-! PROOFS. The level output `irq` as a function of IRQ_STAT and IRQ_EN (R49). -/

namespace Sys2Proof.Proofs

open Sys2Proof Sys2Proof.Machine

/-- A two-bit vector is nonzero exactly when one of its two bits is set. -/
theorem bitVec2_ne_zero_iff (x : BitVec 2) : x ≠ 0#2 ↔ x.getLsbD 0 = true ∨ x.getLsbD 1 = true := by
  revert x
  decide

theorem irq_eq_true_iff (s : State) : irq s = true ↔ s.irqStat &&& s.irqEn ≠ 0#2 := by
  rw [bitVec2_ne_zero_iff, BitVec.getLsbD_and, BitVec.getLsbD_and]
  exact Bool.or_eq_true_iff

/-- No interrupt is signalled while none is pending, whatever IRQ_EN holds. -/
theorem irq_eq_false_of_irqStat_eq_zero {s : State} (h : s.irqStat = 0#2) : irq s = false := by
  simp [irq, h]

/-- Settles O29: IRQ_STAT is 0 at reset, so `irq` is 0 there. -/
theorem irqIsEnabledPending : Obligations.IrqIsEnabledPending :=
  ⟨irq_eq_true_iff, irq_eq_false_of_irqStat_eq_zero rfl⟩

end Sys2Proof.Proofs
end

-- ==== The slave port ====
section
/-! PROOFS. What a HOST transaction does, by what the port selects (R80): nothing selected is answered ERROR without
effect (R81, R82, R87), a selected place is written and the write answered OKAY (R159), and the read-only places ignore
it (R90). -/

namespace Sys2Proof.Proofs

open Sys2Proof Sys2Proof.Machine Sys2Proof.Safety Sys2Proof.Laws

/-! ### One HOST transaction (R80) -/

theorem afterHost_eq (tr : Transaction) (s : State) : afterHost tr s = hostTurn tr s :=
  step_of_agenda_cons (s := { s with agenda := .host tr :: s.agenda }) rfl

theorem busRead_of_none {a : Offset} {n : Size} {s : State} (h : portSelect a n s = none) :
    busRead a n s = answer errorReply s := by
  simp only [busRead, h]

/-- The one error response of the port, for reads and writes alike. -/
theorem answersError_of_portSelect_eq_none {a : Offset} {n : Size} {s : State} (h : portSelect a n s = none)
    (v : Word) : answersError s (.read a n) ∧ answersError s (.write a n v) :=
  ⟨(afterHost_eq _ s).trans (congrArg Host.Outcome.next (busRead_of_none h)),
    (afterHost_eq _ s).trans (busWrite_of_none h)⟩

/-- A write that selects a place leaves the state the place's own effect leaves. -/
theorem writesTo_of_portSelect_eq_some {a : Offset} {v : Word} {s t : State} {p : Place}
    (h : portSelect a .four s = some p) (ht : writePlace p v s = .next t) : writesTo s a v t := by
  calc afterHost (.write a .four v) s = busWrite a .four v s := afterHost_eq _ s
    _ = mapNext (answer (okayReply 0#32)) (writePlace p v s) := busWrite_of_some h
    _ = .next (answer (okayReply 0#32) t) := by rw [ht, mapNext_next]

/-! ### Narrow and misaligned accesses (R81, R82) -/

/-- R82 names the bits [1:0] of the offset, `portSelect` the remainder modulo 4. -/
theorem extractLsb'_low_two_eq_zero_iff (a : Offset) : a.extractLsb' 0 2 = 0#2 ↔ a.toNat % 4 = 0 := by
  simp [← BitVec.toNat_inj]

theorem portSelect_eq_none_of_narrow_or_misaligned {a : Offset} {n : Size} {s : State}
    (h : n ≠ .four ∨ a.extractLsb' 0 2 ≠ 0#2) : portSelect a n s = none := by
  refine Option.eq_none_iff_forall_ne_some.2 fun p hp => ?_
  obtain ⟨-, hsize, haligned, -⟩ := portSelect_eq_some hp
  exact h.elim (· hsize) (· ((extractLsb'_low_two_eq_zero_iff a).2 haligned))

/-- Settles O17: such an access selects nothing, whatever stands at its offset. -/
theorem narrowAndMisalignedAccessesAreErrors : Obligations.NarrowAndMisalignedAccessesAreErrors :=
  fun _ _ _ v h => answersError_of_portSelect_eq_none (portSelect_eq_none_of_narrow_or_misaligned h) v

/-! ### Unmapped offsets (R87) -/

/-- The word index and the byte range say the same bound of a window (R86). -/
theorem windowWord_eq_none {mk : Nat → Place} {base size a : Nat} (hbase : base ≤ a)
    (h : ¬(base ≤ a ∧ a < base + 4 * size)) : windowWord mk base size a = none :=
  if_neg (by omega)

/-- An offset that is no register and lies in no implemented word holds nothing. -/
theorem placeAt_eq_none {s : State} {a : Nat} (hreg : ∀ r : Reg, regOffset r ≠ a) (hmem : ¬inMemory s a) :
    placeAt s a = none := by
  simp only [inMemory, not_or] at hmem
  obtain ⟨hcoef1, hcoef2, hibuf, hobuf⟩ := hmem
  unfold placeAt
  split_ifs with registers coef1 coef2 gap ibuf obuf
  · rw [regAt_eq_none hreg, Option.map_none]
  · exact windowWord_eq_none (Nat.le_of_not_lt registers) hcoef1
  · exact windowWord_eq_none (Nat.le_of_not_lt coef1) hcoef2
  · rfl
  · exact windowWord_eq_none (Nat.le_of_not_lt gap) hibuf
  · exact windowWord_eq_none (Nat.le_of_not_lt ibuf) hobuf
  · rfl

theorem placeAt_of_reserved {s : State} {a : Nat}
    (h : (0x00030000 ≤ a ∧ a ≤ 0x00FFFFFF) ∨ 0x03000000 ≤ a) : placeAt s a = none := by
  obtain ⟨hlo, hhi⟩ | hlo := h
  · rw [placeAt, if_neg (by omega), if_neg (by omega), if_neg (by omega), if_pos (by omega)]
  · rw [placeAt, if_neg (by omega), if_neg (by omega), if_neg (by omega), if_neg (by omega), if_neg (by omega),
      if_neg (by omega)]

theorem portSelect_of_placeAt_eq_none {a : Offset} {n : Size} {s : State} (h : placeAt s a.toNat = none) :
    portSelect a n s = none := by
  refine Option.eq_none_iff_forall_ne_some.2 fun p hp => ?_
  obtain ⟨-, -, -, hplace⟩ := portSelect_eq_some hp
  cases h.symm.trans hplace

/-- Settles O18, by the address map: neither kind of offset holds a place. The map needs no bound on the capacities. -/
theorem unmappedOffsetsAreErrors : Obligations.UnmappedOffsetsAreErrors := by
  intro s a v _ h
  have hplace : placeAt s a.toNat = none := by
    obtain ⟨hreg, hmem⟩ | hreserved := h
    · exact placeAt_eq_none hreg hmem
    · exact placeAt_of_reserved hreserved
  exact answersError_of_portSelect_eq_none (portSelect_of_placeAt_eq_none hplace) v

/-! ### Read-only words (R90) -/

/-- The registers R90 lists. -/
def readOnlyRegs : List Reg :=
  [.id, .status, .d1, .d2, .len1, .outlen, .peakLo, .peakHi, .paramNmax, .paramTmax]

theorem writeReg_of_readOnly {r : Reg} (h : r ∈ readOnlyRegs) (v : Word) (s : State) : writeReg r v s = .next s := by
  unfold readOnlyRegs at h
  fin_cases h <;> rfl

/-- Settles O24: the listed offsets are those of `readOnlyRegs`, and an OBUF word selects OBUF, which no write stores
to. -/
theorem readOnlyWritesAreIgnored : Obligations.ReadOnlyWritesAreIgnored := by
  intro s a v hcaps hrst h
  obtain hreg | hobuf := h
  · obtain ⟨r, hr, rfl⟩ : ∃ r ∈ readOnlyRegs, regName r = a := List.mem_map.1 hreg
    exact writesTo_of_portSelect_eq_some (portSelect_reg hrst r) (writeReg_of_readOnly hr v s)
  · obtain ⟨m, hm, -⟩ := portSelect_obuf hrst hcaps hobuf
    exact writesTo_of_portSelect_eq_some hm rfl

end Sys2Proof.Proofs
end

-- ==== The operands of a RUN ====
section
/-! PROOFS. The data formats a RUN reads: IQ sample words (R115) and coefficient words (R116), and their conversion to
binary64, which is exact because a short significand times a power of two is rounded to itself. -/

namespace Sys2Proof.Proofs

open Sys2Proof Sys2Proof.Machine Sys2Proof.Laws

/-! ### Short significands are rounded exactly (R13) -/

/-- The quantum of `n * 2^k` units divides it, and so rounding drops nothing. -/
theorem unitsOfMag_rnUnits_of_shortSignificand {n k d : Nat} (hn : n < 2 ^ 53) (hd : 0 < d)
    (hfin : rnUnits (n * 2 ^ k * d) d < infMag) : unitsOfMag (rnUnits (n * 2 ^ k * d) d) = n * 2 ^ k := by
  rw [unitsOfMag_rnUnits _ hd hfin]
  have hquantum : quantum (n * 2 ^ k * d) d ≤ k := by
    obtain ⟨-, hzero | hle⟩ := quantum_spec (n * 2 ^ k * d) d
    · omega
    · rw [Nat.mul_div_cancel _ hd] at hle
      have hlt : n * 2 ^ k < 2 ^ (53 + k) := by
        rw [pow_add]
        exact Nat.mul_lt_mul_of_pos_right hn (Nat.two_pow_pos k)
      have hexp := (Nat.pow_lt_pow_iff_right (a := 2) (by decide)).1 (hle.trans_lt hlt)
      omega
  generalize quantum (n * 2 ^ k * d) d = q at *
  have hdvd : 2 ^ q ∣ n * 2 ^ k := (pow_dvd_pow 2 hquantum).mul_left n
  rw [mul_comm d, divNearestEven_of_dvd (Nat.mul_pos (Nat.two_pow_pos q) hd) (Nat.mul_dvd_mul_right hdvd d),
    Nat.mul_div_mul_right _ _ hd, Nat.div_mul_cancel hdvd]

/-! ### IQ sample words (R115) -/

/-- The two halves of a word, put together, are the word. -/
theorem highHalf_append_lowHalf (w : Word) : w.extractLsb' 16 16 ++ w.extractLsb' 0 16 = w := by
  rw [BitVec.extractLsb'_append_extractLsb'_eq_extractLsb' (by decide), BitVec.extractLsb'_eq_self]

/-- Integers of the range `sext_16` yields survive the reduction modulo `2^16`. -/
theorem toInt_ofInt_of_int16 {i : Int} (hlo : -32768 ≤ i) (hhi : i ≤ 32767) : (BitVec.ofInt 16 i).toInt = i := by
  rw [BitVec.toInt_ofInt, Int.bmod_eq_of_le (by omega) (by omega)]

theorem iqWord_iqI_iqQ (w : Word) : iqWord (iqI w) (iqQ w) = w := by
  rw [iqWord, iqI, iqQ, BitVec.ofInt_toInt, BitVec.ofInt_toInt, highHalf_append_lowHalf]

theorem iqI_iqWord {i : Int} (q : Int) (hlo : -32768 ≤ i) (hhi : i ≤ 32767) : iqI (iqWord i q) = i :=
  (congrArg BitVec.toInt (pcmWord_even _ _)).trans (toInt_ofInt_of_int16 hlo hhi)

theorem iqQ_iqWord (i : Int) {q : Int} (hlo : -32768 ≤ q) (hhi : q ≤ 32767) : iqQ (iqWord i q) = q :=
  (congrArg BitVec.toInt (pcmWord_odd _ _)).trans (toInt_ofInt_of_int16 hlo hhi)

/-- A 16-bit integer is far within the 53 bits that `f64` converts exactly (R12). -/
theorem f64_toInt_exact (x : BitVec 16) :
    isFinite (f64 x.toInt) = true ∧ units (f64 x.toInt) = x.toInt * 2 ^ 1074 := by
  have hlo := x.le_toInt
  have hhi := x.toInt_lt
  obtain ⟨hfin, hunits, -, -⟩ := f64_spec x.toInt (by omega)
  exact ⟨hfin, hunits⟩

/-! ### Coefficient words (R116) -/

theorem tapNonFinite_iff (w : Word) : tapNonFinite w = true ↔ (w.extractLsb' 23 8).toNat = 0xFF := by
  rw [tapNonFinite, beq_iff_eq, ← BitVec.toNat_inj]
  rfl

/-- The magnitude of a finite coefficient word in units of `2^-149`, the smallest binary32 subnormal. -/
def tapUnits (w : Word) : Nat :=
  let e := (w.extractLsb' 23 8).toNat
  let f := (w.extractLsb' 0 23).toNat
  if e = 0 then f else (2 ^ 23 + f) * 2 ^ (e - 1)

/-- `f32to64` of a finite word is `RN` of the word's sign and magnitude. -/
theorem f32to64_eq_rn {w : Word} (h : (w.extractLsb' 23 8).toNat ≠ 0xFF) :
    f32to64 w = rn w.msb (tapUnits w * oneUnits) (2 ^ 149) :=
  if_neg h

/-- A binary32 significand has 24 bits. -/
theorem tapUnits_eq_shortSignificand (w : Word) : ∃ n k, n < 2 ^ 24 ∧ tapUnits w = n * 2 ^ k := by
  have hf := (w.extractLsb' 0 23).isLt
  unfold tapUnits
  dsimp only
  split
  · exact ⟨_, 0, by omega, (Nat.mul_one _).symm⟩
  · exact ⟨_, _, by omega, rfl⟩

theorem signOf_f32to64 {w : Word} (h : (w.extractLsb' 23 8).toNat ≠ 0xFF) : signOf (f32to64 w) = w.msb := by
  rw [f32to64_eq_rn h, rn, signOf_ofMag (rnUnits_lt _ _)]

/-- One unit of binary32 is `2^925` units of binary64: `1074 = 925 + 149`. -/
theorem absUnits_f32to64 {w : Word} (h : (w.extractLsb' 23 8).toNat ≠ 0xFF) (hfin : isFinite (f32to64 w) = true) :
    absUnits (f32to64 w) = tapUnits w * 2 ^ 925 := by
  obtain ⟨n, k, hn, htap⟩ := tapUnits_eq_shortSignificand w
  have hscale : tapUnits w * oneUnits = n * 2 ^ (k + 925) * 2 ^ 149 := by
    rw [htap, oneUnits_eq, mul_assoc, mul_assoc, ← pow_add, ← pow_add, add_assoc]
  rw [f32to64_eq_rn h, hscale] at hfin ⊢
  rw [rn, absUnits_ofMag (rnUnits_lt _ _),
    unitsOfMag_rnUnits_of_shortSignificand (by omega) (Nat.two_pow_pos 149) (isFinite_rn.1 hfin), htap, mul_assoc,
    pow_add]

/-- Settles O50: the halves of an IQ word are 16-bit integers, which `f64` converts exactly, and a finite coefficient
word has a 24-bit significand, which `RN` keeps. -/
theorem operandsConvertExactly : Obligations.OperandsConvertExactly := by
  refine ⟨fun w => ?_, fun i q hi hi' hq hq' => ⟨iqI_iqWord q hi hi', iqQ_iqWord i hq hq'⟩, fun w => ?_⟩
  · obtain ⟨hIfin, hIunits⟩ := f64_toInt_exact (w.extractLsb' 0 16)
    obtain ⟨hQfin, hQunits⟩ := f64_toInt_exact (w.extractLsb' 16 16)
    exact ⟨iqWord_iqI_iqQ w, hIfin, hIunits, hQfin, hQunits⟩
  · refine ⟨tapNonFinite_iff w, fun h => ?_⟩
    have hfin := isFinite_f32to64 w (Bool.eq_false_iff.2 (mt (tapNonFinite_iff w).1 h))
    exact ⟨hfin, signOf_f32to64 h, absUnits_f32to64 h hfin⟩

end Sys2Proof.Proofs
end

-- ==== The commands, and the end of a RUN ====
section
/-! PROOFS. What each command does by BUSY (R140 to R155), what an illegal word does (R156, R157), how the configuration
check judges a RUN (R143), and how a RUN ends at stage 6 (R162). -/

namespace Sys2Proof.Proofs

open Sys2Proof Sys2Proof.Machine Sys2Proof.Safety Sys2Proof.Laws

/-! ### The order of the configuration check (R143) -/

/-- Every tap of both filters is finite (R116), the last condition of the check. -/
def TapsFinite (s : State) : Prop :=
  (∀ j, j < opT1 s → (readWord s.mem (0x00010000 + 4 * j)).extractLsb' 23 8 ≠ 0xFF#8) ∧
  (∀ j, j < opT2 s → (readWord s.mem (0x00020000 + 4 * j)).extractLsb' 23 8 ≠ 0xFF#8)

theorem tapsFinite_iff (s : State) :
    TapsFinite s ↔
      (coef1Words s (opT1 s)).any tapNonFinite = false ∧ (coef2Words s (opT2 s)).any tapNonFinite = false :=
  and_congr (any_tapNonFinite s.mem coef1Base (opT1 s)).symm (any_tapNonFinite s.mem coef2Base (opT2 s)).symm

/-- One test of a chain, turned from the condition that fails to the one that holds. -/
theorem ite_eq_ite_of_iff_not {α : Type} {p q : Prop} [Decidable p] [Decidable q] {a b c : α} (hpq : q ↔ ¬p)
    (hrest : q → a = b) : (if p then c else a) = if q then b else c := by
  by_cases hq : q
  · rw [if_neg (hpq.1 hq), if_pos hq, hrest hq]
  · rw [if_pos (not_not.1 (mt hpq.2 hq)), if_neg hq]

/-- The check as a chain of conditions that must hold: code `0x05` drops out once the rate passes, and the two filter
banks share the last test. -/
theorem check_eq_firstFailure (s : State) [Decidable (TapsFinite s)] :
    check s =
      if opN s ≠ 0 then
        if opN s % 1024 = 0 then
          if opN s ≤ nMax s then
            if 200000 ≤ opR s then
              if 1 ≤ opT1 s ∧ opT1 s ≤ tMax s then
                if 1 ≤ opT2 s ∧ opT2 s ≤ tMax s then
                  if 2 ≤ ceilDiv (opN s) (opR s / 200000) then
                    if TapsFinite s then 0x00#8 else 0x09#8
                  else 0x08#8
                else 0x07#8
              else 0x06#8
            else 0x04#8
          else 0x03#8
        else 0x02#8
      else 0x01#8 := by
  refine ite_eq_ite_of_iff_not Iff.rfl fun _ => ite_eq_ite_of_iff_not not_not.symm fun _ =>
    ite_eq_ite_of_iff_not not_lt.symm fun _ => ite_eq_ite_of_iff_not not_lt.symm fun hR => ?_
  have hd2 : factor2 (opR s) ≠ 0 := Nat.ne_of_gt (Nat.lt_of_lt_of_le (by decide) (four_le_factor2 hR))
  rw [if_neg hd2]
  refine ite_eq_ite_of_iff_not (by omega) fun _ => ite_eq_ite_of_iff_not (by omega) fun _ =>
    ite_eq_ite_of_iff_not not_lt.symm fun _ => ?_
  rw [← ite_or]
  exact ite_eq_ite_of_iff_not (by simp [tapsFinite_iff]) fun _ => rfl

/-- Settles O8: the nine codes of the chain are distinct, so each names the one branch it stands in. -/
theorem checkReportsFirstFailure : Obligations.CheckReportsFirstFailure := by
  classical
  intro s ok1 ok2 ok3 ok4 ok6 ok7 ok8 finite ok9
  have hok9 : ok9 = TapsFinite s := rfl
  clear_value ok9
  simp [check_eq_firstFailure, ite_eq_iff, hok9, ok1, ok2, ok3, ok4, ok6, ok7, ok8]

/-! ### NOP, and RUN while idle (R141, R142, R149, R150) -/

/-- Settles O5: NOP is the identity in every state. -/
theorem nopHasNoEffect : Obligations.NopHasNoEffect :=
  fun _ => ⟨rfl, rfl⟩

theorem exec_run_of_idle {s : State} (hb : s.status.busy = false) : exec .run s = .next (startRun s) :=
  if_neg (by simp [hb])

/-- The flags a RUN clears are no operand of the check, so it judges the state the RUN was issued in. -/
theorem startRun_of_pass {s : State} (h : check s = codeNone) : startRun s = accept (clearRunFlags s) :=
  if_neg (by simp [check_clearRunFlags, h])

theorem startRun_of_fail {s : State} (h : check s ≠ codeNone) :
    startRun s = failRun (check s) (clearRunFlags s) :=
  if_pos h

/-- Settles O6: clearing the flags and accepting write exactly the listed fields. -/
theorem runIsAccepted : Obligations.RunIsAccepted := by
  intro s hb hcheck
  rw [exec_run_of_idle hb, startRun_of_pass hcheck]
  rfl

/-- Settles O7: clearing the flags and failing write exactly the listed fields, ERRCODE from the check. -/
theorem runReportsConfigurationError : Obligations.RunReportsConfigurationError := by
  intro s hb hcheck
  rw [exec_run_of_idle hb, startRun_of_fail hcheck]
  rfl

/-! ### ABORT, CLEAR and SRST (R152, R153, R155) -/

theorem exec_abort_of_idle {s : State} (hb : s.status.busy = false) : exec .abort s = .next s :=
  if_neg (by simp [hb])

theorem exec_abort_of_busy {s : State} (hb : s.status.busy = true) : exec .abort s = .next (abortRun s) :=
  if_pos hb

/-- The bytes an aborted RUN loses are those of its own OBUF words. -/
theorem sameMemOutside_abortRun (s : State) :
    sameMemOutside s (abortRun s) obufBase (obufBytesOf s.hidden.run) :=
  fun _ ha => readByte_loseObuf ha

/-- Settles O10: apart from memory, every field of the aborted state holds by definition. -/
theorem abortEndsTheRun : Obligations.AbortEndsTheRun := by
  refine ⟨rfl, fun _ hb => exec_abort_of_idle hb, fun s hb => ⟨abortRun s, exec_abort_of_busy hb, ?_⟩⟩
  exact ⟨rfl, rfl, rfl, rfl, rfl, rfl, rfl, rfl, rfl, ⟨rfl, rfl, rfl, rfl, rfl, rfl⟩, ⟨rfl, rfl, rfl, rfl, rfl⟩,
    sameMemOutside_abortRun s⟩

theorem exec_clear_of_idle {s : State} (hb : s.status.busy = false) : exec .clear s = .next (acknowledge s) :=
  if_neg (by simp [hb])

/-- Settles O11: CLEAR while idle is the acknowledgment of an error. -/
theorem clearClearsTheFlags : Obligations.ClearClearsTheFlags :=
  ⟨rfl, fun s hb => (exec_clear_of_idle hb).trans (congrArg Host.Outcome.next (acknowledge_eq s))⟩

theorem registersReset_resetBlock (s : State) : RegistersReset (resetBlock s) := by
  obtain ⟨m, h, d, heq, -⟩ := resetBlock_spec s
  rw [heq]
  exact ⟨rfl, rfl, rfl, rfl, rfl, rfl, rfl, rfl, rfl, rfl, rfl, rfl, rfl, rfl, rfl⟩

theorem sameOutside_resetBlock (s : State) : SameOutside s (resetBlock s) := by
  obtain ⟨m, h, d, heq, -⟩ := resetBlock_spec s
  rw [heq]
  exact ⟨rfl, rfl, rfl, rfl, rfl⟩

/-- What reset and SRST leave of memory: all of it while idle, and all but the running RUN's OBUF words while busy. -/
theorem resetBlock_mem_spec (s : State) :
    (s.status.busy = false → (resetBlock s).mem = s.mem) ∧
      sameMemOutside s (resetBlock s) obufBase (obufBytesOf s.hidden.run) := by
  obtain ⟨m, h, d, heq, hidle, -, hframe⟩ := resetBlock_spec s
  rw [heq]
  exact ⟨hidle, hframe⟩

/-- Settles O12: SRST is the effect it shares with reset, and no interrupt is pending after it. -/
theorem srstResetsTheRegisters : Obligations.SrstResetsTheRegisters := by
  refine ⟨rfl, fun s => ⟨resetBlock s, rfl, ?_⟩⟩
  have hregs := registersReset_resetBlock s
  obtain ⟨hidle, hframe⟩ := resetBlock_mem_spec s
  exact ⟨hregs, irq_eq_false_of_irqStat_eq_zero hregs.irqStat, sameOutside_resetBlock s, hidle, fun _ => hframe⟩

/-! ### Commands while BUSY, and illegal words (R151, R154, R156, R157) -/

theorem exec_run_of_busy {s : State} (hb : s.status.busy = true) : exec .run s = .next (setCmdIgnored s) :=
  if_pos hb

theorem exec_clear_of_busy {s : State} (hb : s.status.busy = true) : exec .clear s = .next (setCmdIgnored s) :=
  if_pos hb

/-- A CMD write of a rejected word is answered OKAY and has the effect of an illegal command. -/
theorem writesTo_cmd_of_decode_eq_error {s : State} {w : Word} {e : Illegal} (hrst : s.rstN = true)
    (hw : decode w = .error e) : writesTo s 0x0000004#26 w (illegalCommand s) :=
  writesTo_of_portSelect_eq_some (portSelect_reg hrst .cmd) (command_of_error hw s)

theorem illegalCommand_of_idle {s : State} (hb : s.status.busy = false) :
    illegalCommand s = raiseError codeIllegalCmd s :=
  if_neg (by simp [hb])

theorem illegalCommand_of_busy {s : State} (hb : s.status.busy = true) : illegalCommand s = setCmdIgnored s :=
  if_pos hb

/-- Settles O13: while idle an illegal word is error entry with code `0x10`. -/
theorem illegalCommandWhileIdle : Obligations.IllegalCommandWhileIdle := by
  intro s w e hrst hb hw
  have hwrite := writesTo_cmd_of_decode_eq_error hrst hw
  rwa [illegalCommand_of_idle hb, raiseError_eq] at hwrite

/-- Settles O14: while BUSY all three set CMD_IGNORED. -/
theorem commandsWhileBusyAreIgnored : Obligations.CommandsWhileBusyAreIgnored := by
  refine fun s hb => ⟨exec_run_of_busy hb, exec_clear_of_busy hb, fun w e hrst hw => ?_⟩
  have hwrite := writesTo_cmd_of_decode_eq_error hrst hw
  rwa [illegalCommand_of_busy hb] at hwrite

/-! ### The ENGINE's last step (R160, R162, R307) -/

theorem afterEngine_eq (s : State) : afterEngine s = engineTurn s :=
  step_of_agenda_cons (s := { s with agenda := .engine :: s.agenda }) rfl

/-- Settles O35: the hidden state and the draw counter are those `dropHidden` leaves; STATUS is written twice in the
step, SILENT by NORMALIZE and the rest by completion. -/
theorem engineStageSixCompletes : Obligations.EngineStageSixCompletes := by
  refine fun s hrst hb hstage => ⟨Config.betweenRuns s.draws, s.draws + 1, ?_⟩
  calc afterEngine s = engineTurn s := afterEngine_eq s
    _ = engineStep s := engineTurn_of_busy hrst hb
    _ = .next (stage6 s) := engineStep_of_stage hstage

end Sys2Proof.Proofs
end

-- ==== The frequency shift ====
section
/-! PROOFS. Stage 1 (R190 to R194): the phase index and its accumulator, the obligations on NCO_FN, and the shift by a
multiple of the rate. -/

namespace Sys2Proof.Proofs

open Sys2Proof Sys2Proof.Machine Sys2Proof.Laws

/-! ### The phase index (R191) -/

section PhaseIndex

variable {R : Nat}

/-- `phaseIndex` takes a natural number out of a remainder, and drops nothing: the remainder is not negative. -/
theorem coe_phaseIndex (F : Int) (p0 i : Nat) (hR : 0 < R) : (phaseIndex F R p0 i : Int) = (p0 + F * i) % R :=
  Int.toNat_of_nonneg (Int.emod_nonneg _ (by omega))

theorem phaseIndex_lt (F : Int) (p0 i : Nat) (hR : 0 < R) : phaseIndex F R p0 i < R := by
  have hlt := Int.emod_lt_of_pos (p0 + F * i) (Int.natCast_pos.2 hR)
  rw [← coe_phaseIndex F p0 i hR] at hlt
  exact Int.ofNat_lt.1 hlt

/-- One step of the accumulator, from any start. -/
theorem phaseIndex_succ (F : Int) (p0 i : Nat) (hR : 0 < R) :
    phaseIndex F R p0 (i + 1) = (phaseIndex F R p0 i + (F % R).toNat) % R := by
  have hstep : ((F % R).toNat : Int) = F % R := Int.toNat_of_nonneg (Int.emod_nonneg _ (by omega))
  apply Int.ofNat_inj.1
  calc (phaseIndex F R p0 (i + 1) : Int)
      = (p0 + F * i + F) % R := by rw [coe_phaseIndex F p0 _ hR]; push_cast; ring_nf
    _ = ((p0 + F * i) % R + F % R) % R := Int.add_emod _ _ _
    _ = ((phaseIndex F R p0 i + (F % R).toNat) % R : Nat) := by
      rw [← coe_phaseIndex F p0 i hR, Int.natCast_emod, Int.natCast_add, hstep]

/-- A RUN starts the accumulator at 0 (R47). -/
theorem coe_phaseIndex_run (F : Int) (i : Nat) (hR : 0 < R) : (phaseIndex F R 0 i : Int) = F * i % R := by
  rw [coe_phaseIndex F 0 i hR, Int.natCast_zero, zero_add]

theorem phaseIndex_start (F : Int) (R : Nat) : phaseIndex F R 0 0 = 0 := by
  simp [phaseIndex]

/-- The phase does not move when `F` is a multiple of `R` (R194). -/
theorem phaseIndex_eq_zero_of_dvd {F : Int} (i : Nat) (hR : 0 < R) (hdvd : (R : Int) ∣ F) : phaseIndex F R 0 i = 0 := by
  apply Int.ofNat_inj.1
  rw [coe_phaseIndex_run F i hR]
  exact Int.emod_eq_zero_of_dvd (hdvd.mul_right i)

end PhaseIndex

/-- Settles O51: the accumulator's step, and the remainder's range. -/
theorem phaseIndexIsAnAccumulator : Obligations.PhaseIndexIsAnAccumulator :=
  fun F R i hR => ⟨coe_phaseIndex_run F i hR, phaseIndex_lt F 0 i hR, phaseIndex_start F R, phaseIndex_succ F 0 i hR⟩

/-! ### The obligations on NCO_FN (R193) -/

section SpecialPoints

variable {p R : Nat}

@[simp] theorem ncoFn_zero (R : Nat) : ncoFn 0 R = (fOne, fZero) :=
  if_pos rfl

theorem ncoFn_of_quarter (hR : 0 < R) (hp : 4 * p = R) : ncoFn p R = (fZero, fNegOne) := by
  rw [ncoFn, if_neg (by omega), if_pos hp]

theorem ncoFn_of_half (hR : 0 < R) (hp : 2 * p = R) : ncoFn p R = (fNegOne, fZero) := by
  rw [ncoFn, if_neg (by omega), if_neg (by omega), if_pos hp]

theorem ncoFn_of_threeQuarters (hR : 0 < R) (hp : 4 * p = 3 * R) : ncoFn p R = (fZero, fOne) := by
  rw [ncoFn, if_neg (by omega), if_neg (by omega), if_neg (by omega), if_pos hp]

end SpecialPoints

/-- The interval `[-1.0, +1.0]` of R193, by the order of R14. -/
def InUnitInterval (v : F64) : Prop := fle fNegOne v = true ∧ fle v fOne = true

/-- On the interval the exact value is at most one, which infinity's encoding is not. -/
theorem InUnitInterval.absUnits_le {v : F64} (h : InUnitInterval v) : absUnits v ≤ absUnits fOne := by
  obtain ⟨hlo, hhi⟩ := h
  obtain ⟨-, -, hlo⟩ := (fle_iff _ _).1 hlo
  obtain ⟨-, -, hhi⟩ := (fle_iff _ _).1 hhi
  have hneg : units fNegOne = -units fOne := units_fneg fOne
  have hone := units_natAbs fOne
  have hv := units_natAbs v
  omega

theorem InUnitInterval.isFinite {v : F64} (h : InUnitInterval v) : isFinite v = true := by
  have hmag : magOf v ≤ magOf fOne := unitsOfMag_le_iff.1 h.absUnits_le
  exact (isFinite_iff v).2 (hmag.trans_lt (by decide))

theorem InUnitInterval.natAbs_units_le {v : F64} (h : InUnitInterval v) : (units v).natAbs ≤ 2 ^ 1074 := by
  rw [units_natAbs, ← oneUnits_eq, ← absUnits_fOne]
  exact h.absUnits_le

theorem inUnitInterval_clampUnit (v : F64) : InUnitInterval (clampUnit v) := by
  unfold clampUnit
  split
  case isTrue h => exact Bool.and_eq_true_iff.1 h
  case isFalse => exact ⟨by decide, by decide⟩

/-- At the special points the two components are constants of the interval, elsewhere they are clamped into it. -/
theorem inUnitInterval_ncoFn (p R : Nat) : InUnitInterval (ncoFn p R).1 ∧ InUnitInterval (ncoFn p R).2 := by
  have hzero : InUnitInterval fZero := ⟨by decide, by decide⟩
  have hone : InUnitInterval fOne := ⟨by decide, by decide⟩
  have hnegOne : InUnitInterval fNegOne := ⟨by decide, by decide⟩
  unfold ncoFn
  split_ifs
  · exact ⟨hone, hzero⟩
  · exact ⟨hzero, hnegOne⟩
  · exact ⟨hnegOne, hzero⟩
  · exact ⟨hzero, hone⟩
  · exact ⟨inUnitInterval_clampUnit _, inUnitInterval_clampUnit _⟩

/-- Settles O47: `R > 0` keeps the four special points apart. -/
theorem ncoObligations : Obligations.NcoObligations := by
  intro p R hR
  obtain ⟨hre, him⟩ := inUnitInterval_ncoFn p R
  exact ⟨fun hp => hp ▸ ncoFn_zero R, ncoFn_of_quarter hR, ncoFn_of_half hR, ncoFn_of_threeQuarters hR,
    hre.isFinite, him.isFinite, hre.natAbs_units_le, him.natAbs_units_le⟩

/-! ### The shift by a multiple of the rate (R194) -/

/-- The integer 0 converts to `+0`, so a component of an IQ sample is never `-0`. -/
theorem f64_toInt_ne_fNegZero (x : BitVec 16) : f64 x.toInt ≠ fNegZero := by
  have hlo := x.le_toInt
  have hhi := x.toInt_lt
  obtain ⟨-, -, hne, -⟩ := f64_spec x.toInt (by omega)
  exact hne

theorem magOf_fmul_fZero {a : F64} (ha : isFinite a = true) : magOf (fmul a fZero) = 0 := by
  rw [fmul_zero_right ha (by decide), magOf_ofMag_zero]

/-- `a * (+1) - b * (+0) = a`, whatever the sign of the zero product, unless `a` is `-0`. -/
theorem fsub_fmul_one_fmul_zero {a b : F64} (ha : isFinite a = true) (hne : a ≠ fNegZero) (hb : isFinite b = true) :
    fsub (fmul a fOne) (fmul b fZero) = a := by
  rw [fmul_one ha, fsub, fadd_zero_right ha hne]
  rw [magOf_fneg, magOf_fmul_fZero hb]

/-- `a * (+0) + b * (+1) = b`, whatever the sign of the zero product, unless `b` is `-0`. -/
theorem fadd_fmul_zero_fmul_one {a b : F64} (ha : isFinite a = true) (hb : isFinite b = true) (hne : b ≠ fNegZero) :
    fadd (fmul a fZero) (fmul b fOne) = b := by
  rw [fmul_one hb, fadd_zero_left hb hne (magOf_fmul_fZero ha)]

/-- The product with `(+1, +0)` is the sample. -/
theorem shiftOne_of_phaseIndex_eq_zero {F : Int} {R p0 i : Nat} (w : Word) (hp : phaseIndex F R p0 i = 0) :
    shiftOne F R p0 i w = iqCplx w := by
  obtain ⟨hIfin, -⟩ := f64_toInt_exact (w.extractLsb' 0 16)
  obtain ⟨hQfin, -⟩ := f64_toInt_exact (w.extractLsb' 16 16)
  have hre : (shiftOne F R p0 i w).re = (iqCplx w).re := by
    rw [shiftOne_re, hp, ncoFn_zero]
    exact fsub_fmul_one_fmul_zero hIfin (f64_toInt_ne_fNegZero _) hQfin
  have him : (shiftOne F R p0 i w).im = (iqCplx w).im := by
    rw [shiftOne_im, hp, ncoFn_zero]
    exact fadd_fmul_zero_fmul_one hIfin hQfin (f64_toInt_ne_fNegZero _)
  exact congrArg₂ Cplx.mk hre him

theorem shift_of_phaseIndex_eq_zero {F : Int} {R p0 : Nat} (ws : List Word) (hp : ∀ i, phaseIndex F R p0 i = 0) :
    shift F R p0 ws = ws.map iqCplx := by
  apply List.ext_getElem?
  intro i
  simp only [shift, List.getElem?_mapIdx, List.getElem?_map, shiftOne_of_phaseIndex_eq_zero _ (hp _)]

/-- Settles O52: the phase stays at 0, where the oscillator is `(+1, +0)`. -/
theorem shiftByAMultipleOfRateIsIdentity : Obligations.ShiftByAMultipleOfRateIsIdentity := by
  intro F R ws hR hdvd
  have hp : ∀ i, phaseIndex F R 0 i = 0 := fun i => phaseIndex_eq_zero_of_dvd i hR hdvd
  exact ⟨fun i => ⟨hp i, by rw [hp i, ncoFn_zero]⟩, shift_of_phaseIndex_eq_zero ws hp⟩

end Sys2Proof.Proofs
end

-- ==== The decimator ====
section
/-! PROOFS. The decimator of stages 2 and 5 (R210 to R214): which outputs it keeps, what one more tap adds to an output,
and why no output is `-0`. -/

namespace Sys2Proof.Proofs

open Sys2Proof Sys2Proof.Machine Sys2Proof.Laws

/-! ### The taps of one output (R210, R213) -/

theorem decimAt_nil (x : List F64) (pos : Nat) : decimAt x [] pos = fZero := rfl

/-- A term reads its own tap only, so a tap at the end leaves the earlier terms alone. -/
theorem decimTerm_append_left {x h h' : List F64} {pos j : Nat} (acc : F64) (hj : j < h.length) :
    decimTerm x (h ++ h') pos acc j = decimTerm x h pos acc j := by
  rw [decimTerm, decimTerm, List.getD_append h h' fZero j hj]

/-- One more tap at the end is one more term at the end of the sum. -/
theorem decimAt_append_singleton (x h : List F64) (t : F64) (pos : Nat) :
    decimAt x (h ++ [t]) pos = decimTerm x (h ++ [t]) pos (decimAt x h pos) h.length := by
  have hfold : (List.range h.length).foldl (decimTerm x (h ++ [t]) pos) fZero = decimAt x h pos :=
    List.foldl_ext _ _ _ fun acc j hj => decimTerm_append_left acc (List.mem_range.1 hj)
  rw [decimAt, List.length_append, List.length_singleton, List.range_succ, List.foldl_concat, hfold]

theorem decimAt_append_singleton_of_lt {h : List F64} {pos : Nat} (x : List F64) (t : F64) (hlt : pos < h.length) :
    decimAt x (h ++ [t]) pos = decimAt x h pos := by
  rw [decimAt_append_singleton, decimTerm, if_neg (by omega)]

theorem decimAt_append_singleton_of_le {x h : List F64} {pos : Nat} (t : F64) (hle : h.length ≤ pos)
    (hpos : pos - h.length < x.length) :
    decimAt x (h ++ [t]) pos = fadd (decimAt x h pos) (fmul t x[pos - h.length]) := by
  have htap : (h ++ [t]).getD h.length fZero = t := by simp
  rw [decimAt_append_singleton, decimTerm, if_pos hle, htap, List.getD_eq_getElem x fZero hpos]

/-! ### The kept outputs (R211, R212) -/

section KeptOutputs

variable {x h : List F64} {d k : Nat}

/-- Output `k` exists when its position `k * d` is one of the input's, and it is the full-rate sum there. -/
theorem decimR_getElem?_eq_some_iff {v : F64} (hd : 0 < d) :
    (decimR x h d)[k]? = some v ↔ k * d < x.length ∧ decimAt x h (k * d) = v := by
  rw [← lt_ceilDiv hd]
  simp [decimR, List.getElem?_eq_some_iff]

theorem decimR_getElem?_of_lt (hd : 0 < d) (hk : k * d < x.length) :
    (decimR x h d)[k]? = some (decimAt x h (k * d)) :=
  (decimR_getElem?_eq_some_iff hd).2 ⟨hk, rfl⟩

/-- The full-rate filter is the decimator with `d = 1`. -/
theorem decimR_getElem?_eq_fullRate (hd : 0 < d) (hk : k * d < x.length) :
    (decimR x h d)[k]? = (decimR x h 1)[k * d]? := by
  rw [decimR_getElem?_of_lt hd hk, decimR_getElem?_of_lt Nat.one_pos (by rwa [Nat.mul_one]), Nat.mul_one]

end KeptOutputs

/-- Settles O53: output `k` is the full-rate sum at position `k * d`, to which a tap past that position adds nothing. -/
theorem decimatorKeepsEveryDthOutput : Obligations.DecimatorKeepsEveryDthOutput := by
  intro x h d hd
  refine ⟨decimR_length x h d, fun k hk => ?_, fun t k acc hacc => ?_⟩
  · have hpos : k * d < x.length := (lt_ceilDiv hd).1 hk
    exact ⟨decimR_getElem?_eq_fullRate hd hpos, (decimR_getElem?_eq_some_iff hd).2 ⟨hpos, decimAt_nil x _⟩⟩
  · obtain ⟨hpos, rfl⟩ := (decimR_getElem?_eq_some_iff hd).1 hacc
    rw [decimR_getElem?_of_lt hd hpos]
    refine ⟨fun hlt => by rw [decimAt_append_singleton_of_lt x t hlt], fun hle => ?_⟩
    have hm : k * d - h.length < x.length := by omega
    exact ⟨x[k * d - h.length], List.getElem?_eq_getElem hm, by rw [decimAt_append_singleton_of_le t hle hm]⟩

/-! ### No output is `-0` (R214) -/

theorem ne_fNegZero_of_magOf_ne_zero {a : F64} (h : magOf a ≠ 0) : a ≠ fNegZero :=
  fun heq => h (eq_fNegZero_iff.1 heq).2

theorem ne_fNegZero_of_isInf {a : F64} (h : isInf a = true) : a ≠ fNegZero :=
  ne_fNegZero_of_magOf_ne_zero (by rw [of_decide_eq_true h]; decide)

theorem nanOf_ne_fNegZero (a b : F64) : nanOf a b ≠ fNegZero := by
  apply ne_fNegZero_of_magOf_ne_zero
  have hinf : infMag = 2047 * 2 ^ 52 := by decide
  unfold nanOf
  rw [magOf_ofMag (by omega)]
  omega

/-- A whole number of units other than 0 does not round to 0, since the quantum is at least one unit. -/
theorem rnUnits_one_ne_zero {n : Nat} (hn : n ≠ 0) : rnUnits n 1 ≠ 0 := by
  intro hzero
  have hval := unitsOfMag_rnUnits n Nat.one_pos (by rw [hzero]; decide)
  have hsig : divNearestEven n (1 * 2 ^ quantum n 1) = 0 := by
    rw [hzero, unitsOfMag_zero, eq_comm, Nat.mul_eq_zero] at hval
    exact hval.resolve_right (Nat.pow_pos (by decide)).ne'
  obtain ⟨-, hquantum | hlarge⟩ := significand_bounds n Nat.one_pos
  · rw [hquantum, Nat.pow_zero, divNearestEven_of_dvd Nat.one_pos (one_dvd n), Nat.div_one] at hsig
    exact hn hsig
  · omega

theorem rn_one_ne_fNegZero {neg : Bool} {n : Nat} (hn : n ≠ 0) : rn neg n 1 ≠ fNegZero := by
  apply ne_fNegZero_of_magOf_ne_zero
  rw [rn, magOf_ofMag (rnUnits_lt n 1)]
  exact rnUnits_one_ne_zero hn

/-- Two negative values add up to 0 only when both are `-0`. -/
theorem eq_fNegZero_of_units_add_eq_zero {a b : F64} (ha : signOf a = true) (hb : signOf b = true)
    (hsum : units a + units b = 0) : a = fNegZero := by
  have hna : ¬0 < units a := by simp [units_pos_iff, ha]
  have hnb : ¬0 < units b := by simp [units_pos_iff, hb]
  exact eq_fNegZero_iff.2 ⟨ha, (units_eq_zero a).1 (by omega)⟩

/-- A sum is `-0` only when both operands are (R13); the branches are those of `fadd`. -/
theorem fadd_ne_fNegZero {a : F64} (b : F64) (ha : a ≠ fNegZero) : fadd a b ≠ fNegZero := by
  unfold fadd
  dsimp only
  split_ifs with hnan hinfA hopposite hinfB hsum
  · exact nanOf_ne_fNegZero a b
  · exact nanOf_ne_fNegZero a b
  · exact ha
  · exact ne_fNegZero_of_isInf hinfB
  · intro heq
    rw [eq_fNegZero_iff, signOf_ofMag (by decide), Bool.and_eq_true] at heq
    obtain ⟨⟨hsa, hsb⟩, -⟩ := heq
    exact ha (eq_fNegZero_of_units_add_eq_zero hsa hsb hsum)
  · exact rn_one_ne_fNegZero (Int.natAbs_ne_zero.2 hsum)

theorem decimTerm_ne_fNegZero {acc : F64} (x h : List F64) (pos j : Nat) (hacc : acc ≠ fNegZero) :
    decimTerm x h pos acc j ≠ fNegZero := by
  unfold decimTerm
  split
  · exact fadd_ne_fNegZero _ hacc
  · exact hacc

/-- The accumulator starts at `+0`, and no term makes it `-0`. -/
theorem decimAt_ne_fNegZero (x h : List F64) (pos : Nat) : decimAt x h pos ≠ fNegZero :=
  List.foldlRecOn (motive := (· ≠ fNegZero)) _ _ (by decide) fun _ hacc j _ => decimTerm_ne_fNegZero x h pos j hacc

/-- Settles O54: every output is one accumulated sum. -/
theorem decimatorOutputIsNeverNegativeZero : Obligations.DecimatorOutputIsNeverNegativeZero := by
  intro x h d hmem
  obtain ⟨k, -, heq⟩ := List.mem_map.1 hmem
  exact decimAt_ne_fNegZero x h (k * d) heq

end Sys2Proof.Proofs
end

-- ==== The discriminator ====
section
/-! PROOFS. Stage 3 (R242): `ATAN2_FN` on each axis and off the axes, the half turn its results keep to, and the half
plane their sign bit gives. -/

namespace Sys2Proof.Proofs

open Sys2Proof Sys2Proof.Machine Sys2Proof.Laws

theorem isZero_eq_decide_units (a : F64) : isZero a = decide (units a = 0) :=
  decide_eq_decide.2 (units_eq_zero a).symm

/-! ### ATAN2_FN on the axes and off them -/

section FiniteOperands

variable {y x : F64} (hy : isFinite y = true) (hx : isFinite x = true)

include hy hx

/-- Obligation 2: the sign of a zero `x` is not read. -/
theorem atan2Fn_of_units_y_eq_zero (hzero : units y = 0) :
    atan2Fn y x = if units x < 0 then pi64 else fZero := by
  by_cases hxz : units x = 0
  · simp [atan2Fn, isZero_eq_decide_units, hy, hx, hzero, hxz]
  · simp [atan2Fn, isZero_eq_decide_units, hy, hx, hzero, hxz, signOf_eq_units_neg hxz]

/-- Obligation 3. -/
theorem atan2Fn_of_units_x_eq_zero (hyz : units y ≠ 0) (hzero : units x = 0) :
    atan2Fn y x = if units y < 0 then negPi64Half else pi64Half := by
  simp [atan2Fn, isZero_eq_decide_units, hy, hx, hyz, hzero, signOf_eq_units_neg hyz]

theorem atan2Fn_of_off_axes (hyz : units y ≠ 0) (hxz : units x ≠ 0) :
    atan2Fn y x = clampSigned (decide (units y < 0)) (Config.atan2Raw y x) := by
  simp [atan2Fn, isZero_eq_decide_units, hy, hx, hyz, hxz, signOf_eq_units_neg hyz]

end FiniteOperands

/-! ### The range and the half planes -/

/-- The interval `[-PI64, PI64]` of obligation 1, by magnitude bits. -/
def InHalfTurn (v : F64) : Prop := magOf v ≤ magOf pi64

theorem InHalfTurn.isFinite {v : F64} (h : InHalfTurn v) : isFinite v = true :=
  (isFinite_iff v).2 (Nat.lt_of_le_of_lt h (by decide))

theorem inHalfTurn_clampSigned (neg : Bool) (v : F64) : InHalfTurn (clampSigned neg v) := by
  unfold clampSigned
  split
  case isTrue h => exact h.2
  case isFalse => rw [InHalfTurn, magOf_ofMag_zero]; exact Nat.zero_le _

theorem signOf_clampSigned (neg : Bool) (v : F64) : signOf (clampSigned neg v) = neg := by
  unfold clampSigned
  split
  case isTrue h => exact h.1
  case isFalse => exact signOf_ofMag (by decide)

/-- On the axes the result is a constant of the interval, elsewhere it is clamped into it. -/
theorem inHalfTurn_atan2Fn {y x : F64} (hy : isFinite y = true) (hx : isFinite x = true) :
    InHalfTurn (atan2Fn y x) := by
  by_cases hyz : units y = 0
  · rw [atan2Fn_of_units_y_eq_zero hy hx hyz]
    split
    · exact Nat.le_refl _
    · exact (by decide : magOf fZero ≤ magOf pi64)
  · by_cases hxz : units x = 0
    · rw [atan2Fn_of_units_x_eq_zero hy hx hyz hxz]
      split
      · exact (by decide : magOf negPi64Half ≤ magOf pi64)
      · exact (by decide : magOf pi64Half ≤ magOf pi64)
    · rw [atan2Fn_of_off_axes hy hx hyz hxz]
      exact inHalfTurn_clampSigned _ _

/-- Obligation 4, on the `y` axis included: the constants there carry the sign of `y`. -/
theorem signOf_atan2Fn {y x : F64} (hy : isFinite y = true) (hx : isFinite x = true) (hyz : units y ≠ 0) :
    signOf (atan2Fn y x) = decide (units y < 0) := by
  by_cases hxz : units x = 0
  · rw [atan2Fn_of_units_x_eq_zero hy hx hyz hxz]
    split
    case isTrue hneg => rw [decide_eq_true hneg]; decide
    case isFalse hneg => rw [decide_eq_false hneg]; decide
  · rw [atan2Fn_of_off_axes hy hx hyz hxz, signOf_clampSigned]

/-- Settles O48: the axes by their own equations, the range and the sign bit at every point. -/
theorem atan2Obligations : Obligations.Atan2Obligations := by
  intro y x hy hx
  have hrange := inHalfTurn_atan2Fn hy hx
  refine ⟨hrange.isFinite, hrange, fun hyz hxs => ?_, fun hyz hxs => ?_, fun hxz hys => ?_, fun hxz hys => ?_,
    fun hys => ?_, fun hys => ?_⟩
  · exact (atan2Fn_of_units_y_eq_zero hy hx hyz).trans (if_neg hxs.not_gt)
  · exact (atan2Fn_of_units_y_eq_zero hy hx hyz).trans (if_pos hxs)
  · exact (atan2Fn_of_units_x_eq_zero hy hx hys.ne' hxz).trans (if_neg hys.not_gt)
  · exact (atan2Fn_of_units_x_eq_zero hy hx hys.ne hxz).trans (if_pos hys)
  · exact (signOf_atan2Fn hy hx hys.ne').trans (decide_eq_false hys.not_gt)
  · exact (signOf_atan2Fn hy hx hys.ne).trans (decide_eq_true hys)

end Sys2Proof.Proofs
end

-- ==== The de-emphasis coefficients ====
section
/-! PROOFS. The pole `x` and the gain `b0 = 1 - x` of the de-emphasis (R260 to R262): the interval the pole lies in is one
binade, so pole and gain are whole numbers of one quantum, and the gain has too few of them to be rounded. -/

namespace Sys2Proof.Proofs

open Sys2Proof Sys2Proof.Machine Sys2Proof.Laws

/-! ### Sums with a short significand are exact (R13) -/

theorem rnUnits_shortSignificand_lt_infMag {n k : Nat} (hn : n < 2 ^ 53) (hk : k ≤ 2045) :
    rnUnits (n * 2 ^ k * 1) 1 < infMag := by
  apply rnUnits_finite _ _ Nat.one_pos
  rw [unitsOfMag_max, Nat.mul_one, Nat.one_mul]
  have hsig : n ≤ 2 ^ 53 - 1 := by omega
  gcongr
  exact one_le_two

/-- A positive sum of fewer than `2^53` quanta is not rounded. -/
theorem units_fadd_of_shortSignificand {a b : F64} {n k : Nat} (ha : isFinite a = true) (hb : isFinite b = true)
    (hpos : 0 < n) (hn : n < 2 ^ 53) (hk : k ≤ 2045) (hsum : units a + units b = (n * 2 ^ k : Nat)) :
    units (fadd a b) = units a + units b := by
  have hsumPos : 0 < n * 2 ^ k := Nat.mul_pos hpos (Nat.two_pow_pos k)
  have hexact := unitsOfMag_rnUnits_of_shortSignificand hn Nat.one_pos (rnUnits_shortSignificand_lt_infMag hn hk)
  rw [fadd_of_finite ha hb, hsum, if_neg (by omega), decide_eq_false (by omega), units_rn, Int.natAbs_natCast]
  rw [Nat.mul_one] at hexact
  rw [hexact, if_neg Bool.false_ne_true]

/-! ### The interval `[0.5, 1.0)` -/

/-- The interval `[0.5, 1.0)` of R261, by the order of R14. -/
def InPoleInterval (x : F64) : Prop := fle fHalf x = true ∧ flt x fOne = true

theorem inPoleInterval_fHalf : InPoleInterval fHalf := ⟨by decide, by decide⟩

/-- In the binade from 0.5 to 1.0 a value is its significand, counted in quanta of `2^1021` units. -/
theorem units_of_significand {x : F64} {c : Nat} (hsign : signOf x = false) (hmag : magOf x = 1021 * 2 ^ 52 + c)
    (hlo : 2 ^ 52 ≤ c) (hhi : c ≤ 2 ^ 53) : units x = (c * 2 ^ 1021 : Nat) := by
  rw [units, hsign, absUnits, hmag, unitsOfMag_of_significand hhi (.inr hlo), if_neg Bool.false_ne_true]

theorem units_fHalf_eq_quanta : units fHalf = (2 ^ 52 * 2 ^ 1021 : Nat) :=
  units_of_significand (by decide) (by decide) (by decide) (by decide)

theorem units_fOne_eq_quanta : units fOne = (2 ^ 53 * 2 ^ 1021 : Nat) :=
  units_of_significand (by decide) (by decide) (by decide) (by decide)

namespace InPoleInterval

variable {x : F64} (h : InPoleInterval x)

include h

theorem units_ge : units fHalf ≤ units x := ((fle_iff _ _).1 h.1).2.2

theorem units_lt : units x < units fOne := ((flt_iff _ _).1 h.2).2.2

theorem signOf_eq_false : signOf x = false := by
  have hhalf : 0 < units fHalf := (units_pos_iff fHalf).2 ⟨by decide, by decide⟩
  exact ((units_pos_iff x).1 (hhalf.trans_le h.units_ge)).1

/-- With the sign fixed, the magnitude bits lie between those of the bounds. -/
theorem magOf_bounds : magOf fHalf ≤ magOf x ∧ magOf x < magOf fOne := by
  have hlo := (orderKey_le_iff _ _).2 h.units_ge
  have hhi := (orderKey_lt_iff _ _).2 h.units_lt
  have hsign := h.signOf_eq_false
  have hhalf : signOf fHalf = false := by decide
  have hone : signOf fOne = false := by decide
  simp only [orderKey, hsign, hhalf, hone] at hlo hhi
  exact ⟨Int.ofNat_le.1 hlo, Int.ofNat_lt.1 hhi⟩

theorem isFinite : isFinite x = true :=
  (isFinite_iff x).2 (h.magOf_bounds.2.trans (by decide))

theorem exists_significand : ∃ c : Nat, 2 ^ 52 ≤ c ∧ c < 2 ^ 53 ∧ units x = (c * 2 ^ 1021 : Nat) := by
  obtain ⟨hlo, hhi⟩ := h.magOf_bounds
  have hhalf : magOf fHalf = 1021 * 2 ^ 52 + 2 ^ 52 := by decide
  have hone : magOf fOne = 1021 * 2 ^ 52 + 2 ^ 53 := by decide
  obtain ⟨c, hc⟩ := Nat.exists_eq_add_of_le (show 1021 * 2 ^ 52 ≤ magOf x by omega)
  exact ⟨c, by omega, by omega, units_of_significand h.signOf_eq_false hc (by omega) (by omega)⟩

end InPoleInterval

/-! ### The pole (R261) -/

/-- On the arguments R261 names, a raw value outside the interval gives way to `0.5`. -/
theorem inPoleInterval_expFn {a : F64} (hlo : fle expArgMin a = true) (hhi : fle a expArgMax = true) :
    InPoleInterval (expFn a) := by
  unfold expFn
  rw [hlo, hhi, Bool.and_true, if_pos rfl]
  split
  case isTrue hraw => exact Bool.and_eq_true_iff.1 hraw
  case isFalse => exact inPoleInterval_fHalf

/-- Settles O49: the result is in `[0.5, 1.0)`, which holds finite values only. -/
theorem expObligations : Obligations.ExpObligations := by
  intro a hlo hhi
  have hx := inPoleInterval_expFn hlo hhi
  exact ⟨hx.isFinite, hx.units_ge, hx.units_lt⟩

/-! ### The gain (R262) -/

/-- `1.0` is `2^53` quanta and the pole at least `2^52`, so their difference fits a significand. -/
theorem units_deemphB0 {x : F64} (hx : InPoleInterval x) : units (deemphB0 x) = units fOne - units x := by
  obtain ⟨c, hlo, hhi, hunits⟩ := hx.exists_significand
  have hsum : units fOne + units (fneg x) = ((2 ^ 53 - c) * 2 ^ 1021 : Nat) := by
    rw [units_fneg, units_fOne_eq_quanta, hunits, ← sub_eq_add_neg, Nat.sub_mul,
      Int.ofNat_sub (Nat.mul_le_mul_right _ hhi.le)]
  rw [deemphB0, fsub, units_fadd_of_shortSignificand (by decide) (isFinite_fneg hx.isFinite) (by omega) (by omega)
    (by decide) hsum, units_fneg, sub_eq_add_neg]

theorem units_fOne_eq_two_mul_fHalf : units fOne = 2 * units fHalf := by
  rw [units_fOne_eq_quanta, units_fHalf_eq_quanta, pow_succ' 2 52, mul_assoc]
  exact Int.natCast_mul 2 _

/-- Settles O55: the gain is the exact difference, and the pole's bounds are the gain's. -/
theorem deemphasisGainIsExact : Obligations.DeemphasisGainIsExact := by
  intro x hlo hhi
  have hx : InPoleInterval x := ⟨hlo, hhi⟩
  have hgain := units_deemphB0 hx
  have hone := units_fOne_eq_two_mul_fHalf
  have hge := hx.units_ge
  have hlt := hx.units_lt
  exact ⟨by omega, by omega, by omega⟩

end Sys2Proof.Proofs
end

-- ==== The normalizer ====
section
/-! PROOFS. Stage 6 (R300 to R308): the peak of a buffer and silence, the rounding to PCM and its clamp, the amplitude a
buffer is scaled to, and the PCM buffer as the HOST reads it back. -/

namespace Sys2Proof.Proofs

open Sys2Proof Sys2Proof.Machine Sys2Proof.Safety Sys2Proof.Laws

/-! ### The peak (R301) -/

@[simp] theorem absUnits_fabs (v : F64) : absUnits (fabs v) = absUnits v := congrArg unitsOfMag (magOf_fabs v)

theorem isFinite_fabs {v : F64} (h : isFinite v = true) : isFinite (fabs v) = true := by
  rwa [isFinite_iff, magOf_fabs, ← isFinite_iff]

theorem absUnits_eq_zero_iff (a : F64) : absUnits a = 0 ↔ magOf a = 0 := unitsOfMag_eq_zero

theorem units_of_signOf_eq_false {a : F64} (h : signOf a = false) : units a = absUnits a := by
  rw [units, h, if_neg Bool.false_ne_true]

/-- One step of the maximum: the larger of the two, by magnitude when neither has a sign. -/
theorem fmax_fabs {p v : F64} (hp : isFinite p = true) (hsign : signOf p = false) (hv : isFinite v = true) :
    fmax p (fabs v) = if absUnits p < absUnits v then fabs v else p := by
  have hlt : orderKey p < orderKey (fabs v) ↔ absUnits p < absUnits v := by
    rw [orderKey_lt_iff, units_of_signOf_eq_false hsign, units_of_signOf_eq_false (signOf_fabs v), absUnits_fabs,
      Int.ofNat_lt]
  rw [fmax, isNan_of_isFinite hp, isNan_of_isFinite (isFinite_fabs hv), Bool.or_false, if_neg Bool.false_ne_true]
  exact if_congr hlt rfl rfl

/-- `p` is the largest absolute value of a buffer, or `+0` for the empty one. -/
structure IsPeak (p : F64) (y : List F64) : Prop where
  finite : isFinite p = true
  sign : signOf p = false
  upper : ∀ v ∈ y, absUnits v ≤ absUnits p
  attained : absUnits p = 0 ∨ ∃ v ∈ y, absUnits v = absUnits p

theorem isPeak_fZero_nil : IsPeak fZero [] :=
  ⟨by decide, by decide, fun _ hv => absurd hv List.not_mem_nil, .inl rfl⟩

/-- One more sample: either it is the new peak, or the peak stays. -/
theorem IsPeak.concat {p v : F64} {y : List F64} (h : IsPeak p y) (hv : isFinite v = true) :
    IsPeak (fmax p (fabs v)) (y ++ [v]) := by
  have mem_iff (w : F64) : w ∈ y ++ [v] ↔ w ∈ y ∨ w = v := by simp
  rw [fmax_fabs h.finite h.sign hv]
  split
  case isTrue hlt =>
    refine ⟨isFinite_fabs hv, signOf_fabs v, fun w hw => ?_,
      .inr ⟨v, (mem_iff v).2 (.inr rfl), (absUnits_fabs v).symm⟩⟩
    rw [absUnits_fabs]
    obtain hw | rfl := (mem_iff w).1 hw
    · exact (h.upper w hw).trans hlt.le
    · exact le_rfl
  case isFalse hge =>
    refine ⟨h.finite, h.sign, fun w hw => ?_,
      h.attained.imp_right fun ⟨w, hw, heq⟩ => ⟨w, (mem_iff w).2 (.inl hw), heq⟩⟩
    obtain hw | rfl := (mem_iff w).1 hw
    · exact h.upper w hw
    · exact Nat.le_of_not_lt hge

theorem isPeak_peakOf {y : List F64} (hy : ∀ v ∈ y, isFinite v = true) : IsPeak (peakOf y) y := by
  induction y using List.reverseRecOn with
  | nil => exact isPeak_fZero_nil
  | append_singleton y v ih =>
    rw [peakOf, List.foldl_concat]
    exact (ih fun w hw => hy w (List.mem_append_left _ hw)).concat (hy v (by simp))

theorem IsPeak.exists_of_ne_nil {p : F64} {y : List F64} (h : IsPeak p y) (hne : y ≠ []) :
    ∃ v ∈ y, absUnits v = absUnits p := by
  obtain hzero | hex := h.attained
  · have hmem := List.head_mem hne
    have hle := h.upper _ hmem
    exact ⟨y.head hne, hmem, by omega⟩
  · exact hex

theorem IsPeak.absUnits_eq_zero_iff_forall {p : F64} {y : List F64} (h : IsPeak p y) :
    absUnits p = 0 ↔ ∀ v ∈ y, absUnits v = 0 := by
  refine ⟨fun hzero v hv => Nat.eq_zero_of_le_zero (hzero ▸ h.upper v hv), fun hall => ?_⟩
  obtain hzero | ⟨v, hv, heq⟩ := h.attained
  · exact hzero
  · exact heq.symm.trans (hall v hv)

/-! ### The two branches of NORMALIZE (R300, R302) -/

theorem normalizeBuf_silent (y : List F64) (rnd : Bool) : (normalizeBuf y rnd).silent = isZero (peakOf y) := by
  unfold normalizeBuf
  dsimp only
  split
  case isTrue h => exact h.symm
  case isFalse h => exact (Bool.eq_false_iff.2 h).symm

theorem normalizeBuf_pcm_of_silent {y : List F64} {rnd : Bool} (h : (normalizeBuf y rnd).silent = true) :
    (normalizeBuf y rnd).pcm = y.map fun _ => 0#16 := by
  rw [normalizeBuf_silent] at h
  exact congrArg Normalized.pcm (if_pos h)

theorem normalizeBuf_pcm_of_not_silent {y : List F64} {rnd : Bool} (h : (normalizeBuf y rnd).silent = false) :
    (normalizeBuf y rnd).pcm = y.map fun v => BitVec.ofInt 16 (pcmInt rnd (scaleOne (peakOf y) v)) := by
  rw [normalizeBuf_silent] at h
  exact congrArg Normalized.pcm (if_neg (Bool.eq_false_iff.1 h))

theorem normalizeBuf_silent_iff (y : List F64) (rnd : Bool) :
    (normalizeBuf y rnd).silent = true ↔ absUnits (peakOf y) = 0 := by
  rw [normalizeBuf_silent, isZero_iff, absUnits_eq_zero_iff]

/-- Settles O56: the peak is a maximum of magnitudes, so it is zero exactly when all of them are. -/
theorem peakAndSilence : Obligations.PeakAndSilence := by
  intro y rnd hy
  have hpeak := isPeak_peakOf hy
  refine ⟨hpeak.upper, hpeak.sign, hpeak.exists_of_ne_nil,
    (normalizeBuf_silent_iff y rnd).trans hpeak.absUnits_eq_zero_iff_forall, fun hsilent c hc => ?_⟩
  rw [normalizeBuf_pcm_of_silent hsilent] at hc
  obtain ⟨-, -, heq⟩ := List.mem_map.1 hc
  exact heq.symm

/-! ### ROUND (R304) -/

/-- The magnitude of `ROUND(v, RND)`. -/
def roundedMag (v : F64) (rnd : Bool) : Nat :=
  if rnd then absUnits v / oneUnits else divNearestEven (absUnits v) oneUnits

theorem roundPcm_of_finite {v : F64} (h : isFinite v = true) (rnd : Bool) :
    roundPcm v rnd = .int (if signOf v then -(roundedMag v rnd : Int) else (roundedMag v rnd : Int)) := by
  rw [roundPcm, isNan_of_isFinite h, isInf_of_isFinite h]
  rfl

/-- A tie, read off the integer it is rounded to: the two integers beside a tie are half away each. -/
theorem divNearestEven_even_of_tie {n d : Nat} (hd : 0 < d)
    (h : 2 * n = d * (2 * divNearestEven n d + 1) ∨ d * (2 * divNearestEven n d) = 2 * n + d) :
    divNearestEven n d % 2 = 0 := by
  apply divNearestEven_tie
  have hdivmod := Nat.div_add_mod n d
  have hlt := Nat.mod_lt n hd
  have hfloor : divNearestEven n d = n / d ∨ divNearestEven n d = n / d + 1 := by
    unfold divNearestEven
    dsimp only
    split
    · exact .inr rfl
    · exact .inl rfl
  generalize n / d = q at *
  generalize n % d = r at *
  obtain hc | hc := hfloor
  · rw [hc] at h
    obtain h | h := h <;> linarith
  · rw [hc] at h
    obtain h | h := h <;> linarith

/-- The nearest integer as a distance, in the same unit as `n`. -/
theorem abs_sub_divNearestEven (n : Nat) {d : Nat} (hd : 0 < d) :
    2 * |(n : Int) - divNearestEven n d * d| ≤ d ∧
      (2 * |(n : Int) - divNearestEven n d * d| = d → divNearestEven n d % 2 = 0) := by
  obtain ⟨hbelow, habove⟩ := divNearestEven_spec n hd
  have htie := divNearestEven_even_of_tie (n := n) hd
  generalize divNearestEven n d = c at *
  zify at hbelow habove htie
  obtain ⟨habs, -⟩ | ⟨habs, -⟩ := abs_cases ((n : Int) - c * d)
  · rw [habs]
    exact ⟨by linarith, fun heq => by exact_mod_cast htie (.inl (by linarith))⟩
  · rw [habs]
    exact ⟨by linarith, fun heq => by exact_mod_cast htie (.inr (by linarith))⟩

/-- The integer 1 in the units of a statement and in those of the model. -/
theorem two_pow_1074_eq_oneUnits : (2 : Int) ^ 1074 = oneUnits := by
  rw [oneUnits_eq]
  exact (Nat.cast_pow 2 1074).symm

/-- A common sign does not change a distance. -/
theorem abs_sub_mul_of_same_sign (neg : Bool) (a c d : Int) :
    |(if neg then -a else a) - (if neg then -c else c) * d| = |a - c * d| := by
  cases neg
  · rfl
  · rw [if_pos rfl, if_pos rfl, neg_mul, neg_sub_neg, abs_sub_comm]

theorem abs_signed (neg : Bool) (m : Nat) : |if neg then -(m : Int) else (m : Int)| = m := by
  cases neg <;> simp

theorem signed_mul_signed (neg : Bool) (m n : Nat) :
    (if neg then -(m : Int) else (m : Int)) * (if neg then -(n : Int) else (n : Int)) = (m * n : Nat) := by
  cases neg <;> simp

theorem roundPcm_nearest {v : F64} (h : isFinite v = true) :
    ∃ n : Int, roundPcm v false = .int n ∧ 2 * |units v - n * 2 ^ 1074| ≤ 2 ^ 1074 ∧
      (2 * |units v - n * 2 ^ 1074| = 2 ^ 1074 → n % 2 = 0) := by
  refine ⟨_, roundPcm_of_finite h false, ?_⟩
  obtain ⟨hle, htie⟩ := abs_sub_divNearestEven (absUnits v) oneUnits_pos
  rw [two_pow_1074_eq_oneUnits, units, abs_sub_mul_of_same_sign]
  refine ⟨hle, fun heq => ?_⟩
  have heven : roundedMag v false % 2 = 0 := htie heq
  split <;> omega

theorem roundPcm_truncated {v : F64} (h : isFinite v = true) :
    ∃ n : Int, roundPcm v true = .int n ∧ 0 ≤ n * units v ∧ |n| * 2 ^ 1074 ≤ |units v| ∧
      |units v| < (|n| + 1) * 2 ^ 1074 := by
  refine ⟨_, roundPcm_of_finite h true, ?_⟩
  have hle : roundedMag v true * oneUnits ≤ absUnits v := Nat.div_mul_le_self _ _
  have hlt : absUnits v < (roundedMag v true + 1) * oneUnits := by
    rw [mul_comm]
    exact Nat.lt_mul_div_succ _ oneUnits_pos
  rw [two_pow_1074_eq_oneUnits, units, abs_signed, abs_signed, signed_mul_signed]
  exact ⟨Int.natCast_nonneg _, by exact_mod_cast hle, by exact_mod_cast hlt⟩

/-! ### SAT16 (R305) -/

theorem sat16_int_of_lt {n : Int} (h : n < -32768) : sat16 (.int n) = -32768 := if_pos h

theorem sat16_int_of_gt {n : Int} (h : 32767 < n) : sat16 (.int n) = 32767 := by
  rw [sat16, if_neg (by omega), if_pos h]

theorem sat16_int_of_int16 {n : Int} (hlo : -32768 ≤ n) (hhi : n ≤ 32767) : sat16 (.int n) = n := by
  rw [sat16, if_neg (by omega), if_neg (by omega)]

/-- Settles O57: ROUND by its magnitude, which the sign does not change, and SAT16 by its three ranges. -/
theorem pcmRoundingAndSaturation : Obligations.PcmRoundingAndSaturation :=
  ⟨fun _ hv => ⟨roundPcm_nearest hv, roundPcm_truncated hv⟩,
    fun _ => ⟨sat16_int_of_lt, sat16_int_of_gt, sat16_int_of_int16⟩, rfl⟩

/-! ### A value near the target amplitude, as a PCM sample (R304, R305) -/

section Rounding

variable {v : F64}

theorem roundedMag_le (h : 2 * absUnits v < 20001 * oneUnits) (rnd : Bool) : roundedMag v rnd ≤ 10000 := by
  have hone := oneUnits_pos
  cases rnd with
  | true => exact Nat.le_of_lt_succ ((Nat.div_lt_iff_lt_mul hone).2 (by omega))
  | false =>
    obtain ⟨-, hbelow⟩ := divNearestEven_spec (absUnits v) hone
    have hlt : oneUnits * (2 * roundedMag v false) < oneUnits * 20002 := hbelow.trans_lt (by omega)
    have := Nat.lt_of_mul_lt_mul_left hlt
    omega

theorem le_roundedMag_nearest (h : 19999 * oneUnits < 2 * absUnits v) : 10000 ≤ roundedMag v false := by
  obtain ⟨habove, -⟩ := divNearestEven_spec (absUnits v) oneUnits_pos
  rw [mul_comm] at h
  have hlt : oneUnits * 19999 < oneUnits * (2 * roundedMag v false + 1) := h.trans_le habove
  have := Nat.lt_of_mul_lt_mul_left hlt
  omega

theorem le_roundedMag_truncated (h : 19999 * oneUnits < 2 * absUnits v) : 9999 ≤ roundedMag v true :=
  (Nat.le_div_iff_mul_le oneUnits_pos).2 (by omega)

/-- Within the target amplitude SAT16 and the 16-bit encoding keep the rounded integer. -/
theorem natAbs_pcm_of_roundedMag_le (hfin : isFinite v = true) {rnd : Bool} (h : roundedMag v rnd ≤ 10000) :
    (BitVec.ofInt 16 (pcmInt rnd v)).toInt.natAbs = roundedMag v rnd := by
  rw [pcmInt, roundPcm_of_finite hfin]
  have hnatAbs := abs_signed (signOf v) (roundedMag v rnd)
  rw [Int.abs_eq_natAbs, Int.natCast_inj] at hnatAbs
  generalize (if signOf v then -(roundedMag v rnd : Int) else (roundedMag v rnd : Int)) = n at *
  rw [sat16_int_of_int16 (by omega) (by omega), toInt_ofInt_of_int16 (by omega) (by omega), hnatAbs]

end Rounding

/-! ### The rounding error (R13) -/

/-- Times the denominator, rounding changes a number by at most half a quantum. -/
theorem rnUnits_error_le_half_quantum (n : Nat) {d : Nat} (hd : 0 < d) (hfin : rnUnits n d < infMag) :
    2 * n ≤ 2 * (d * unitsOfMag (rnUnits n d)) + d * 2 ^ quantum n d ∧
      2 * (d * unitsOfMag (rnUnits n d)) ≤ 2 * n + d * 2 ^ quantum n d := by
  rw [unitsOfMag_rnUnits n hd hfin]
  obtain ⟨hbelow, habove⟩ := divNearestEven_spec n (Nat.mul_pos hd (Nat.two_pow_pos (quantum n d)))
  generalize 2 ^ quantum n d = p at *
  constructor <;> linarith

/-- The quantum is one unit, or at most `2^-52` of the number. -/
theorem quantum_eq_zero_or_le (n : Nat) {d : Nat} (hd : 0 < d) :
    quantum n d = 0 ∨ 2 ^ 52 * (d * 2 ^ quantum n d) ≤ n := by
  obtain ⟨-, hzero | hle⟩ := quantum_spec n d
  · exact .inl hzero
  · rw [Nat.le_div_iff_mul_le hd, pow_add] at hle
    exact .inr (by linarith)

/-- `x` and `y` differ by at most `2^-53 * e`. -/
structure ErrorAtMost (e x y : Nat) : Prop where
  le_add : 2 ^ 53 * x ≤ 2 ^ 53 * y + e
  add_ge : 2 ^ 53 * y ≤ 2 ^ 53 * x + e

/-- A quotient is rounded by at most `2^-53` of itself plus half a unit. -/
theorem rnUnits_errorAtMost (n : Nat) {d : Nat} (hd : 0 < d) (hfin : rnUnits n d < infMag) :
    ErrorAtMost (n + 2 ^ 52 * d) n (d * unitsOfMag (rnUnits n d)) := by
  obtain ⟨hlo, hhi⟩ := rnUnits_error_le_half_quantum n hd hfin
  obtain hzero | hle := quantum_eq_zero_or_le n hd
  · rw [hzero, Nat.pow_zero, Nat.mul_one] at hlo hhi
    exact ⟨by omega, by omega⟩
  · exact ⟨by omega, by omega⟩

/-- A whole number of units has no half unit to lose: while the quantum is one unit it is kept. -/
theorem rnUnits_errorAtMost_of_whole (m : Nat) {d : Nat} (hd : 0 < d) (hfin : rnUnits (m * d) d < infMag) :
    ErrorAtMost m m (unitsOfMag (rnUnits (m * d) d)) := by
  obtain hzero | hle := quantum_eq_zero_or_le (m * d) hd
  · have hexact : unitsOfMag (rnUnits (m * d) d) = m := by
      rw [unitsOfMag_rnUnits _ hd hfin, hzero, Nat.pow_zero, Nat.mul_one, Nat.mul_one,
        divNearestEven_of_dvd hd (Nat.dvd_mul_left d m), Nat.mul_div_cancel m hd]
    rw [hexact]
    exact ⟨Nat.le_add_right _ _, Nat.le_add_right _ _⟩
  · obtain ⟨hlo, hhi⟩ := rnUnits_error_le_half_quantum (m * d) hd hfin
    generalize unitsOfMag (rnUnits (m * d) d) = u at *
    generalize d * 2 ^ quantum (m * d) d = D at *
    exact ⟨Nat.le_of_mul_le_mul_left (by linarith) hd, Nat.le_of_mul_le_mul_left (by linarith) hd⟩

theorem absUnits_rn (neg : Bool) (n d : Nat) : absUnits (rn neg n d) = unitsOfMag (rnUnits n d) :=
  absUnits_ofMag (rnUnits_lt n d)

/-! ### Scaling (R303, R306, R308) -/

theorem absUnits_f10000 : absUnits f10000 = 10000 * oneUnits := by decide +kernel

theorem two_pow_53_le_oneUnits : 2 ^ 53 ≤ oneUnits := by decide +kernel

/-- The product and the quotient of R303 stay below infinity. -/
theorem scaling_le_max :
    10000 * 2 ^ 1274 ≤ unitsOfMag (infMag - 1) ∧ 20000 * oneUnits ≤ unitsOfMag (infMag - 1) := by
  decide +kernel

/-- The product of R303 is finite, and its error is relative even on subnormal data. -/
theorem fmul_f10000_spec {v : F64} (hv : isFinite v = true) (hlt : absUnits v < 2 ^ 1274) :
    isFinite (fmul v f10000) = true ∧
      ErrorAtMost (10000 * absUnits v) (10000 * absUnits v) (absUnits (fmul v f10000)) := by
  have hprod : absUnits v * absUnits f10000 = 10000 * absUnits v * oneUnits := by
    rw [absUnits_f10000]
    ring
  have hfin : rnUnits (10000 * absUnits v * oneUnits) oneUnits < infMag := by
    apply rnUnits_finite _ _ oneUnits_pos
    rw [mul_comm]
    exact Nat.mul_le_mul_left _ ((Nat.mul_le_mul_left _ hlt.le).trans scaling_le_max.1)
  rw [fmul_of_finite hv (by decide), hprod, isFinite_rn, absUnits_rn]
  exact ⟨hfin, rnUnits_errorAtMost_of_whole _ oneUnits_pos hfin⟩

section Scaling

variable {peak v : F64} (hpeak : isFinite peak = true) (hpos : 0 < absUnits peak) (hlt : absUnits peak < 2 ^ 1274)
  (hv : isFinite v = true) (hle : absUnits v ≤ absUnits peak)

include hpeak hpos hlt hv hle

/-- The quotient of R303 is finite, and its error is relative but for half a unit. -/
theorem scaleOne_spec :
    isFinite (scaleOne peak v) = true ∧
      ErrorAtMost (absUnits (fmul v f10000) * oneUnits + 2 ^ 52 * absUnits peak)
        (absUnits (fmul v f10000) * oneUnits) (absUnits peak * absUnits (scaleOne peak v)) := by
  obtain ⟨hprodFin, -, hprod⟩ := fmul_f10000_spec hv (hle.trans_lt hlt)
  have hfin : rnUnits (absUnits (fmul v f10000) * oneUnits) (absUnits peak) < infMag := by
    apply rnUnits_finite _ _ hpos
    calc absUnits (fmul v f10000) * oneUnits
        ≤ absUnits peak * 20000 * oneUnits := Nat.mul_le_mul_right _ (by omega)
      _ = absUnits peak * (20000 * oneUnits) := mul_assoc _ _ _
      _ ≤ absUnits peak * unitsOfMag (infMag - 1) := Nat.mul_le_mul_left _ scaling_le_max.2
  have hmag : magOf peak ≠ 0 := mt (absUnits_eq_zero_iff peak).2 hpos.ne'
  rw [scaleOne, fdiv_of_finite hprodFin hpeak hmag, isFinite_rn, absUnits_rn]
  exact ⟨hfin, rnUnits_errorAtMost _ hpos hfin⟩

/-- No scaled sample reaches 10000.5 (R306). -/
theorem absUnits_scaleOne_lt : 2 * absUnits (scaleOne peak v) < 20001 * oneUnits := by
  obtain ⟨-, hprod⟩ := fmul_f10000_spec hv (hle.trans_lt hlt)
  obtain ⟨-, hquot⟩ := scaleOne_spec hpeak hpos hlt hv hle
  have hprodOne := Nat.mul_le_mul_right oneUnits hprod.add_ge
  have hquotPeak := hquot.add_ge
  have hleOne := Nat.mul_le_mul_right oneUnits hle
  have hunit := Nat.mul_le_mul_left (absUnits peak) two_pow_53_le_oneUnits
  refine Nat.lt_of_mul_lt_mul_left (a := absUnits peak) ?_
  linarith

/-- The sample at the peak passes 9999.5 (R308). -/
theorem lt_absUnits_scaleOne (heq : absUnits v = absUnits peak) :
    19999 * oneUnits < 2 * absUnits (scaleOne peak v) := by
  obtain ⟨-, hprod⟩ := fmul_f10000_spec hv (hle.trans_lt hlt)
  obtain ⟨-, hquot⟩ := scaleOne_spec hpeak hpos hlt hv hle
  have hprodOne := Nat.mul_le_mul_right oneUnits hprod.le_add
  rw [heq] at hprodOne
  have hquotPeak := hquot.le_add
  have hunit := Nat.mul_le_mul_left (absUnits peak) two_pow_53_le_oneUnits
  refine Nat.lt_of_mul_lt_mul_left (a := absUnits peak) ?_
  linarith

/-- A scaled sample is rounded into the target amplitude, where SAT16 changes nothing. -/
theorem natAbs_pcm_scaleOne (rnd : Bool) :
    (BitVec.ofInt 16 (pcmInt rnd (scaleOne peak v))).toInt.natAbs = roundedMag (scaleOne peak v) rnd ∧
      roundedMag (scaleOne peak v) rnd ≤ 10000 := by
  obtain ⟨hfin, -⟩ := scaleOne_spec hpeak hpos hlt hv hle
  have hamp := roundedMag_le (absUnits_scaleOne_lt hpeak hpos hlt hv hle) rnd
  exact ⟨natAbs_pcm_of_roundedMag_le hfin hamp, hamp⟩

end Scaling

/-- Settles O58: every scaled sample stays below 10000.5, and the one at the peak passes 9999.5. -/
theorem normalizedAmplitude : Obligations.NormalizedAmplitude := by
  intro y rnd hy hsilent
  have hpeak := isPeak_peakOf fun v hv => (hy v hv).1
  have hpos : 0 < absUnits (peakOf y) := by
    rw [Nat.pos_iff_ne_zero, Ne, ← normalizeBuf_silent_iff y rnd, hsilent]
    exact Bool.false_ne_true
  obtain ⟨w, hw, hwpeak⟩ := hpeak.attained.resolve_left hpos.ne'
  obtain ⟨hwfin, hlt⟩ := hy w hw
  rw [hwpeak] at hlt
  have hlarge := lt_absUnits_scaleOne hpeak.finite hpos hlt hwfin hwpeak.le hwpeak
  obtain ⟨hnatAbs, hamp⟩ := natAbs_pcm_scaleOne hpeak.finite hpos hlt hwfin hwpeak.le rnd
  rw [normalizeBuf_pcm_of_not_silent hsilent]
  refine ⟨fun c hc => ?_, fun hrnd => ⟨_, List.mem_map_of_mem hw, ?_⟩, fun hrnd => ⟨_, List.mem_map_of_mem hw, ?_⟩⟩
  · obtain ⟨v, hv, rfl⟩ := List.mem_map.1 hc
    obtain ⟨hvnatAbs, hvamp⟩ := natAbs_pcm_scaleOne hpeak.finite hpos hlt (hy v hv).1 (hpeak.upper v hv) rnd
    exact hvnatAbs.trans_le hvamp
  · subst hrnd
    have hge := le_roundedMag_nearest hlarge
    omega
  · subst hrnd
    have hge := le_roundedMag_truncated hlarge
    omega

/-! ### The PCM buffer in OBUF (R117, R307) -/

/-- A word of a list stored in memory, read at its place. -/
theorem readWord_writeBytes_flatMap (mem : List Host.Cell) (base : Nat) {ws : List Word} {m : Nat} {w : Word}
    (h : ws[m]? = some w) : readWord (writeBytes mem base (ws.flatMap bytesOfWord)) (base + 4 * m) = w := by
  have hbyte (k : Nat) (hk : k < 4) :
      readByte (writeBytes mem base (ws.flatMap bytesOfWord)) (base + 4 * m + k) = byteLane w k := by
    obtain ⟨hlen, heq⟩ := List.getElem?_eq_some_iff.1 (flatMap_bytesOfWord_getElem? ws m w h k hk)
    rw [Nat.add_assoc, readByte_writeBytes_inside mem base (4 * m + k) _ hlen, heq]
  rw [readWord, hbyte 1 (by decide), hbyte 2 (by decide), hbyte 3 (by decide)]
  exact (congrArg (wordOfBytes · _ _ _) (hbyte 0 (by decide))).trans (wordOfBytes_byteLane w)

/-- Settles O59: sample `k` stands in half `k % 2` of word `k / 2`, and that word is read where it was stored. -/
theorem storedPcmIsReadBack : Obligations.StoredPcmIsReadBack := by
  intro r s
  apply List.ext_getElem
  · simp [pcmSamples]
  intro k hk _
  have hlen : k < r.pcm.length := by simpa [pcmSamples] using hk
  obtain ⟨w, hw, hsample⟩ := packPcm_getElem? r.pcm k hlen
  simp only [pcmSamples, storeResult_mem, List.getElem_map, List.getElem_range]
  rw [readWord_writeBytes_flatMap s.mem obufBase hw, hsample]

end Sys2Proof.Proofs
end

-- ==== The command words ====
section
/-! PROOFS. The decoder of R114 and the encoder of R111: a word is its two fields, and it decodes exactly when RSV is
zero and OP is one of the five assigned codes. -/

namespace Sys2Proof.Proofs

open Sys2Proof Sys2Proof.Machine

/-! ### The fields of a word (R111) -/

theorem rsvField_append_opField (w : Word) : rsvField w ++ opField w = w := by
  rw [rsvField, opField, BitVec.extractLsb'_append_extractLsb'_eq_extractLsb' (by decide), BitVec.extractLsb'_eq_self]

theorem encode_eq_append (i : Instr) : encode i = 0#24 ++ opcode i := by
  cases i <;> rfl

theorem wellFormed_eq_true (i : Instr) : Instr.wellFormed i = true := by
  cases i <;> rfl

/-- The assigned codes are `0x00` to `0x04` (R112). -/
theorem exists_opcode_eq_iff (op : BitVec 8) : (∃ i, op = opcode i) ↔ op.toNat ≤ 4 := by
  constructor
  · rintro ⟨i, rfl⟩
    cases i <;> decide
  · intro hle
    have hcases : op.toNat = 0 ∨ op.toNat = 1 ∨ op.toNat = 2 ∨ op.toNat = 3 ∨ op.toNat = 4 := by omega
    obtain h | h | h | h | h := hcases
    · exact ⟨.nop, BitVec.eq_of_toNat_eq h⟩
    · exact ⟨.run, BitVec.eq_of_toNat_eq h⟩
    · exact ⟨.abort, BitVec.eq_of_toNat_eq h⟩
    · exact ⟨.clear, BitVec.eq_of_toNat_eq h⟩
    · exact ⟨.srst, BitVec.eq_of_toNat_eq h⟩

/-! ### Decoding (R113, R114) -/

theorem decode_encode (i : Instr) : decode (encode i) = .ok i := by
  cases i <;> rfl

/-- A word decodes to a command exactly when its fields are those of the command's encoding. -/
theorem decode_eq_ok_iff {w : Word} {i : Instr} : decode w = .ok i ↔ rsvField w = 0#24 ∧ opField w = opcode i := by
  constructor
  · intro hdecode
    unfold decode at hdecode
    split at hdecode
    case isTrue => cases hdecode
    case isFalse hrsv =>
      refine ⟨not_not.1 hrsv, BitVec.eq_of_toNat_eq ?_⟩
      split at hdecode <;> cases hdecode <;> assumption
  · rintro ⟨hrsv, hop⟩
    rw [← rsvField_append_opField w, hrsv, hop, ← encode_eq_append, decode_encode]

theorem exists_decode_eq_error_iff (w : Word) : (∃ e, decode w = .error e) ↔ ¬∃ i, decode w = .ok i := by
  cases decode w <;> simp

/-- Settles O1: the fields of a decodable word are those of the encoding, and a word is its two fields. -/
theorem decodeEncodeAgree : Obligations.DecodeEncodeAgree := by
  refine ⟨fun i _ => decode_encode i, fun w i hdecode => ?_⟩
  obtain ⟨hrsv, hop⟩ := decode_eq_ok_iff.1 hdecode
  refine ⟨?_, wellFormed_eq_true i⟩
  rw [← rsvField_append_opField w, hrsv, hop, encode_eq_append]

/-- Settles O2: no command decodes from the word when RSV is not zero or OP is above the five assigned codes. -/
theorem illegalWordsAreRejected : Obligations.IllegalWordsAreRejected := by
  intro w
  have hop := exists_opcode_eq_iff (opField w)
  have hbound : (opField w).toNat < 2 ^ 8 := (opField w).isLt
  rw [exists_decode_eq_error_iff]
  simp only [decode_eq_ok_iff, exists_and_left, hop]
  change ¬(rsvField w = 0#24 ∧ (opField w).toNat ≤ 4) ↔
    rsvField w ≠ 0#24 ∨ (5 ≤ (opField w).toNat ∧ (opField w).toNat ≤ 0xFF)
  rw [not_and_or]
  exact or_congr Iff.rfl (by omega)

/-- Settles O3: the five words are encodings, and the four illegal words fail one test of the decoder each. -/
theorem knownWordsDecode : Obligations.KnownWordsDecode :=
  ⟨decode_encode .nop, decode_encode .run, decode_encode .abort, decode_encode .clear, decode_encode .srst,
    rfl, rfl, rfl, rfl⟩

end Sys2Proof.Proofs
end

-- ==== The registers and the memories at the port ====
section
/-! PROOFS. What the HOST reads and writes at each place of the address map: the registers (R32 to R44), the input
memories while idle and while BUSY (R83, R91), OBUF (R92), and the port while `rst_n = 0` (R380). -/

namespace Sys2Proof.Proofs

open Sys2Proof Sys2Proof.Machine Sys2Proof.Safety Sys2Proof.Laws

/-! ### Commands and error entry (R35, R336, R337) -/

/-- Settles O4: offset `0x0004` selects CMD, whose write is the decoded command. -/
theorem stepRunsDecodedCommand : Obligations.StepRunsDecodedCommand := by
  intro s w i hrst hdecode _
  calc afterHost (.write (regName .cmd) .four w) s
      = busWrite (regName .cmd) .four w s := afterHost_eq _ s
    _ = mapNext (answer (okayReply 0#32)) (command w s) := busWrite_of_some (portSelect_reg hrst .cmd)
    _ = mapNext (answer (okayReply 0#32)) (exec i s) := by rw [command_of_ok hdecode]

/-- A write of 1 to ERR_IS takes away what error entry added to IRQ_STAT. -/
theorem ackIrq_raiseError (c : BitVec 8) (s : State) :
    ackIrq 2#32 (raiseError c s) = ackIrq 2#32 { s with status := (raiseError c s).status } := by
  have hbits : ∀ x : BitVec 2, (x ||| errBit) &&& ~~~((2#32).setWidth 2) = x &&& ~~~((2#32).setWidth 2) := by decide
  simp only [ackIrq, raiseError, hbits]

/-- Settles O16: the two acknowledgments write different fields, and together all that error entry writes. -/
theorem errorEntryAndAcknowledgment : Obligations.ErrorEntryAndAcknowledgment :=
  fun s c => ⟨raiseError_eq c s, rfl, congrArg acknowledge (ackIrq_raiseError c s)⟩

/-! ### Reads of the registers (R85, R158) -/

/-- A read of a place outside OBUF, or of OBUF while idle, moves nothing but the port's answer. -/
theorem readsAs_of_portSelect_eq_some {a : Offset} {s : State} {p : Place} (h : portSelect a .four s = some p)
    (hp : afterRead p s = s) : readsAs s a (readPlace p s) := by
  refine (afterHost_eq _ s).trans (congrArg Host.Outcome.next ?_)
  simp only [busRead, h, hp]
  rfl

theorem readsAs_reg {s : State} (hrst : s.rstN = true) (r : Reg) : readsAs s (regName r) (readReg r s) :=
  readsAs_of_portSelect_eq_some (portSelect_reg hrst r) rfl

/-- A field read with reserved bits 0 above it (R121). -/
theorem zero_append_eq_setWidth {n : Nat} (k : Nat) (x : BitVec n) : 0#k ++ x = x.setWidth (k + n) := by
  apply BitVec.eq_of_toNat_eq
  have hlt : x.toNat < 2 ^ (k + n) := x.isLt.trans_le (Nat.pow_le_pow_right (by decide) (Nat.le_add_left n k))
  simp [BitVec.toNat_append, Nat.mod_eq_of_lt hlt]

/-- Settles O19, register by register in the order of R85. -/
theorem registerReads : Obligations.RegisterReads := by
  intro s hrst
  rw [zero_append_eq_setWidth 30, zero_append_eq_setWidth 30, zero_append_eq_setWidth 31]
  have hread := readsAs_reg hrst
  exact ⟨hread .id, hread .cmd, hread .status, hread .irqEn, hread .irqStat, hread .cfg, hread .rate, hread .offset,
    hread .nsamp, hread .ntaps1, hread .ntaps2, hread .d1, hread .d2, hread .len1, hread .outlen, hread .peakLo,
    hread .peakHi, hread .paramNmax, hread .paramTmax⟩

/-! ### The word of STATUS (R33) -/

/-- The fields of STATUS, read off the word they are appended in: a field stands above those appended after it. -/
theorem statusFields_layout (errcode : BitVec 8) (stage : BitVec 3) (b0 b1 b2 b3 b4 b5 : Bool) :
    let w := 0#8 ++ errcode ++ 0#5 ++ stage ++ 0#2 ++ flagBit b5 ++ flagBit b4 ++ flagBit b3 ++ flagBit b2 ++
      flagBit b1 ++ flagBit b0
    w.getLsbD 0 = b0 ∧ w.getLsbD 1 = b1 ∧ w.getLsbD 2 = b2 ∧ w.getLsbD 3 = b3 ∧ w.getLsbD 4 = b4 ∧ w.getLsbD 5 = b5 ∧
      w.extractLsb' 6 2 = 0#2 ∧ w.extractLsb' 8 3 = stage ∧ w.extractLsb' 11 5 = 0#5 ∧
      w.extractLsb' 16 8 = errcode ∧ w.extractLsb' 24 8 = 0#8 := by
  intro w
  simp only [w, -Nat.reduceAdd, BitVec.extractLsb'_append_eq_of_le, BitVec.extractLsb'_append_eq_right,
    BitVec.getLsbD_append, Nat.reduceLeDiff, Nat.reduceSub, Nat.reduceLT, if_true, if_false]
  simp [flagBit]

/-- Settles O20. -/
theorem statusWordLayout : Obligations.StatusWordLayout :=
  fun t => statusFields_layout t.errcode t.stage t.busy t.done t.err t.silent t.accessViol t.cmdIgnored

/-! ### Writes of the registers (R91, R159) -/

theorem writesTo_reg {s t : State} (hrst : s.rstN = true) {r : Reg} {v : Word} (ht : writeReg r v s = .next t) :
    writesTo s (regName r) v t :=
  writesTo_of_portSelect_eq_some (portSelect_reg hrst r) ht

/-- Settles O21: neither register reads BUSY; the bits of IRQ_STAT are masked by the complement of the data. -/
theorem interruptRegisterWrites : Obligations.InterruptRegisterWrites := by
  intro s v hrst
  refine ⟨?_, s.irqStat &&& ~~~(v.setWidth 2), writesTo_reg hrst (r := .irqStat) rfl, fun b hb => ?_⟩
  · rw [← BitVec.setWidth_eq_extractLsb' (by decide)]
    exact writesTo_reg hrst (r := .irqEn) rfl
  · simp [hb]

/-- CFG and the configuration registers (R38, R39), the registers whose writes BUSY drops. -/
def configRegs : List Reg := [.cfg, .rate, .offset, .nsamp, .ntaps1, .ntaps2]

/-- A write to one of them while idle. -/
def configure (r : Reg) (v : Word) (s : State) : State :=
  match r with
  | .cfg => { s with cfg := v.setWidth 1 }
  | .rate => { s with rate := v }
  | .offset => { s with offset := v }
  | .nsamp => { s with nsamp := v }
  | .ntaps1 => { s with ntaps1 := v }
  | .ntaps2 => { s with ntaps2 := v }
  | _ => s

theorem writeReg_of_config {r : Reg} (h : r ∈ configRegs) (v : Word) (s : State) :
    writeReg r v s = .next (unlessBusy (configure r v) s) := by
  unfold configRegs at h
  fin_cases h <;> rfl

theorem writesTo_config {s : State} (hrst : s.rstN = true) {r : Reg} (h : r ∈ configRegs) (v : Word) :
    writesTo s (regName r) v (unlessBusy (configure r v) s) :=
  writesTo_reg hrst (writeReg_of_config h v s)

/-- Settles O22: while idle each write of a configuration register is `configure`. -/
theorem configurationWrites : Obligations.ConfigurationWrites := by
  intro s v hrst hidle
  have hwrite {r : Reg} (h : r ∈ configRegs) : writesTo s (regName r) v (configure r v s) :=
    unlessBusy_of_idle (f := configure r v) hidle ▸ writesTo_config hrst h v
  rw [← BitVec.setWidth_eq_extractLsb' (by decide)]
  exact ⟨hwrite (r := .cfg) (by decide), hwrite (r := .rate) (by decide), hwrite (r := .offset) (by decide),
    hwrite (r := .nsamp) (by decide), hwrite (r := .ntaps1) (by decide), hwrite (r := .ntaps2) (by decide)⟩

/-! ### The words of the memories (R83, R86, R91, R92) -/

/-- A word of an input memory is stored at its own offset, unless BUSY drops the write. -/
theorem writesTo_inputWord {s : State} (hcaps : capsLegal s) (hrst : s.rstN = true) {a : Offset}
    (ha : inputWord s a.toNat) (v : Word) : writesTo s a v (unlessBusy (storeWord a.toNat v) s) := by
  obtain ⟨p, hp, ⟨j, rfl, hj⟩ | ⟨j, rfl, hj⟩ | ⟨j, rfl, hj⟩⟩ := portSelect_input hrst hcaps ha
  all_goals
    rw [hj]
    exact writesTo_of_portSelect_eq_some hp rfl

theorem readsAs_inputWord {s : State} (hcaps : capsLegal s) (hrst : s.rstN = true) {a : Offset}
    (ha : inputWord s a.toNat) : readsAs s a (readWord s.mem a.toNat) := by
  obtain ⟨p, hp, ⟨j, rfl, hj⟩ | ⟨j, rfl, hj⟩ | ⟨j, rfl, hj⟩⟩ := portSelect_input hrst hcaps ha
  all_goals
    rw [hj]
    exact readsAs_of_portSelect_eq_some hp rfl

theorem readsAs_obufWord {s : State} (hcaps : capsLegal s) (hrst : s.rstN = true) (hidle : s.status.busy = false)
    {a : Offset} (ha : obufWord s a.toNat) : readsAs s a (readWord s.mem a.toNat) := by
  obtain ⟨m, hp, hm⟩ := portSelect_obuf hrst hcaps ha
  have hread := readsAs_of_portSelect_eq_some hp (by simp [afterRead, hidle])
  rwa [readPlace, if_neg (by simp [hidle]), ← hm] at hread

/-- Settles O23: each of these writes is `unlessBusy` of its effect. -/
theorem writesWhileBusyAreDropped : Obligations.WritesWhileBusyAreDropped := by
  intro s a v hcaps hrst hbusy h
  change writesTo s a v (setAccessViol s)
  obtain hreg | hinput := h
  · obtain ⟨r, hr, rfl⟩ : ∃ r ∈ configRegs, regName r = a := List.mem_map.1 hreg
    exact unlessBusy_of_busy (f := configure r v) hbusy ▸ writesTo_config hrst hr v
  · exact unlessBusy_of_busy (f := storeWord a.toNat v) hbusy ▸ writesTo_inputWord hcaps hrst hinput v

/-- Settles O25: the word read is the stored one, lane by lane. -/
theorem memoryReads : Obligations.MemoryReads := by
  intro s a hcaps hrst h
  refine ⟨readWord s.mem a.toNat, ?_, fun k hk => readWord_lane s.mem a.toNat hk⟩
  obtain hinput | ⟨hobuf, hidle⟩ := h
  · exact readsAs_inputWord hcaps hrst hinput
  · exact readsAs_obufWord hcaps hrst hidle hobuf

/-- Settles O26: the word is the free one that the draw gives. -/
theorem obufReadsWhileBusy : Obligations.ObufReadsWhileBusy := by
  intro s a hcaps hrst hbusy hobuf
  obtain ⟨m, hp, -⟩ := portSelect_obuf hrst hcaps hobuf
  refine ⟨readPlace (.obuf m) s, (afterHost_eq _ s).trans (congrArg Host.Outcome.next ?_)⟩
  simp only [busRead, hp, afterRead, if_pos hbusy]
  rfl

/-- Settles O27: the write stores the word at its offset, where it is read back. -/
theorem inputWritesAreReadBack : Obligations.InputWritesAreReadBack := by
  intro s a v hcaps hrst hidle ha
  let t := storeWord a.toNat v s
  have hwrite : writesTo s a v (storeWord a.toNat v s) :=
    unlessBusy_of_idle (f := storeWord a.toNat v) hidle ▸ writesTo_inputWord hcaps hrst ha v
  have hread : readsAs t a (readWord t.mem a.toNat) := readsAs_inputWord (s := t) hcaps hrst ha
  have hword : readWord t.mem a.toNat = v := readWord_writeWord_same s.mem a.toNat v
  rw [hword] at hread
  exact ⟨t.mem, hwrite, hread, fun b hb => readByte_writeBytes_outside _ _ _ _ hb⟩

/-! ### Reads have no effect (R89) -/

/-- An OBUF place is selected by the offset of an implemented OBUF word only. -/
theorem obufWord_of_portSelect {a : Offset} {n : Size} {s : State} {m : Nat} (h : portSelect a n s = some (.obuf m)) :
    obufWord s a.toNat := by
  obtain ⟨-, -, haligned, hplace⟩ := portSelect_eq_some h
  have hm := (portSelect_range h).2.2.2 m rfl
  have hbase := obufBase_eq
  unfold placeAt windowWord at hplace
  split_ifs at hplace <;> simp at hplace
  all_goals exact ⟨haligned, by omega, by omega⟩

/-- Outside OBUF while BUSY a read draws no free value. -/
theorem afterRead_eq_self {a : Offset} {n : Size} {s : State} {p : Place} (hp : portSelect a n s = some p)
    (h : s.status.busy = false ∨ ¬obufWord s a.toNat) : afterRead p s = s := by
  cases p with
  | obuf m =>
    have hidle := h.resolve_right (not_not.2 (obufWord_of_portSelect hp))
    simp [afterRead, hidle]
  | reg | coef1 | coef2 | ibuf => rfl

/-- A read is not changed by an earlier read's answer. -/
theorem busRead_busRead {a : Offset} {n : Size} {s : State} (h : s.status.busy = false ∨ ¬obufWord s a.toNat) :
    busRead a n (busRead a n s) = busRead a n s := by
  cases hp : portSelect a n s with
  | none =>
    rw [busRead_of_none hp]
    exact busRead_of_none (s := answer errorReply s) hp
  | some p =>
    have hread : busRead a n s = answer (okayReply (readPlace p s)) s := by
      simp only [busRead, hp, afterRead_eq_self hp h]
    have hp' : portSelect a n (answer (okayReply (readPlace p s)) s) = some p := hp
    rw [hread]
    simp only [busRead, hp', afterRead_eq_self hp' h]
    cases p <;> rfl

/-- Settles O28: no premise on the capacities is needed. -/
theorem readsHaveNoSideEffect : Obligations.ReadsHaveNoSideEffect := by
  intro s a n
  refine ⟨busRead a n s, afterHost_eq _ s, busRead_eq a n s, fun h _ => (afterHost_eq _ _).trans ?_⟩
  exact congrArg Host.Outcome.next (busRead_busRead h)

/-! ### Reset (R53, R380, R382) -/

/-- Settles O31: a RUN right after reset fails on the window length 0. -/
theorem resetState : Obligations.ResetState := by
  have hcheck : check State.reset = codeZeroWindow := rfl
  have hrun : exec .run State.reset = .next (failRun (check State.reset) (clearRunFlags State.reset)) := by
    rw [exec_run_of_idle rfl, startRun_of_fail (by rw [hcheck]; decide)]
  exact ⟨⟨rfl, rfl, rfl, rfl, rfl, rfl, rfl, rfl, rfl, rfl, rfl, rfl, rfl, rfl, rfl⟩,
    irq_eq_false_of_irqStat_eq_zero rfl, rfl, rfl, rfl, rfl, by rw [hrun, hcheck]; rfl⟩

/-- Settles O32: both are `resetBlock`. -/
theorem resetHasTheEffectOfSrst : Obligations.ResetHasTheEffectOfSrst :=
  fun s => ⟨resetBlock s, rfl, step_of_agenda_cons (s := { s with agenda := .rstFall :: s.agenda }) rfl⟩

theorem portSelect_of_reset {s : State} (hrst : s.rstN = false) (a : Offset) (n : Size) : portSelect a n s = none := by
  simp [portSelect, hrst]

/-- Settles O33: the port selects nothing, and the ENGINE's turn needs `rst_n = 1`. -/
theorem resetHoldsThePortAndTheEngine : Obligations.ResetHoldsThePortAndTheEngine := by
  intro s hrst
  refine ⟨fun tr => ?_, (afterEngine_eq s).trans (engineTurn_of_reset hrst)⟩
  cases tr with
  | read a n => exact (answersError_of_portSelect_eq_none (portSelect_of_reset hrst a n) 0#32).1
  | write a n v => exact (answersError_of_portSelect_eq_none (portSelect_of_reset hrst a n) v).2

end Sys2Proof.Proofs
end

-- ==== The effects of a HOST transaction ====
section
/-! PROOFS. Everything one HOST transaction can do to the block, listed once (R89, R91, R140, R159): what a RUN in
progress keeps of it (R166), and the frames of the commands, follow by cases. -/

namespace Sys2Proof.Proofs

open Sys2Proof Sys2Proof.Machine Sys2Proof.Safety Sys2Proof.Laws

/-! ### The effects -/

/-- The effect of one HOST transaction on the block, apart from the port's answer. -/
inductive HostEffect (s : State) : State → Prop where
  | draw (d : Nat) : HostEffect s { s with draws := d }
  | interrupts (e p : BitVec 2) : HostEffect s { s with irqEn := e, irqStat := p }
  | accessViol (hbusy : s.status.busy = true) : HostEffect s (setAccessViol s)
  | cmdIgnored (hbusy : s.status.busy = true) : HostEffect s (setCmdIgnored s)
  | configure (hidle : s.status.busy = false) (r : Reg) (v : Word) : HostEffect s (configure r v s)
  | store (hidle : s.status.busy = false) (a : Nat) (v : Word) (ha : ∀ i, i < 4 → inMemory s (a + i)) :
      HostEffect s (storeWord a v s)
  | illegal (hidle : s.status.busy = false) : HostEffect s (raiseError codeIllegalCmd s)
  | start (hrst : s.rstN = true) (hidle : s.status.busy = false) : HostEffect s (startRun s)
  | acknowledge (hidle : s.status.busy = false) : HostEffect s (acknowledge s)
  | abort (hbusy : s.status.busy = true) : HostEffect s (abortRun s)
  | reset : HostEffect s (resetBlock s)

/-- A transaction without an effect draws no free value either. -/
theorem HostEffect.refl (s : State) : HostEffect s s := .draw s.draws

/-- A command by BUSY (R140). -/
theorem exec_effect (i : Instr) {s : State} (hrst : s.rstN = true) : ∃ u, exec i s = .next u ∧ HostEffect s u := by
  cases hb : s.status.busy with
  | true =>
    cases i with
    | nop => exact ⟨s, rfl, .refl s⟩
    | run => exact ⟨_, exec_run_of_busy hb, .cmdIgnored hb⟩
    | abort => exact ⟨_, exec_abort_of_busy hb, .abort hb⟩
    | clear => exact ⟨_, exec_clear_of_busy hb, .cmdIgnored hb⟩
    | srst => exact ⟨_, rfl, .reset⟩
  | false =>
    cases i with
    | nop => exact ⟨s, rfl, .refl s⟩
    | run => exact ⟨_, exec_run_of_idle hb, .start hrst hb⟩
    | abort => exact ⟨s, exec_abort_of_idle hb, .refl s⟩
    | clear => exact ⟨_, exec_clear_of_idle hb, .acknowledge hb⟩
    | srst => exact ⟨_, rfl, .reset⟩

/-- A CMD write runs a command or is an illegal word (R35). -/
theorem command_effect (v : Word) {s : State} (hrst : s.rstN = true) : ∃ u, command v s = .next u ∧ HostEffect s u := by
  cases hdecode : decode v with
  | ok i =>
    rw [command_of_ok hdecode]
    exact exec_effect i hrst
  | error e =>
    refine ⟨_, command_of_error hdecode s, ?_⟩
    cases hb : s.status.busy with
    | true => exact illegalCommand_of_busy hb ▸ .cmdIgnored hb
    | false => exact illegalCommand_of_idle hb ▸ .illegal hb

/-- A write that BUSY drops (R91). -/
theorem unlessBusy_effect {f : State → State} {s : State} (h : s.status.busy = false → HostEffect s (f s)) :
    HostEffect s (unlessBusy f s) := by
  cases hb : s.status.busy with
  | true => exact unlessBusy_of_busy (f := f) hb ▸ .accessViol hb
  | false => exact unlessBusy_of_idle (f := f) hb ▸ h hb

theorem writeReg_effect (r : Reg) (v : Word) {s : State} (hrst : s.rstN = true) :
    ∃ u, writeReg r v s = .next u ∧ HostEffect s u := by
  have hkinds : r ∈ readOnlyRegs ∨ r ∈ configRegs ∨ r = .cmd ∨ r = .irqEn ∨ r = .irqStat := by
    cases r <;> decide
  obtain h | h | rfl | rfl | rfl := hkinds
  · exact ⟨s, writeReg_of_readOnly h v s, .refl s⟩
  · exact ⟨_, writeReg_of_config h v s, unlessBusy_effect fun hidle => .configure hidle r v⟩
  · exact command_effect v hrst
  · exact ⟨_, rfl, .interrupts _ s.irqStat⟩
  · exact ⟨_, rfl, .interrupts s.irqEn _⟩

/-- A memory write stores to the implemented word it selects (R86), and OBUF ignores it (R90). -/
theorem writePlace_effect {a : Offset} {n : Size} {s : State} {p : Place} (hp : portSelect a n s = some p) (v : Word) :
    ∃ u, writePlace p v s = .next u ∧ HostEffect s u := by
  obtain ⟨hrst, -, -, -⟩ := portSelect_eq_some hp
  obtain ⟨hcoef1, hcoef2, hibuf, -⟩ := portSelect_range hp
  cases p with
  | reg r => exact writeReg_effect r v hrst
  | coef1 j =>
    have hj := hcoef1 j rfl
    exact ⟨_, rfl, unlessBusy_effect fun hidle => .store hidle _ v fun i hi => .inl ⟨by omega, by omega⟩⟩
  | coef2 j =>
    have hj := hcoef2 j rfl
    exact ⟨_, rfl, unlessBusy_effect fun hidle => .store hidle _ v fun i hi => .inr (.inl ⟨by omega, by omega⟩)⟩
  | ibuf j =>
    have hj := hibuf j rfl
    exact ⟨_, rfl, unlessBusy_effect fun hidle =>
      .store hidle _ v fun i hi => .inr (.inr (.inl ⟨by omega, by omega⟩))⟩
  | obuf m => exact ⟨s, rfl, .refl s⟩

/-- Every HOST transaction answers a next state: one of the effects, and the port's answer. -/
theorem hostTurn_effect (tr : Transaction) (s : State) :
    ∃ u r, hostTurn tr s = .next { u with reply := r } ∧ HostEffect s u := by
  cases tr with
  | read a n => exact ⟨_, _, congrArg Host.Outcome.next (busRead_eq a n s), .draw (busRead a n s).draws⟩
  | write a n v =>
    cases hp : portSelect a n s with
    | none => exact ⟨s, _, busWrite_of_none hp, .refl s⟩
    | some p =>
      obtain ⟨u, hu, heffect⟩ := writePlace_effect hp v
      exact ⟨u, _, by rw [hostTurn, busWrite_of_some hp, hu]; rfl, heffect⟩

/-! ### A RUN in progress (R91, R166) -/

/-- What keeps a busy block busy writes two sticky flags, the interrupt registers and the draw counter at most. -/
theorem HostEffect.frame_of_busy {s u : State} (h : HostEffect s u) (hs : s.status.busy = true)
    (hu : u.status.busy = true) :
    SameConfig s u ∧ u.hidden = s.hidden ∧ u.status.stage = s.status.stage ∧ u.mem = s.mem := by
  cases h with
  | draw | interrupts | accessViol | cmdIgnored => exact ⟨⟨rfl, rfl, rfl, rfl, rfl, rfl⟩, rfl, rfl, rfl⟩
  | configure hidle | store hidle | illegal hidle | start _ hidle | acknowledge hidle =>
    exact absurd (hs.symm.trans hidle) (by decide)
  | abort => exact absurd (show false = true from hu) (by decide)
  | reset =>
    rw [(registersReset_resetBlock s).status] at hu
    exact absurd (show false = true from hu) (by decide)

/-- Settles O30: the effects that keep BUSY touch nothing the ENGINE reads. -/
theorem hostCannotDisturbARun : Obligations.HostCannotDisturbARun := by
  intro s t tr hs ht hbusy
  obtain ⟨u, r, hu, heffect⟩ := hostTurn_effect tr s
  obtain rfl : t = { u with reply := r } := Host.Outcome.next.inj (ht.symm.trans ((afterHost_eq tr s).trans hu))
  obtain ⟨hconfig, hhidden, hstage, hmem⟩ := heffect.frame_of_busy hs hbusy
  exact ⟨⟨hconfig.rate, hconfig.offset, hconfig.nsamp, hconfig.ntaps1, hconfig.ntaps2, hconfig.cfg⟩, hhidden, hstage,
    fun a => congrArg (readByte · a) hmem⟩

/-! ### The frames of the commands (R141 to R154) -/

/-- What a command other than SRST leaves alone besides memory. -/
structure CommandFrame (s t : State) : Prop where
  config : SameConfig s t
  irqEn : t.irqEn = s.irqEn
  outside : SameOutside s t

theorem commandFrame_refl (s : State) : CommandFrame s s :=
  ⟨⟨rfl, rfl, rfl, rfl, rfl, rfl⟩, rfl, ⟨rfl, rfl, rfl, rfl, rfl⟩⟩

theorem commandFrame_startRun (s : State) : CommandFrame s (startRun s) ∧ (startRun s).mem = s.mem := by
  by_cases h : check s = codeNone
  · rw [startRun_of_pass h]
    exact ⟨⟨⟨rfl, rfl, rfl, rfl, rfl, rfl⟩, rfl, ⟨rfl, rfl, rfl, rfl, rfl⟩⟩, rfl⟩
  · rw [startRun_of_fail h]
    exact ⟨⟨⟨rfl, rfl, rfl, rfl, rfl, rfl⟩, rfl, ⟨rfl, rfl, rfl, rfl, rfl⟩⟩, rfl⟩

theorem commandFrame_setCmdIgnored (s : State) : CommandFrame s (setCmdIgnored s) :=
  ⟨⟨rfl, rfl, rfl, rfl, rfl, rfl⟩, rfl, ⟨rfl, rfl, rfl, rfl, rfl⟩⟩

theorem commandFrame_acknowledge (s : State) : CommandFrame s (acknowledge s) :=
  ⟨⟨rfl, rfl, rfl, rfl, rfl, rfl⟩, rfl, ⟨rfl, rfl, rfl, rfl, rfl⟩⟩

theorem commandFrame_abortRun (s : State) : CommandFrame s (abortRun s) :=
  ⟨⟨rfl, rfl, rfl, rfl, rfl, rfl⟩, rfl, ⟨rfl, rfl, rfl, rfl, rfl⟩⟩

/-- NOP, RUN and CLEAR, whatever BUSY, store nothing. -/
theorem exec_frame_of_not_abort {i : Instr} {s t : State} (hsrst : i ≠ .srst) (habort : i ≠ .abort)
    (h : exec i s = .next t) : CommandFrame s t ∧ t.mem = s.mem := by
  cases hb : s.status.busy <;> cases i
  case true.run =>
    cases (exec_run_of_busy hb).symm.trans h
    exact ⟨commandFrame_setCmdIgnored s, rfl⟩
  case false.run =>
    cases (exec_run_of_idle hb).symm.trans h
    exact commandFrame_startRun s
  case true.clear =>
    cases (exec_clear_of_busy hb).symm.trans h
    exact ⟨commandFrame_setCmdIgnored s, rfl⟩
  case false.clear =>
    cases (exec_clear_of_idle hb).symm.trans h
    exact ⟨commandFrame_acknowledge s, rfl⟩
  case true.nop | false.nop =>
    cases h
    exact ⟨commandFrame_refl _, rfl⟩
  all_goals contradiction

theorem exec_abort_frame {s t : State} (h : exec .abort s = .next t) :
    CommandFrame s t ∧ sameMemOutside s t obufBase (obufBytesOf s.hidden.run) := by
  cases hb : s.status.busy with
  | true =>
    cases (exec_abort_of_busy hb).symm.trans h
    exact ⟨commandFrame_abortRun s, sameMemOutside_abortRun s⟩
  | false =>
    cases (exec_abort_of_idle hb).symm.trans h
    exact ⟨commandFrame_refl s, fun _ _ => rfl⟩

/-- Settles O15: ABORT loses the OBUF words of its RUN, and the other commands store nothing. -/
theorem commandFrames : Obligations.CommandFrames := by
  intro i s t hsrst h
  by_cases habort : i = .abort
  · subst habort
    obtain ⟨hframe, hmem⟩ := exec_abort_frame h
    exact ⟨hframe.config, hframe.irqEn, hframe.outside, fun hne => absurd rfl hne, fun _ => hmem⟩
  · obtain ⟨hframe, hmem⟩ := exec_frame_of_not_abort hsrst habort h
    exact ⟨hframe.config, hframe.irqEn, hframe.outside, fun _ a => congrArg (readByte · a) hmem,
      fun heq => absurd heq habort⟩

end Sys2Proof.Proofs
end

-- ==== The stages of a RUN ====
section
/-! PROOFS. The ENGINE's step at each stage (R160): the buffer it fills, the stage it enters, and, from a legal busy
state, the run parameters and the stage data it keeps; the lengths of the buffers (R147) and the words stage 6 stores
(R307). -/

namespace Sys2Proof.Proofs

open Sys2Proof Sys2Proof.Machine Sys2Proof.Safety Sys2Proof.Laws

/-! ### The steps at stages 1 to 5 (R160) -/

/-- `s` at stage `k` with hidden state `w`, everything else as it was. -/
def enterStage (k : BitVec 3) (w : Hidden) (s : State) : State :=
  { s with status := { s.status with stage := k }, hidden := w }

theorem nextStage_withHidden {s : State} {k : BitVec 3} (hk : s.status.stage = k) (w : Hidden) :
    nextStage { s with hidden := w } = enterStage (k + 1#3) w s := by
  subst hk
  rfl

section Stages

variable {s : State} (hrst : s.rstN = true) (hbusy : s.status.busy = true)

include hrst hbusy

theorem engineTurn_stage1 (hk : s.status.stage = 1#3) :
    engineTurn s = .next (enterStage 2#3 { s.hidden with
      w1 := shift s.hidden.run.f s.hidden.run.r s.hidden.hist.phase (ibufWords s s.hidden.run.n)
      hist := { s.hidden.hist with
        phase := phaseIndex s.hidden.run.f s.hidden.run.r s.hidden.hist.phase s.hidden.run.n } } s) :=
  (engineTurn_of_busy hrst hbusy).trans ((engineStep_of_stage hk).trans
    (congrArg Host.Outcome.next (nextStage_withHidden hk _)))

theorem engineTurn_stage2 (hk : s.status.stage = 2#3) :
    engineTurn s = .next (enterStage 3#3 { s.hidden with
      w2 := decimC s.hidden.w1 ((coef1Words s s.hidden.run.t1).map f32to64) s.hidden.run.d1 } s) :=
  (engineTurn_of_busy hrst hbusy).trans ((engineStep_of_stage hk).trans
    (congrArg Host.Outcome.next (nextStage_withHidden hk _)))

theorem engineTurn_stage3 (hk : s.status.stage = 3#3) :
    engineTurn s = .next (enterStage 4#3 { s.hidden with w3 := discrimBuf s.hidden.w2 } s) :=
  (engineTurn_of_busy hrst hbusy).trans ((engineStep_of_stage hk).trans
    (congrArg Host.Outcome.next (nextStage_withHidden hk _)))

theorem engineTurn_stage4 (hk : s.status.stage = 4#3) :
    engineTurn s = .next (enterStage 5#3 { s.hidden with
      w4 := deemph s.hidden.run.x s.hidden.run.b0 s.hidden.hist.deemphY s.hidden.w3
      hist := { s.hidden.hist with
        deemphY := (deemph s.hidden.run.x s.hidden.run.b0 s.hidden.hist.deemphY s.hidden.w3).getLastD
          s.hidden.hist.deemphY } } s) :=
  (engineTurn_of_busy hrst hbusy).trans ((engineStep_of_stage hk).trans
    (congrArg Host.Outcome.next (nextStage_withHidden hk _)))

theorem engineTurn_stage5 (hk : s.status.stage = 5#3) :
    engineTurn s = .next (enterStage 6#3 { s.hidden with
      w5 := decimR s.hidden.w4 ((coef2Words s s.hidden.run.t2).map f32to64) s.hidden.run.d2 } s) :=
  (engineTurn_of_busy hrst hbusy).trans ((engineStep_of_stage hk).trans
    (congrArg Host.Outcome.next (nextStage_withHidden hk _)))

theorem engineTurn_stage6 (hk : s.status.stage = 6#3) : engineTurn s = .next (stage6 s) :=
  (engineTurn_of_busy hrst hbusy).trans (engineStep_of_stage hk)

end Stages

/-- Settles O34: the history values left are the next phase index and the last output. -/
theorem engineStagesFillBuffers : Obligations.EngineStagesFillBuffers := by
  intro s hrst hbusy p go
  have hturn := afterEngine_eq s
  exact ⟨fun hk => ⟨_, hturn.trans (engineTurn_stage1 hrst hbusy hk)⟩,
    fun hk => hturn.trans (engineTurn_stage2 hrst hbusy hk), fun hk => hturn.trans (engineTurn_stage3 hrst hbusy hk),
    fun hk => ⟨_, hturn.trans (engineTurn_stage4 hrst hbusy hk)⟩,
    fun hk => hturn.trans (engineTurn_stage5 hrst hbusy hk)⟩

/-! ### The stage a legal state holds (R33, R34) -/

/-- What the invariant says of a RUN in progress that later stages rest on. -/
structure Running (s : State) : Prop where
  accepted : check s = codeNone
  params : s.hidden.run = runParamsOf s
  rstN : s.rstN = true
  outlen : s.outlen = BitVec.ofNat 32 s.hidden.run.l3
  data : stageData s
  noError : s.status.done = false ∧ s.status.err = false
  stage : s.status.stage ≠ 0#3 ∧ s.status.stage ≠ 7#3

theorem running_of_inv {s : State} (h : Inv s) (hbusy : s.status.busy = true) : Running s := by
  obtain ⟨haccepted, hparams, -, -, -, houtlen, -, -, hrst⟩ := h.run hbusy
  obtain ⟨-, hnoError, hstage, hseven, -, -⟩ := h.status
  exact ⟨haccepted, hparams, hrst, houtlen, h.data hbusy, hnoError hbusy, hstage.2 hbusy, hseven⟩

theorem stage_cases {k : BitVec 3} (h : k ≠ 0#3 ∧ k ≠ 7#3) :
    k = 1#3 ∨ k = 2#3 ∨ k = 3#3 ∨ k = 4#3 ∨ k = 5#3 ∨ k = 6#3 := by
  revert k
  decide

/-- Stage 6 is the last; each earlier one is followed by a stage that is held while BUSY. -/
theorem stage_succ {k : BitVec 3} (h : k ≠ 0#3 ∧ k ≠ 7#3) (hlast : k ≠ 6#3) :
    k.toNat < 6 ∧ (k + 1#3).toNat = k.toNat + 1 ∧ k + 1#3 ≠ 0#3 ∧ k + 1#3 ≠ 7#3 := by
  revert k
  decide

/-- Before stage 6 the ENGINE enters the next stage with the same run parameters; the buffer it fills is the one more
that `stageData` speaks of there, and the others are kept. -/
theorem Running.engineTurn_enters {s : State} (h : Running s) (hbusy : s.status.busy = true)
    (hlast : s.status.stage ≠ 6#3) :
    ∃ w, engineTurn s = .next (enterStage (s.status.stage + 1#3) w s) ∧ w.run = s.hidden.run ∧
      stageData (enterStage (s.status.stage + 1#3) w s) := by
  obtain ⟨hphase, hdeemphY, hw1, hw2, hw3, hw4, -⟩ := h.data
  obtain hk | hk | hk | hk | hk | hk := stage_cases h.stage <;> rw [hk] at hlast ⊢
  · exact ⟨_, engineTurn_stage1 h.rstN hbusy hk, rfl, by simp_all [stageData, enterStage, ibufWords]⟩
  · exact ⟨_, engineTurn_stage2 h.rstN hbusy hk, rfl, by simp_all [stageData, enterStage, ibufWords, coef1Words]⟩
  · exact ⟨_, engineTurn_stage3 h.rstN hbusy hk, rfl, by simp_all [stageData, enterStage, ibufWords, coef1Words]⟩
  · exact ⟨_, engineTurn_stage4 h.rstN hbusy hk, rfl, by simp_all [stageData, enterStage, ibufWords, coef1Words]⟩
  · exact ⟨_, engineTurn_stage5 h.rstN hbusy hk, rfl,
      by simp_all [stageData, enterStage, ibufWords, coef1Words, coef2Words]⟩
  · exact absurd rfl hlast

/-! ### The results of stage 6 (R147, R165, R307) -/

section LastStage

variable {s : State} (h : Running s) (hlast : s.status.stage = 6#3)

include h hlast

/-- At stage 6 every buffer is the one DEMOD computes from the memories, which the RUN has left alone. -/
theorem Running.normalizeBuf_eq_demodOf : normalizeBuf s.hidden.w5 s.hidden.run.rnd = demodOf s := by
  obtain ⟨-, -, hw1, hw2, hw3, hw4, hw5⟩ := h.data
  rw [hlast] at hw1 hw2 hw3 hw4 hw5
  rw [hw5 (by decide), hw4 (by decide), hw3 (by decide), hw2 (by decide), hw1 (by decide), h.params]
  rfl

/-- The last buffer has the length R147 gives. -/
theorem Running.w5_length : s.hidden.w5.length = s.hidden.run.l3 := by
  obtain ⟨-, -, hw1, hw2, hw3, hw4, hw5⟩ := h.data
  rw [hlast] at hw1 hw2 hw3 hw4 hw5
  rw [hw5 (by decide), hw4 (by decide), hw3 (by decide), hw2 (by decide), hw1 (by decide), h.params]
  simp only [decimR_length, deemph_length, discrimBuf_length, decimC_length, shift_length, ibufWords, readWords_length]
  rfl

/-- NORMALIZE stores exactly the RUN's OBUF words. -/
theorem Running.storedBytes_length :
    ((packPcm (normalizeBuf s.hidden.w5 s.hidden.run.rnd).pcm).flatMap bytesOfWord).length =
      obufBytesOf s.hidden.run := by
  rw [flatMap_bytesOfWord_length, packPcm_length, normalizeBuf_length, h.w5_length hlast]
  rfl

theorem Running.sameMemOutside_stage6 : sameMemOutside s (stage6 s) obufBase (obufBytesOf s.hidden.run) := by
  intro a ha
  rw [← h.storedBytes_length hlast] at ha
  exact readByte_writeBytes_outside _ _ _ _ ha

end LastStage

/-- The RUN's OBUF words are implemented ones: `O_MAX` is even and bounds the output length (R8, R86). -/
theorem Running.inMemory_obuf {s : State} (h : Running s) (hcaps : capsLegal s) {i : Nat}
    (hi : i < obufBytesOf s.hidden.run) : inMemory s (obufBase + i) := by
  obtain ⟨-, -, -, -, -, -, -, -, -, -, -, -, -, hl3⟩ := acceptedRunRanges.2 s h.accepted
  obtain ⟨hmod, -, -, -, -⟩ := hcaps
  rw [h.params, obufBytesOf, ceilDiv] at hi
  rw [oMax_eq] at hl3
  refine .inr (.inr (.inr ⟨by omega, ?_⟩))
  rw [oMax_eq]
  omega

end Sys2Proof.Proofs
end

-- ==== The invariant of the block ====
section
/-! PROOFS. The invariant of Safety.lean is kept by every effect of a HOST transaction, every ENGINE step and the reset
input, and from a legal state each of them answers a next state (R33, R34, R48, R91, R330). -/

namespace Sys2Proof.Proofs

open Sys2Proof Sys2Proof.Machine Sys2Proof.Safety Sys2Proof.Laws

/-! ### What the invariant speaks of -/

/-- The invariant does not speak of the interrupt registers, the schedule, the port and the draws. -/
theorem inv_outside {s : State} (h : Inv s) (e p : BitVec 2) (ts : List Turn) (r : Option Reply) (d : Nat) :
    Inv { s with irqEn := e, irqStat := p, agenda := ts, reply := r, draws := d } :=
  ⟨h.caps, h.status, h.mem, h.run, h.data⟩

/-- Nor of the two sticky flags and SILENT. -/
theorem inv_sticky {s : State} (h : Inv s) (silent viol ignored : Bool) :
    Inv { s with status := { s.status with silent := silent, accessViol := viol, cmdIgnored := ignored } } :=
  ⟨h.caps, h.status, h.mem, h.run, h.data⟩

/-- Of an idle block it says nothing about a RUN. -/
theorem inv_of_idle {s : State} (hcaps : capsLegal s) (hstatus : statusLegal s.status) (hmem : memLegal s)
    (hidle : s.status.busy = false) : Inv s :=
  ⟨hcaps, hstatus, hmem, fun hb => absurd (hidle.symm.trans hb) (by decide),
    fun hb => absurd (hidle.symm.trans hb) (by decide)⟩

/-! ### Legal flags (R33, R120) -/

theorem statusLegal_reset : statusLegal Status.reset := by
  unfold statusLegal
  decide

/-- An idle block without an error. -/
theorem statusLegal_of_noError {t : Status} (hbusy : t.busy = false) (hstage : t.stage = 0#3) (herr : t.err = false)
    (hcode : t.errcode = codeNone) : statusLegal t := by
  simp [statusLegal, hbusy, hstage, herr, hcode, errorCodes]

/-- An idle block with an error. -/
theorem statusLegal_of_error {t : Status} (hbusy : t.busy = false) (hstage : t.stage = 0#3) (hdone : t.done = false)
    (herr : t.err = true) (hcode : t.errcode ∈ errorCodes) (hne : t.errcode ≠ codeNone) : statusLegal t := by
  simp [statusLegal, hbusy, hstage, hdone, herr, hcode, hne]

theorem stage_eq_zero_of_idle {t : Status} (h : statusLegal t) (hidle : t.busy = false) : t.stage = 0#3 := by
  obtain ⟨-, -, hstage, -, -, -⟩ := h
  by_contra hne
  exact absurd (hidle.symm.trans (hstage.1 hne)) (by decide)

/-! ### Legal memory (R86) -/

theorem memLegal_writeBytes {s : State} (h : memLegal s) {base : Nat} {bs : List Byte}
    (hrange : ∀ i, i < bs.length → inMemory s (base + i)) : memLegal { s with mem := writeBytes s.mem base bs } := by
  obtain ⟨hwf, hcells⟩ := h
  refine ⟨writeBytes_memWf hwf base bs, fun c hc => ?_⟩
  obtain hc | ⟨hlo, hhi⟩ := mem_writeBytes hc
  · exact hcells c hc
  · have hbyte := hrange (c.1 - base) (by omega)
    rwa [Nat.add_sub_cancel' hlo] at hbyte

theorem memLegal_storeWord {s : State} (h : memLegal s) {a : Nat} (v : Word)
    (ha : ∀ i, i < 4 → inMemory s (a + i)) : memLegal (storeWord a v s) :=
  memLegal_writeBytes h ha

theorem memLegal_loseObuf {s : State} (h : Inv s) (hbusy : s.status.busy = true) : memLegal (loseObuf s) :=
  memLegal_writeBytes h.mem fun i hi =>
    (running_of_inv h hbusy).inMemory_obuf h.caps (by simpa [obufBytesOf] using hi)

/-! ### The effects of a HOST transaction -/

theorem inv_raiseError {s : State} (h : Inv s) (hidle : s.status.busy = false) {c : BitVec 8} (hc : c ∈ errorCodes)
    (hne : c ≠ codeNone) : Inv (raiseError c s) := by
  have hstage := stage_eq_zero_of_idle h.status hidle
  exact inv_of_idle h.caps (statusLegal_of_error hidle hstage rfl rfl hc hne) h.mem hidle

theorem inv_acknowledge {s : State} (h : Inv s) (hidle : s.status.busy = false) : Inv (acknowledge s) := by
  have hstage := stage_eq_zero_of_idle h.status hidle
  exact inv_of_idle h.caps (statusLegal_of_noError hidle hstage rfl rfl) h.mem hidle

/-- Acceptance writes what the invariant says of a RUN at stage 1. -/
theorem inv_accept {s : State} (h : Inv s) (hrst : s.rstN = true) (hcheck : check s = codeNone) :
    Inv (accept (clearRunFlags s)) where
  caps := h.caps
  status := by simp [statusLegal, accept, errorCodes, codeNone]
  mem := h.mem
  run _ := ⟨hcheck, rfl, rfl, rfl, rfl, rfl, rfl, rfl, hrst⟩
  data _ := by simp [stageData, accept, histStart]

theorem inv_startRun {s : State} (h : Inv s) (hrst : s.rstN = true) (hidle : s.status.busy = false) :
    Inv (startRun s) := by
  by_cases hcheck : check s = codeNone
  · rw [startRun_of_pass hcheck]
    exact inv_accept h hrst hcheck
  · rw [startRun_of_fail hcheck]
    have hstage := stage_eq_zero_of_idle h.status hidle
    exact inv_of_idle h.caps (statusLegal_of_error hidle hstage rfl rfl (check_mem_errorCodes s) hcheck) h.mem hidle

theorem inv_abortRun {s : State} (h : Inv s) (hbusy : s.status.busy = true) : Inv (abortRun s) :=
  inv_of_idle h.caps (statusLegal_of_error rfl rfl rfl rfl (by decide : codeAborted ∈ errorCodes)
    (by decide : codeAborted ≠ codeNone))
    (memLegal_loseObuf h hbusy) rfl

theorem inv_resetBlock {s : State} (h : Inv s) : Inv (resetBlock s) := by
  unfold resetBlock
  split
  case isTrue hbusy => exact inv_of_idle h.caps statusLegal_reset (memLegal_loseObuf h hbusy) rfl
  case isFalse => exact inv_of_idle h.caps statusLegal_reset h.mem rfl

/-- A configuration write writes one of six registers. -/
theorem configure_spec (r : Reg) (v : Word) (s : State) :
    ∃ c R F N t1 t2, configure r v s =
      { s with cfg := c, rate := R, offset := F, nsamp := N, ntaps1 := t1, ntaps2 := t2 } := by
  cases r <;> exact ⟨_, _, _, _, _, _, rfl⟩

theorem inv_configure {s : State} (h : Inv s) (hidle : s.status.busy = false) (r : Reg) (v : Word) :
    Inv (configure r v s) := by
  obtain ⟨c, R, F, N, t1, t2, heq⟩ := configure_spec r v s
  rw [heq]
  exact inv_of_idle h.caps h.status h.mem hidle

theorem HostEffect.inv {s u : State} (heffect : HostEffect s u) (h : Inv s) : Inv u := by
  cases heffect with
  | draw d => exact inv_outside h s.irqEn s.irqStat s.agenda s.reply d
  | interrupts e p => exact inv_outside h e p s.agenda s.reply s.draws
  | accessViol => exact inv_sticky h s.status.silent true s.status.cmdIgnored
  | cmdIgnored => exact inv_sticky h s.status.silent s.status.accessViol true
  | configure hidle r v => exact inv_configure h hidle r v
  | store hidle a v ha => exact inv_of_idle h.caps h.status (memLegal_storeWord h.mem v ha) hidle
  | illegal hidle => exact inv_raiseError h hidle (by decide) (by decide)
  | start hrst hidle => exact inv_startRun h hrst hidle
  | acknowledge hidle => exact inv_acknowledge h hidle
  | abort hbusy => exact inv_abortRun h hbusy
  | reset => exact inv_resetBlock h

/-! ### The ENGINE's steps -/

theorem inv_enterStage {s : State} (h : Inv s) (hbusy : s.status.busy = true) (hlast : s.status.stage ≠ 6#3)
    {w : Hidden} (hrun : w.run = s.hidden.run) (hdata : stageData (enterStage (s.status.stage + 1#3) w s)) :
    Inv (enterStage (s.status.stage + 1#3) w s) where
  caps := h.caps
  status := by
    obtain ⟨-, -, hzero, hseven⟩ := stage_succ (running_of_inv h hbusy).stage hlast
    obtain ⟨hflags, hbusyFlags, -, -, hcode⟩ := h.status
    exact ⟨hflags, hbusyFlags, ⟨fun _ => hbusy, fun _ => hzero⟩, hseven, hcode⟩
  mem := h.mem
  run _ := by
    have hrunLegal := h.run hbusy
    rw [runLegal, ← hrun] at hrunLegal
    exact hrunLegal
  data _ := hdata

theorem inv_stage6 {s : State} (h : Inv s) (hbusy : s.status.busy = true) (hlast : s.status.stage = 6#3) :
    Inv (stage6 s) := by
  have hrunning := running_of_inv h hbusy
  obtain ⟨-, -, -, -, hcode, -⟩ := h.status
  refine inv_of_idle h.caps (statusLegal_of_noError rfl rfl hrunning.noError.2 (hcode.2 hrunning.noError.2)) ?_ rfl
  refine memLegal_writeBytes h.mem fun i hi => hrunning.inMemory_obuf h.caps ?_
  rwa [hrunning.storedBytes_length hlast] at hi

/-- From a legal state the ENGINE's turn answers a legal state, and so the held stages have a step (R34, R330). -/
theorem engineTurn_inv {s : State} (h : Inv s) : ∃ t, engineTurn s = .next t ∧ Inv t := by
  cases hbusy : s.status.busy with
  | false => exact ⟨s, engineTurn_of_idle hbusy, h⟩
  | true =>
    have hrunning := running_of_inv h hbusy
    by_cases hlast : s.status.stage = 6#3
    · exact ⟨_, engineTurn_stage6 hrunning.rstN hbusy hlast, inv_stage6 h hbusy hlast⟩
    · obtain ⟨w, hturn, hrun, hdata⟩ := hrunning.engineTurn_enters hbusy hlast
      exact ⟨_, hturn, inv_enterStage h hbusy hlast hrun hdata⟩

/-! ### Every step -/

/-- `rst_n` at 1 is what a RUN in progress has. -/
theorem inv_releaseReset {s : State} (h : Inv s) : Inv (releaseReset s) where
  caps := h.caps
  status := h.status
  mem := h.mem
  run hbusy := by
    obtain ⟨hcheck, hparams, hd1, hd2, hlen1, houtlen, hlo, hhi, -⟩ := h.run hbusy
    exact ⟨hcheck, hparams, hd1, hd2, hlen1, houtlen, hlo, hhi, rfl⟩
  data := h.data

/-- Reset leaves no RUN in progress, so `rst_n` may be 0. -/
theorem inv_assertReset {s : State} (h : Inv s) : Inv (assertReset s) := by
  have hreset := inv_resetBlock h
  have hstatus := (registersReset_resetBlock s).status
  exact inv_of_idle hreset.caps hreset.status hreset.mem (congrArg Status.busy hstatus)

theorem inv_pollTurn {s : State} (h : Inv s) (a : Offset) (mask val : Word) : Inv (pollTurn a mask val s) := by
  unfold pollTurn
  dsimp only
  rw [busRead_eq]
  split
  · exact inv_outside h _ _ _ _ _
  · exact inv_outside h _ _ _ _ _

theorem inv_waitIrqTurn {s : State} (h : Inv s) : Inv (waitIrqTurn s) := by
  unfold waitIrqTurn
  split
  · exact h
  · exact inv_outside h _ _ _ _ _

theorem turnStep_inv {s : State} (h : Inv s) (turn : Turn) : ∃ t, turnStep turn s = .next t ∧ Inv t := by
  cases turn with
  | host tr =>
    obtain ⟨u, r, hturn, heffect⟩ := hostTurn_effect tr s
    exact ⟨_, hturn, inv_outside (heffect.inv h) _ _ _ _ _⟩
  | poll a mask val => exact ⟨_, rfl, inv_pollTurn h a mask val⟩
  | waitIrq => exact ⟨_, rfl, inv_waitIrqTurn h⟩
  | engine => exact engineTurn_inv h
  | rstFall => exact ⟨_, rfl, inv_assertReset h⟩
  | rstRise => exact ⟨_, rfl, inv_releaseReset h⟩

/-- From a legal state every step, whoever moves, answers a legal state. -/
theorem step_inv {s : State} (h : Inv s) : ∃ t, step s = .next t ∧ Inv t := by
  cases hagenda : s.agenda with
  | nil =>
    rw [step_of_agenda_nil hagenda]
    exact engineTurn_inv h
  | cons turn rest =>
    rw [step_of_agenda_cons hagenda]
    exact turnStep_inv (inv_outside h s.irqEn s.irqStat rest s.reply s.draws) turn

/-- Settles O42: nothing is in memory at reset and no RUN is in progress. -/
theorem resetSatisfiesInvariant : Obligations.ResetSatisfiesInvariant :=
  inv_of_idle (by unfold capsLegal; decide) statusLegal_reset ⟨rfl, fun _ hc => absurd hc List.not_mem_nil⟩ rfl

/-- Settles O43: the step has one answer, and `step_inv` gives a legal one. -/
theorem stepKeepsInvariant : Obligations.StepKeepsInvariant := by
  intro s t h hstep
  obtain ⟨u, hu, hinv⟩ := step_inv h
  exact Host.Outcome.next.inj (hu.symm.trans hstep) ▸ hinv

/-- Settles O44. -/
theorem legalStatesNeverStop : Obligations.LegalStatesNeverStop := by
  intro s h
  obtain ⟨t, ht, -⟩ := step_inv h
  exact ⟨t, ht⟩

end Sys2Proof.Proofs
end

-- ==== A RUN from acceptance to completion ====
section
/-! PROOFS. The ENGINE takes a RUN from stage to stage to its end (R160 to R163): the order of the stages and the frame
of each step, the exact number of steps, the polling loop WAITIDLE (R124), and the results, those of DEMOD (R164,
R165). -/

namespace Sys2Proof.Proofs

open Sys2Proof Sys2Proof.Machine Sys2Proof.Safety Sys2Proof.Laws

/-! ### One step (R93, R161) -/

/-- Before stage 6 the step is to the next stage, a legal state again. -/
theorem engineTurn_advances {s : State} (h : Inv s) (hbusy : s.status.busy = true) (hlast : s.status.stage ≠ 6#3) :
    ∃ w, engineTurn s = .next (enterStage (s.status.stage + 1#3) w s) ∧ w.run = s.hidden.run ∧
      Inv (enterStage (s.status.stage + 1#3) w s) := by
  obtain ⟨w, hturn, hrun, hdata⟩ := (running_of_inv h hbusy).engineTurn_enters hbusy hlast
  exact ⟨w, hturn, hrun, inv_enterStage h hbusy hlast hrun hdata⟩

/-- At stage 6 it is to completion. -/
theorem engineTurn_completes {s : State} (h : Inv s) (hbusy : s.status.busy = true) (hlast : s.status.stage = 6#3) :
    engineTurn s = .next (stage6 s) :=
  engineTurn_stage6 (running_of_inv h hbusy).rstN hbusy hlast

/-- Settles O36: STAGE is one more below stage 6, and completion leaves the ERR of a RUN in progress, which is 0. -/
theorem stageOrderIsFixed : Obligations.StageOrderIsFixed := by
  intro s h hbusy
  have hrunning := running_of_inv h hbusy
  by_cases hlast : s.status.stage = 6#3
  · exact ⟨stage6 s, (afterEngine_eq s).trans (engineTurn_completes h hbusy hlast),
      .inr ⟨hlast, rfl, rfl, rfl, hrunning.noError.2⟩⟩
  · obtain ⟨w, hturn, -, -⟩ := engineTurn_advances h hbusy hlast
    obtain ⟨hlt, hsucc, -, -⟩ := stage_succ hrunning.stage hlast
    exact ⟨_, (afterEngine_eq s).trans hturn, .inl ⟨hlt, hsucc, hbusy⟩⟩

/-- Settles O37: only stage 6 stores, and what it stores are the RUN's OBUF words. -/
theorem engineFrame : Obligations.EngineFrame := by
  intro s t h hbusy ht
  rw [afterEngine_eq] at ht
  by_cases hlast : s.status.stage = 6#3
  · cases (engineTurn_completes h hbusy hlast).symm.trans ht
    exact ⟨⟨rfl, rfl, rfl, rfl, rfl, rfl⟩, ⟨rfl, rfl, rfl, rfl, rfl⟩, rfl, rfl, rfl, rfl, rfl, rfl, rfl,
      (running_of_inv h hbusy).sameMemOutside_stage6 hlast⟩
  · obtain ⟨w, hturn, -, -⟩ := engineTurn_advances h hbusy hlast
    cases hturn.symm.trans ht
    exact ⟨⟨rfl, rfl, rfl, rfl, rfl, rfl⟩, ⟨rfl, rfl, rfl, rfl, rfl⟩, rfl, rfl, rfl, rfl, rfl, rfl, rfl,
      fun _ _ => rfl⟩

/-! ### The steps of a RUN left alone (R163) -/

/-- A run of `m + n` steps is a run of `m` steps followed by one of `n`. -/
theorem core_run_add {m : Nat} (n : Nat) {s t : State} (h : core.run m s = .next t) :
    core.run (m + n) s = core.run n t := by
  induction m generalizing s with
  | zero =>
    cases h
    rw [Nat.zero_add]
  | succ m ih =>
    rw [Nat.succ_add]
    cases hstep : step s with
    | next u =>
      rw [core_run_succ _ _ _ hstep] at h ⊢
      exact ih h
    | fault r | refused r => simp [Host.Core.run, core, hstep] at h

theorem core_run_one {s t : State} (h : step s = .next t) : core.run 1 s = .next t :=
  core_run_succ 0 s t h

theorem stage_ne_six {k : BitVec 3} (h : k.toNat < 6) : k ≠ 6#3 := by
  rintro rfl
  exact absurd h (by decide)

/-- With an empty schedule `n` steps lead `n` stages on, as long as no step is taken at stage 6. -/
theorem run_enters {s : State} (h : Inv s) (hbusy : s.status.busy = true) (hagenda : s.agenda = []) {n : Nat}
    (hn : s.status.stage.toNat + n ≤ 6) :
    ∃ k w, core.run n s = .next (enterStage k w s) ∧ k.toNat = s.status.stage.toNat + n ∧ w.run = s.hidden.run ∧
      Inv (enterStage k w s) := by
  induction n generalizing s with
  | zero => exact ⟨s.status.stage, s.hidden, rfl, rfl, rfl, h⟩
  | succ n ih =>
    have hlast := stage_ne_six (k := s.status.stage) (by omega)
    obtain ⟨w, hturn, hrun, hinv⟩ := engineTurn_advances h hbusy hlast
    obtain ⟨-, hsucc, -, -⟩ := stage_succ (running_of_inv h hbusy).stage hlast
    have hstage : (enterStage (s.status.stage + 1#3) w s).status.stage.toNat = s.status.stage.toNat + 1 := hsucc
    obtain ⟨k, w', hrest, hk, hrun', hinv'⟩ := ih hinv hbusy hagenda (by omega)
    refine ⟨k, w', ?_, by omega, hrun'.trans hrun, hinv'⟩
    exact (core_run_succ n _ _ ((step_of_agenda_nil hagenda).trans hturn)).trans hrest

/-- With an empty schedule a RUN completes after `7 - STAGE` steps, its last from a legal state at stage 6. -/
theorem run_completes {s : State} (h : Inv s) (hbusy : s.status.busy = true) (hagenda : s.agenda = []) :
    ∃ w, core.run (7 - s.status.stage.toNat) s = .next (stage6 (enterStage 6#3 w s)) ∧ w.run = s.hidden.run ∧
      Inv (enterStage 6#3 w s) := by
  have hle : s.status.stage.toNat ≤ 6 := by
    obtain hk | hk | hk | hk | hk | hk := stage_cases (running_of_inv h hbusy).stage <;> rw [hk] <;> decide
  obtain ⟨k, w, hsteps, hk, hrun, hinv⟩ := run_enters h hbusy hagenda (n := 6 - s.status.stage.toNat) (by omega)
  obtain rfl : k = 6#3 := BitVec.eq_of_toNat_eq (hk.trans (Nat.add_sub_of_le hle))
  refine ⟨w, ?_, hrun, hinv⟩
  have hcount : 7 - s.status.stage.toNat = 6 - s.status.stage.toNat + 1 := by omega
  rw [hcount, core_run_add 1 hsteps]
  have hturn : step (enterStage 6#3 w s) = engineTurn (enterStage 6#3 w s) := step_of_agenda_nil hagenda
  exact core_run_one (hturn.trans (engineTurn_completes hinv hbusy rfl))

/-- Settles O38: `run_enters` keeps BUSY, and `run_completes` ends the RUN. -/
theorem runEndsAfterSixSteps : Obligations.RunEndsAfterSixSteps := by
  intro s h hbusy hagenda
  constructor
  · intro j hj
    obtain ⟨k, w, hsteps, -⟩ := run_enters h hbusy hagenda (n := j) (by omega)
    exact ⟨_, hsteps, hbusy⟩
  · obtain ⟨w, hsteps, -⟩ := run_completes h hbusy hagenda
    exact ⟨_, hsteps, rfl, rfl⟩

/-! ### WAITIDLE (R123, R124) -/

/-- The mask of WAITIDLE keeps BUSY of the word of STATUS. -/
theorem statusWord_and_one_eq_zero_iff (t : Status) : statusWord t &&& 1#32 = 0#32 ↔ t.busy = false := by
  obtain ⟨hbit, -⟩ := statusWordLayout t
  rw [BitVec.and_one_eq_setWidth_ofBool_getLsbD, hbit]
  cases t.busy <;> decide

/-- The port's answer to a read of STATUS. -/
def statusReply (s : State) : Option Reply := some { data := statusWord s.status, resp := .okay }

theorem inv_statusReply {s : State} (h : Inv s) : Inv { s with reply := statusReply s } :=
  inv_outside h s.irqEn s.irqStat s.agenda (statusReply s) s.draws

theorem pollTurn_status {s : State} (hrst : s.rstN = true) :
    pollTurn (regName .status) 1#32 0#32 s =
      if s.status.busy then { s with agenda := .engine :: waitIdle :: s.agenda, reply := statusReply s }
      else { s with reply := statusReply s } := by
  rw [pollTurn, busRead_status hrst]
  simp only [replyData, statusWord_and_one_eq_zero_iff]
  cases s.status.busy <;> rfl

theorem step_waitIdle {s : State} (hagenda : s.agenda = [waitIdle]) :
    step s = .next (pollTurn (regName .status) 1#32 0#32 { s with agenda := [] }) :=
  step_of_agenda_cons hagenda

theorem step_waitIdle_of_busy {s : State} (hrst : s.rstN = true) (hbusy : s.status.busy = true)
    (hagenda : s.agenda = [waitIdle]) :
    step s = .next { s with agenda := [.engine, waitIdle], reply := statusReply s } := by
  rw [step_waitIdle hagenda, pollTurn_status (s := { s with agenda := [] }) hrst]
  exact congrArg Host.Outcome.next (if_pos hbusy)

theorem step_waitIdle_of_idle {s : State} (hrst : s.rstN = true) (hidle : s.status.busy = false)
    (hagenda : s.agenda = [waitIdle]) : step s = .next { s with agenda := [], reply := statusReply s } := by
  rw [step_waitIdle hagenda, pollTurn_status (s := { s with agenda := [] }) hrst]
  exact congrArg Host.Outcome.next (if_neg (Bool.eq_false_iff.1 hidle))

/-- One round of WAITIDLE while BUSY: the read of STATUS, and the ENGINE's turn. -/
theorem run_two_waitIdle {s t : State} (hrst : s.rstN = true) (hbusy : s.status.busy = true)
    (hagenda : s.agenda = [waitIdle]) (hturn : engineTurn { s with reply := statusReply s } = .next t) :
    core.run 2 s = .next t := by
  have hstate : { s with agenda := [waitIdle], reply := statusReply s } = { s with reply := statusReply s } := by
    rw [← hagenda]
  have hengine : step { s with agenda := [.engine, waitIdle], reply := statusReply s } = .next t :=
    (step_of_agenda_cons (t := .engine) (rest := [waitIdle]) rfl).trans ((congrArg engineTurn hstate).trans hturn)
  exact (core_run_succ 1 _ _ (step_waitIdle_of_busy hrst hbusy hagenda)).trans (core_run_one hengine)

/-- WAITIDLE with the last stage `n` stages away. -/
theorem waitIdle_ends {s : State} (h : Inv s) (hbusy : s.status.busy = true) (hagenda : s.agenda = [waitIdle])
    (n : Nat) (hn : s.status.stage.toNat + n = 6) :
    ∃ m t, core.run m s = .next t ∧ t.agenda = [] ∧ t.status.busy = false ∧ t.status.done = true := by
  induction n generalizing s with
  | zero =>
    have hrst := (running_of_inv h hbusy).rstN
    have hlast : s.status.stage = 6#3 := BitVec.eq_of_toNat_eq hn
    have hround := run_two_waitIdle hrst hbusy hagenda (engineTurn_completes (inv_statusReply h) hbusy hlast)
    have hread := step_waitIdle_of_idle (s := stage6 { s with reply := statusReply s }) hrst rfl hagenda
    exact ⟨3, _, (core_run_add 1 hround).trans (core_run_one hread), rfl, rfl, rfl⟩
  | succ n ih =>
    have hrunning := running_of_inv h hbusy
    have hlast := stage_ne_six (k := s.status.stage) (by omega)
    obtain ⟨w, hturn, -, hinv⟩ := engineTurn_advances (inv_statusReply h) hbusy hlast
    obtain ⟨-, hsucc, -, -⟩ := stage_succ hrunning.stage hlast
    have hn' : (s.status.stage + 1#3).toNat + n = 6 := by omega
    have hround := run_two_waitIdle hrunning.rstN hbusy hagenda hturn
    obtain ⟨m, t, hrest, ht⟩ := ih hinv hbusy hagenda hn'
    exact ⟨2 + m, t, (core_run_add m hround).trans hrest, ht⟩

/-- Settles O39: each round that finds BUSY lets the ENGINE enter one stage more. -/
theorem waitIdleEndsWithTheRun : Obligations.WaitIdleEndsWithTheRun := by
  intro s h hbusy hagenda
  obtain hk | hk | hk | hk | hk | hk := stage_cases (running_of_inv h hbusy).stage
  all_goals exact waitIdle_ends h hbusy hagenda (6 - s.status.stage.toNat) (by rw [hk]; decide)

/-! ### The results (R164, R165) -/

/-- The block after the RUN command is accepted and the port has answered. -/
def startedRun (s : State) : State := answer (okayReply 0#32) (accept (clearRunFlags s))

/-- The first step of the placed program delivers RUN. -/
theorem step_withFetchWord_run {s : State} (hidle : s.status.busy = false) (hrst : s.rstN = true)
    (hcheck : check s = codeNone) : step (s.withFetchWord 32 1) = .next (startedRun s) := by
  have hplaced : s.withFetchWord 32 1 = { s with agenda := .host (cmdWrite 1#32) :: s.agenda } := by
    rw [State.withFetchWord, placeCommand, ← hrst]
    rfl
  rw [hplaced]
  refine (stepRunsDecodedCommand s 1#32 .run hrst rfl rfl).trans ?_
  rw [exec_run_of_idle hidle, startRun_of_pass hcheck]
  rfl

/-- Seven steps of an accepted RUN: the command, and the ENGINE's six, the last from a legal state at stage 6. -/
theorem run_seven {s : State} (h : Inv s) (hidle : s.status.busy = false) (hrst : s.rstN = true)
    (hagenda : s.agenda = []) (hcheck : check s = codeNone) :
    ∃ w, core.run 7 (s.withFetchWord 32 1) = .next (stage6 (enterStage 6#3 w (startedRun s))) ∧
      Running (enterStage 6#3 w (startedRun s)) := by
  have hinv : Inv (startedRun s) := inv_outside (inv_accept h hrst hcheck) _ _ _ _ _
  obtain ⟨w, hsteps, -, hinv'⟩ := run_completes hinv rfl hagenda
  exact ⟨w, (core_run_succ 6 _ _ (step_withFetchWord_run hidle hrst hcheck)).trans hsteps, running_of_inv hinv' rfl⟩

/-- OUTLEN holds the number of samples without loss: no capacity of R7 reaches `2^32`. -/
theorem Running.outlen_toNat {s : State} (h : Running s) (hlast : s.status.stage = 6#3) :
    s.outlen.toNat = (normalizeBuf s.hidden.w5 s.hidden.run.rnd).pcm.length := by
  obtain ⟨-, -, -, -, -, -, -, -, -, -, -, -, -, hl3⟩ := acceptedRunRanges.2 s h.accepted
  have hbound : s.hidden.run.l3 < 2 ^ 32 := by
    rw [h.params]
    exact (hl3.trans (Nat.div_le_self _ _)).trans_lt s.paramNmax.isLt
  rw [h.outlen, BitVec.toNat_ofNat, Nat.mod_eq_of_lt hbound, normalizeBuf_length, h.w5_length hlast]

/-- Settles O40: the state the last step starts from has the inputs of acceptance, so NORMALIZE's result there is
DEMOD's. -/
theorem sixStepsComputeDemod : Obligations.SixStepsComputeDemod := by
  intro s h hidle hrst hagenda hcheck r
  obtain ⟨w, hsteps, hrunning⟩ := run_seven h hidle hrst hagenda hcheck
  let u := enterStage 6#3 w (startedRun s)
  have hresult : normalizeBuf u.hidden.w5 u.hidden.run.rnd = r := hrunning.normalizeBuf_eq_demodOf rfl
  have hparams : u.hidden.run = runParamsOf s := hrunning.params
  have houtlen : u.outlen.toNat = r.pcm.length := hresult ▸ hrunning.outlen_toNat rfl
  have hmem : sameMemOutside u (stage6 u) obufBase (obufBytesOf (runParamsOf s)) :=
    hparams ▸ hrunning.sameMemOutside_stage6 rfl
  have hstage6 : stage6 u = complete (storeResult r u) := by rw [stage6, hresult]
  change core.run 7 (s.withFetchWord 32 1) = .next (stage6 u) at hsteps
  rw [hstage6] at hsteps hmem
  refine ⟨complete (storeResult r u), hsteps, rfl, rfl, peakHiOf_append_peakLoOf r.peak, houtlen, ?_, hmem⟩
  have hread : pcmSamples (storeResult r u) u.outlen.toNat = r.pcm.map BitVec.toInt :=
    houtlen ▸ storedPcmIsReadBack r u
  exact hread

/-- DEMOD reads the inputs R164 lists and nothing else. -/
theorem demodOf_congr {s u : State} (h : SameInputs s u) : demodOf s = demodOf u := by
  obtain ⟨hrate, hoffset, hnsamp, hntaps1, hntaps2, hcfg, hibuf, hcoef1, hcoef2⟩ := h
  simp only [demodOf, opN, opT1, opT2, opR, opF, opRnd, ← hrate, ← hoffset, ← hnsamp, ← hntaps1, ← hntaps2, ← hcfg] at *
  rw [hibuf, hcoef1, hcoef2]

/-- The halves of a peak determine it and are determined by it. -/
theorem peak_halves_inj {hi lo hi' lo' : Word} (h : hi ++ lo = hi' ++ lo') : lo = lo' ∧ hi = hi' := by
  have hlo := congrArg (BitVec.extractLsb' 0 32) h
  have hhi := congrArg (BitVec.extractLsb' 32 32) h
  rw [BitVec.extractLsb'_append_eq_right, BitVec.extractLsb'_append_eq_right] at hlo
  rw [BitVec.extractLsb'_append_eq_left, BitVec.extractLsb'_append_eq_left] at hhi
  exact ⟨hlo, hhi⟩

/-- Settles O41: both results are those of the one DEMOD. -/
theorem completedRunsAreDeterministic : Obligations.CompletedRunsAreDeterministic := by
  intro s u hs hu hsidle huidle hsrst hurst hsagenda huagenda hscheck hucheck hinputs
  obtain ⟨t, htrun, htstatus, -, htpeak, htoutlen, htpcm, -⟩ :=
    sixStepsComputeDemod s hs hsidle hsrst hsagenda hscheck
  obtain ⟨v, hvrun, hvstatus, -, hvpeak, hvoutlen, hvpcm, -⟩ :=
    sixStepsComputeDemod u hu huidle hurst huagenda hucheck
  rw [← demodOf_congr hinputs] at hvstatus hvpeak hvoutlen hvpcm
  obtain ⟨hlo, hhi⟩ := peak_halves_inj (htpeak.trans hvpeak.symm)
  refine ⟨t, v, htrun, hvrun, hlo, hhi, ?_, BitVec.eq_of_toNat_eq (htoutlen.trans hvoutlen.symm),
    htpcm.trans hvpcm.symm⟩
  rw [htstatus, hvstatus]

end Sys2Proof.Proofs
end

-- ==== Correct rounding ====
section
/-! PROOFS. `RN` is rounding to nearest, ties to even (R13): the number lies between the two midpoints beside its
rounded value, and on one of them only when that value is even. The four basic operations round their exact result
once. -/

namespace Sys2Proof.Proofs

open Sys2Proof Sys2Proof.Machine Sys2Proof.Safety Sys2Proof.Laws

/-! ### The midpoints beside a rounded value -/

section Midpoints

variable {n d : Nat} (hd : 0 < d) (hfin : rnUnits n d < infMag)

include hfin in
theorem rnUnits_eq_of_finite :
    rnUnits n d = quantum n d * 2 ^ 52 + divNearestEven n (d * 2 ^ quantum n d) := by
  unfold rnUnits at *
  omega

include hd hfin

/-- Half a quantum away from the rounded value, the significand kept is even, and with it the encoding. -/
theorem rnUnits_even_of_half_quantum
    (h : 2 * n = 2 * (d * unitsOfMag (rnUnits n d)) + d * 2 ^ quantum n d ∨
      2 * (d * unitsOfMag (rnUnits n d)) = 2 * n + d * 2 ^ quantum n d) : rnUnits n d % 2 = 0 := by
  rw [unitsOfMag_rnUnits n hd hfin] at h
  have heven : divNearestEven n (d * 2 ^ quantum n d) % 2 = 0 := by
    apply divNearestEven_even_of_tie (Nat.mul_pos hd (Nat.two_pow_pos _))
    exact h.imp (fun heq => by linarith) (fun heq => by linarith)
  rw [rnUnits_eq_of_finite hfin]
  omega

/-- The values above a rounded one are a quantum or more away. -/
theorem le_midpoint_above {m : Nat} (hm : rnUnits n d < m) :
    2 * n ≤ d * (unitsOfMag (rnUnits n d) + unitsOfMag m) ∧
      (2 * n = d * (unitsOfMag (rnUnits n d) + unitsOfMag m) → rnUnits n d % 2 = 0) := by
  obtain ⟨hle, -⟩ := rnUnits_error_le_half_quantum n hd hfin
  have htie := rnUnits_even_of_half_quantum hd hfin
  have hexp : quantum n d ≤ rnUnits n d / 2 ^ 52 - 1 := by
    have heq := rnUnits_eq_of_finite hfin
    obtain hzero | hnormal := (significand_bounds n hd).2 <;> omega
  have hgap : unitsOfMag (rnUnits n d) + 2 ^ quantum n d ≤ unitsOfMag m :=
    calc _ ≤ unitsOfMag (rnUnits n d) + 2 ^ (rnUnits n d / 2 ^ 52 - 1) :=
          Nat.add_le_add_left (Nat.pow_le_pow_right (by decide) hexp) _
      _ = unitsOfMag (rnUnits n d + 1) := (unitsOfMag_succ _).symm
      _ ≤ unitsOfMag m := unitsOfMag_le_iff.2 hm
  have hgap := Nat.mul_le_mul_left d hgap
  rw [Nat.mul_add] at hgap ⊢
  exact ⟨by omega, fun heq => htie (.inl (by omega))⟩

/-- So are those below, unless the rounded value is the least of its binade: the next value is half as far away then,
but the number is no less than its rounded value. -/
theorem midpoint_below_le {m : Nat} (hm : m < rnUnits n d) :
    d * (unitsOfMag m + unitsOfMag (rnUnits n d)) ≤ 2 * n ∧
      (d * (unitsOfMag m + unitsOfMag (rnUnits n d)) = 2 * n → rnUnits n d % 2 = 0) := by
  have hlt := Nat.mul_lt_mul_of_pos_left (unitsOfMag_lt_iff.2 hm) hd
  have heq := rnUnits_eq_of_finite hfin
  have hvalue := unitsOfMag_rnUnits n hd hfin
  by_cases hleast : quantum n d ≠ 0 ∧ divNearestEven n (d * 2 ^ quantum n d) = 2 ^ 52
  · have hle : d * unitsOfMag (rnUnits n d) ≤ n := by
      rw [hvalue, hleast.2]
      linarith [(quantum_eq_zero_or_le n hd).resolve_left hleast.1]
    rw [Nat.mul_add]
    exact ⟨by omega, fun heq => by omega⟩
  · obtain ⟨-, hge⟩ := rnUnits_error_le_half_quantum n hd hfin
    have htie := rnUnits_even_of_half_quantum hd hfin
    obtain ⟨k, hk⟩ : ∃ k, rnUnits n d = k + 1 := ⟨rnUnits n d - 1, by omega⟩
    have hexp : quantum n d ≤ k / 2 ^ 52 - 1 := by
      obtain hzero | hnormal := (significand_bounds n hd).2 <;> omega
    have hgap : unitsOfMag m + 2 ^ quantum n d ≤ unitsOfMag (rnUnits n d) :=
      calc _ ≤ unitsOfMag k + 2 ^ (k / 2 ^ 52 - 1) :=
            Nat.add_le_add (unitsOfMag_le_iff.2 (by omega)) (Nat.pow_le_pow_right (by decide) hexp)
        _ = unitsOfMag (k + 1) := (unitsOfMag_succ k).symm
        _ = unitsOfMag (rnUnits n d) := by rw [hk]
    have hgap := Nat.mul_le_mul_left d hgap
    rw [Nat.mul_add] at hgap ⊢
    exact ⟨by omega, fun heq => htie (.inr (by omega))⟩

end Midpoints

/-! ### Nearness (R13) -/

/-- On its own side of the midpoint of `x` and `y`, a number is nearer to `x`. -/
theorem nearer_of_le_midpoint {r x y : ℚ} (hxy : x < y) (h : 2 * r ≤ x + y) :
    |r - x| ≤ |r - y| ∧ (|r - x| = |r - y| → 2 * r = x + y) := by
  refine ⟨(abs_le.2 ⟨by linarith, by linarith⟩).trans (neg_le_abs (r - y)), fun heq => ?_⟩
  obtain heq | heq := abs_eq_abs.1 heq <;> linarith

theorem nearer_of_midpoint_le {r x y : ℚ} (hxy : y < x) (h : y + x ≤ 2 * r) :
    |r - x| ≤ |r - y| ∧ (|r - x| = |r - y| → y + x = 2 * r) := by
  refine ⟨(abs_le.2 ⟨by linarith, by linarith⟩).trans (le_abs_self (r - y)), fun heq => ?_⟩
  obtain heq | heq := abs_eq_abs.1 heq <;> linarith

/-- Settles O45: a value above the rounded one lies beyond the midpoint above, one below beyond the midpoint below. -/
theorem roundingIsNearestEven : Obligations.RoundingIsNearestEven := by
  intro n d hd hmax
  have hfin := rnUnits_finite n d hd hmax
  refine ⟨hfin, fun m _ => ?_⟩
  have hdQ : (0 : ℚ) < d := Nat.cast_pos.2 hd
  have hr : 2 * ((n : ℚ) / d) = (2 * n : Nat) / d := by
    push_cast
    ring
  obtain hlt | rfl | hlt := Nat.lt_trichotomy m (rnUnits n d)
  · obtain ⟨hmid, htie⟩ := midpoint_below_le hd hfin hlt
    have hnear := nearer_of_midpoint_le (r := (n : ℚ) / d) (Nat.cast_lt.2 (unitsOfMag_lt_iff.2 hlt))
      (by rw [hr, le_div_iff₀' hdQ]; exact_mod_cast hmid)
    refine ⟨hnear.1, fun heq _ => htie ?_⟩
    have hon := hnear.2 heq
    rw [hr, eq_div_iff hdQ.ne', mul_comm] at hon
    exact_mod_cast hon
  · exact ⟨le_rfl, fun _ hne => absurd rfl hne⟩
  · obtain ⟨hmid, htie⟩ := le_midpoint_above hd hfin hlt
    have hnear := nearer_of_le_midpoint (r := (n : ℚ) / d) (Nat.cast_lt.2 (unitsOfMag_lt_iff.2 hlt))
      (by rw [hr, div_le_iff₀' hdQ]; exact_mod_cast hmid)
    refine ⟨hnear.1, fun heq _ => htie ?_⟩
    have hon := hnear.2 heq
    rw [hr, div_eq_iff hdQ.ne', mul_comm _ (d : ℚ)] at hon
    exact_mod_cast hon

/-! ### Rounding a signed number -/

theorem magOf_rn (neg : Bool) (n d : Nat) : magOf (rn neg n d) = rnUnits n d := magOf_ofMag (rnUnits_lt n d)

/-- The number of a sign and a magnitude. -/
def signed (neg : Bool) (x : ℚ) : ℚ := if neg then -x else x

theorem units_eq_signed (a : F64) : (units a : ℚ) = signed (signOf a) (absUnits a) := by
  unfold units signed
  split <;> simp

theorem units_rn_eq_signed (neg : Bool) (n d : Nat) :
    (units (rn neg n d) : ℚ) = signed neg (unitsOfMag (rnUnits n d)) := by
  rw [units_rn]
  unfold signed
  split <;> simp

theorem signed_mul_signed_rat (neg neg' : Bool) (x y : ℚ) :
    signed neg x * signed neg' y = signed (neg != neg') (x * y) := by
  cases neg <;> cases neg' <;> simp [signed]

theorem abs_signed_rat {x : ℚ} (hx : 0 ≤ x) (neg : Bool) : |signed neg x| = x := by
  cases neg <;> simp [signed, abs_of_nonneg hx]

/-- With a common sign the distance is that of the magnitudes. -/
theorem abs_signed_sub_signed (neg : Bool) (x y : ℚ) : |signed neg x - signed neg y| = |x - y| := by
  cases neg
  · rfl
  · rw [signed, signed, if_pos rfl, if_pos rfl, neg_sub_neg, abs_sub_comm]

/-- With opposite signs it is their sum. -/
theorem abs_signed_sub_signed_of_ne {neg neg' : Bool} (hne : neg' ≠ neg) {x y : ℚ} (hx : 0 ≤ x) (hy : 0 ≤ y) :
    |signed neg x - signed neg' y| = x + y := by
  obtain rfl : neg' = !neg := Bool.eq_not_of_ne hne
  cases neg
  · rw [signed, signed, if_neg (by decide), if_pos (by decide), sub_neg_eq_add, abs_of_nonneg (add_nonneg hx hy)]
  · rw [signed, signed, if_pos (by decide), if_neg (by decide), ← neg_add', abs_neg, abs_of_nonneg (add_nonneg hx hy)]

/-- `RN` of a signed number is correctly rounded: a value of the other sign is no nearer than `0`. -/
theorem roundsTo_rn {r : ℚ} {neg : Bool} {n d : Nat} (hd : 0 < d) (hr : r = signed neg ((n : ℚ) / d))
    (hmax : |r| ≤ maxUnits) : RoundsTo r (rn neg n d) := by
  have hdQ : (0 : ℚ) < d := Nat.cast_pos.2 hd
  have hnonneg : (0 : ℚ) ≤ (n : ℚ) / d := div_nonneg (Nat.cast_nonneg n) hdQ.le
  have hle : n ≤ d * unitsOfMag (infMag - 1) := by
    rwa [hr, abs_signed_rat hnonneg, div_le_iff₀' hdQ, maxUnits, ← Nat.cast_mul, Nat.cast_le] at hmax
  obtain ⟨hfin, hnearest⟩ := roundingIsNearestEven n d hd hle
  have hdist (m : F64) (hm : isFinite m = true) :
      |r - units (rn neg n d)| ≤ |r - units m| ∧
        (units m ≠ units (rn neg n d) → |r - units (rn neg n d)| = |r - units m| → magOf (rn neg n d) % 2 = 0) := by
    rw [magOf_rn, hr, units_rn_eq_signed, units_eq_signed m, abs_signed_sub_signed]
    by_cases hsign : signOf m = neg
    · obtain ⟨hle, htie⟩ := hnearest (magOf m) ((isFinite_iff m).1 hm)
      rw [hsign, abs_signed_sub_signed]
      refine ⟨hle, fun hne heq => htie heq fun hmag => hne ?_⟩
      rw [units_rn, units, hsign, absUnits, hmag]
    · obtain ⟨hle, htie⟩ := hnearest 0 (by decide)
      have hm0 : (0 : ℚ) ≤ absUnits m := Nat.cast_nonneg _
      rw [unitsOfMag_zero, Nat.cast_zero, sub_zero, abs_of_nonneg hnonneg] at hle htie
      rw [abs_signed_sub_signed_of_ne hsign hnonneg hm0]
      refine ⟨by linarith, fun _ heq => ?_⟩
      by_cases hzero : 0 = rnUnits n d
      · omega
      · exact htie (by linarith) hzero
  exact ⟨isFinite_rn.2 hfin, fun m hm => (hdist m hm).1, fun m hm => (hdist m hm).2⟩

/-! ### The basic operations (R13) -/

section Operations

variable {a b : F64} (ha : isFinite a = true) (hb : isFinite b = true)

include ha hb

theorem fadd_of_units_add_eq_zero (hzero : units a + units b = 0) :
    fadd a b = if signOf a && signOf b then fNegZero else fZero := by
  rw [fadd_of_finite ha hb, if_pos hzero]
  cases signOf a && signOf b <;> decide

/-- A sum is rounded once, a zero one exactly. -/
theorem roundsTo_fadd (hmax : |(units a + units b : ℚ)| ≤ maxUnits) : RoundsTo (units a + units b) (fadd a b) := by
  have hsum : ((units a : ℚ) + units b) = (units a + units b : Int) := by push_cast; rfl
  rw [hsum] at hmax ⊢
  rw [fadd_of_finite ha hb]
  split
  case isTrue hzero =>
    have hrn (neg : Bool) : ofMag neg 0 = rn neg 0 1 := by rw [rn, rnUnits_zero Nat.one_pos]
    rw [hrn]
    exact roundsTo_rn Nat.one_pos (by rw [hzero]; simp [signed]) hmax
  case isFalse =>
    refine roundsTo_rn Nat.one_pos ?_ hmax
    by_cases hneg : units a + units b < 0
    · rw [decide_eq_true hneg, signed, if_pos rfl, Nat.cast_natAbs, abs_of_neg hneg]
      simp
    · rw [decide_eq_false hneg, signed, if_neg Bool.false_ne_true, Nat.cast_natAbs, abs_of_nonneg (not_lt.1 hneg)]
      simp

theorem roundsTo_fsub (hmax : |(units a - units b : ℚ)| ≤ maxUnits) : RoundsTo (units a - units b) (fsub a b) := by
  have hdiff : (units a - units b : ℚ) = units a + units (fneg b) := by
    rw [units_fneg, Int.cast_neg, sub_eq_add_neg]
  rw [hdiff] at hmax ⊢
  exact roundsTo_fadd ha (isFinite_fneg hb) hmax

theorem roundsTo_fmul (hmax : |(units a * units b / oneUnits : ℚ)| ≤ maxUnits) :
    RoundsTo (units a * units b / oneUnits) (fmul a b) := by
  rw [fmul_of_finite ha hb]
  refine roundsTo_rn oneUnits_pos ?_ hmax
  rw [units_eq_signed, units_eq_signed, signed_mul_signed_rat, Nat.cast_mul]
  unfold signed
  split
  · rw [neg_div]
  · rfl

theorem roundsTo_fdiv (hne : units b ≠ 0) (hmax : |(units a * oneUnits / units b : ℚ)| ≤ maxUnits) :
    RoundsTo (units a * oneUnits / units b) (fdiv a b) := by
  have hmag : magOf b ≠ 0 := mt (units_eq_zero b).2 hne
  have hpos : 0 < absUnits b := Nat.pos_of_ne_zero (mt (absUnits_eq_zero_iff b).1 hmag)
  rw [fdiv_of_finite ha hb hmag]
  refine roundsTo_rn hpos ?_ hmax
  rw [units_eq_signed, units_eq_signed, Nat.cast_mul]
  cases signOf a <;> cases signOf b <;> simp [signed, neg_div, div_neg]

end Operations

/-- Settles O46: each operation is `RN` of its exact result, with the sign of R13. -/
theorem basicOperationsAreCorrectlyRounded : Obligations.BasicOperationsAreCorrectlyRounded := by
  intro a b ha hb ua ub
  have hone : (2 : ℚ) ^ 1074 = oneUnits := by
    rw [oneUnits_eq]
    exact (Nat.cast_pow 2 1074).symm
  have hb0 : ub ≠ 0 → units b ≠ 0 := Int.cast_ne_zero.1
  rw [hone]
  refine ⟨roundsTo_fadd ha hb, roundsTo_fsub ha hb, roundsTo_fmul ha hb, fun hne => roundsTo_fdiv ha hb (hb0 hne),
    fun hzero => ?_, fun hzero => ?_, ?_, fun hne => ?_⟩
  · rw [← Int.cast_add, Int.cast_eq_zero] at hzero
    exact fadd_of_units_add_eq_zero ha hb hzero
  · rw [← Int.cast_sub, Int.cast_eq_zero, sub_eq_add_neg, ← units_fneg] at hzero
    rw [fsub, fadd_of_units_add_eq_zero ha (isFinite_fneg hb) hzero, signOf_fneg]
  · rw [fmul_of_finite ha hb, rn, signOf_ofMag (rnUnits_lt _ _)]
  · rw [fdiv_of_finite ha hb (mt (units_eq_zero b).2 (hb0 hne)), rn, signOf_ofMag (rnUnits_lt _ _)]

end Sys2Proof.Proofs
end

-- ==== The pole of an accepted rate ====
section
/-! PROOFS. For every accepted rate the argument of `EXP_FN` lies in the interval of R261 (R266): the exact quotient
lies between `-1/15` and `-1/30`, and rounding does not carry it past their rounded values. -/

namespace Sys2Proof.Proofs

open Sys2Proof Sys2Proof.Machine Sys2Proof.Safety Sys2Proof.Laws

/-! ### Bounds of a rounded value (R13) -/

section Bounds

variable {n d e : Nat} (hd : 0 < d) (hfin : rnUnits n d < infMag)

include hd hfin

/-- A number below the midpoint above `e` is not rounded past `e`. -/
theorem rnUnits_le_of_lt_midpoint (h : 2 * n < d * (unitsOfMag e + unitsOfMag (e + 1))) : rnUnits n d ≤ e := by
  by_contra hlt
  rw [not_le] at hlt
  obtain ⟨hmid, -⟩ := midpoint_below_le hd hfin hlt
  have hle : unitsOfMag (e + 1) ≤ unitsOfMag (rnUnits n d) := unitsOfMag_le_iff.2 hlt
  have hle := Nat.mul_le_mul_left d (Nat.add_le_add_left hle (unitsOfMag e))
  omega

/-- A number not below a value is not rounded below it. -/
theorem le_rnUnits_of_le (h : d * unitsOfMag e ≤ n) : e ≤ rnUnits n d := by
  by_contra hlt
  rw [not_le] at hlt
  obtain ⟨hmid, -⟩ := le_midpoint_above hd hfin hlt
  have hlt := Nat.mul_lt_mul_of_pos_left (unitsOfMag_lt_iff.2 hlt) hd
  rw [Nat.mul_add] at hmid
  omega

end Bounds

/-! ### The argument of EXP_FN (R260, R266) -/

theorem oneUnits_le_max : oneUnits ≤ unitsOfMag (infMag - 1) := by decide +kernel

/-- `-1/15` lies below the midpoint above `RN(-1/15)`, in magnitude. -/
theorem one_fifteenth_lt_midpoint :
    2 * oneUnits < 15 * (unitsOfMag (magOf expArgMin) + unitsOfMag (magOf expArgMin + 1)) := by decide +kernel

/-- `RN(-1/30)` lies below `-1/30`, in magnitude. -/
theorem expArgMax_le_one_thirtieth : 30 * unitsOfMag (magOf expArgMax) ≤ oneUnits := by decide +kernel

/-- The exact magnitude of an integer converted to binary64. -/
theorem absUnits_f64 {n : Int} (h : n.natAbs ≤ 2 ^ 53) : absUnits (f64 n) = n.natAbs * oneUnits := by
  obtain ⟨-, hunits, -, -⟩ := f64_spec n h
  rw [← units_natAbs, hunits, two_pow_1074_eq_oneUnits, Int.natAbs_mul, Int.natAbs_natCast]

section Pole

variable {R : Nat} (hlo : 200000 ≤ R) (hhi : R < 2 ^ 32)

include hlo hhi

/-- The argument is the quotient `-40000 * d1 / (3 * R)`, rounded once. -/
theorem deemphArg_eq_rn :
    deemphArg R (factor1 R) = rn true (40000 * factor1 R * oneUnits * oneUnits) (3 * R * oneUnits) := by
  have hd1 := factor1_pos hlo
  have hle := mul_factor1_le R
  have hnum : (-40000 * (factor1 R : Int)).natAbs = 40000 * factor1 R := by omega
  have hden : (3 * (R : Int)).natAbs = 3 * R := by omega
  obtain ⟨hnumFin, -, -, hnumSign⟩ := f64_spec (-40000 * (factor1 R : Int)) (by omega)
  obtain ⟨hdenFin, -, -, hdenSign⟩ := f64_spec (3 * (R : Int)) (by omega)
  have hdenAbs := absUnits_f64 (n := 3 * (R : Int)) (by omega)
  have hpos : 0 < 3 * R * oneUnits := Nat.mul_pos (by omega) oneUnits_pos
  have hne : magOf (f64 (3 * (R : Int))) ≠ 0 := by
    rw [ne_eq, ← absUnits_eq_zero_iff, hdenAbs, hden]
    exact hpos.ne'
  rw [deemphArg, fdiv_of_finite hnumFin hdenFin hne, hnumSign, hdenSign, absUnits_f64 (by omega), hdenAbs, hnum, hden,
    decide_eq_true (by omega), decide_eq_false (by omega)]
  rfl

theorem deemphArg_magnitude :
    rnUnits (40000 * factor1 R * oneUnits * oneUnits) (3 * R * oneUnits) < infMag ∧
      magOf expArgMax ≤ rnUnits (40000 * factor1 R * oneUnits * oneUnits) (3 * R * oneUnits) ∧
      rnUnits (40000 * factor1 R * oneUnits * oneUnits) (3 * R * oneUnits) ≤ magOf expArgMin := by
  have hle := mul_factor1_le R
  have hlt := lt_mul_factor1 hlo
  have hpos : 0 < 3 * R * oneUnits := Nat.mul_pos (by omega) oneUnits_pos
  have hfin : rnUnits (40000 * factor1 R * oneUnits * oneUnits) (3 * R * oneUnits) < infMag := by
    apply rnUnits_finite _ _ hpos
    exact Nat.mul_le_mul (Nat.mul_le_mul_right _ (by omega)) oneUnits_le_max
  refine ⟨hfin, le_rnUnits_of_le hpos hfin ?_, rnUnits_le_of_lt_midpoint hpos hfin ?_⟩
  · have hbound := expArgMax_le_one_thirtieth
    generalize unitsOfMag (magOf expArgMax) = u at *
    calc 3 * R * oneUnits * u ≤ 3 * (400000 * factor1 R) * oneUnits * u := by gcongr
      _ = 40000 * factor1 R * oneUnits * (30 * u) := by ring
      _ ≤ 40000 * factor1 R * oneUnits * oneUnits := Nat.mul_le_mul_left _ hbound
  · have hbound := one_fifteenth_lt_midpoint
    generalize unitsOfMag (magOf expArgMin) + unitsOfMag (magOf expArgMin + 1) = u at *
    have hscaled : 5 * (2 * (40000 * factor1 R * oneUnits * oneUnits)) < 5 * (3 * R * oneUnits * u) :=
      calc 5 * (2 * (40000 * factor1 R * oneUnits * oneUnits))
          = 200000 * factor1 R * oneUnits * (2 * oneUnits) := by ring
        _ ≤ R * oneUnits * (2 * oneUnits) := by gcongr
        _ < R * oneUnits * (15 * u) := Nat.mul_lt_mul_of_pos_left hbound (Nat.mul_pos (by omega) oneUnits_pos)
        _ = 5 * (3 * R * oneUnits * u) := by ring
    omega

/-- The pole of every accepted rate lies in `[0.5, 1.0)`. -/
theorem inPoleInterval_deemphX : InPoleInterval (deemphX R (factor1 R)) := by
  obtain ⟨hfin, hge, hle⟩ := deemphArg_magnitude hlo hhi
  have hnan := isNan_of_isFinite (isFinite_rn (neg := true).2 hfin)
  have hunits := units_rn true (40000 * factor1 R * oneUnits * oneUnits) (3 * R * oneUnits)
  rw [if_pos rfl] at hunits
  rw [deemphX, deemphArg_eq_rn hlo hhi]
  apply inPoleInterval_expFn
  · refine (fle_iff _ _).2 ⟨by decide, hnan, ?_⟩
    have hmin : units expArgMin = -(unitsOfMag (magOf expArgMin) : Int) := if_pos (by decide)
    rw [hunits, hmin]
    exact Int.neg_le_neg (Int.ofNat_le.2 (unitsOfMag_le_iff.2 hle))
  · refine (fle_iff _ _).2 ⟨hnan, by decide, ?_⟩
    have hmax : units expArgMax = -(unitsOfMag (magOf expArgMax) : Int) := if_pos (by decide)
    rw [hunits, hmax]
    exact Int.neg_le_neg (Int.ofNat_le.2 (unitsOfMag_le_iff.2 hge))

end Pole

/-- The gain of a pole is finite, being at most 1. -/
theorem isFinite_deemphB0 {x : F64} (hx : InPoleInterval x) : isFinite (deemphB0 x) = true := by
  have hlo := hx.units_ge
  have hhi := hx.units_lt
  have hhalf : 0 ≤ units fHalf := by rw [units_fHalf_eq_quanta]; exact Int.natCast_nonneg _
  have hone : (units fOne : ℚ) ≤ maxUnits := by
    rw [units_of_signOf_eq_false (by decide), maxUnits]
    exact_mod_cast unitsOfMag_le_iff.2 (by decide : magOf fOne ≤ infMag - 1)
  refine (roundsTo_fsub (a := fOne) (by decide) hx.isFinite ?_).finite
  rw [← Int.cast_sub, abs_of_nonneg (Int.cast_nonneg (by omega))]
  exact (Int.cast_le.2 (by omega)).trans hone

end Sys2Proof.Proofs
end

-- ==== Silence ====
section
/-! PROOFS. Zeros stay zeros through the stages (R220, R245, R267, R302): a product with a zero is a zero, a sum of
zeros is a zero, and the angle of the zero point is `+0`. -/

namespace Sys2Proof.Proofs

open Sys2Proof Sys2Proof.Machine Sys2Proof.Safety Sys2Proof.Laws

/-! ### Operations on zeros (R13) -/

/-- A zero of either sign. -/
def IsZero (a : F64) : Prop := magOf a = 0

theorem isZero_fZero : IsZero fZero := by
  unfold IsZero
  decide

theorem IsZero.fadd {a b : F64} (ha : IsZero a) (hb : IsZero b) : IsZero (fadd a b) := by
  have hsum : units a + units b = 0 := by rw [units_of_magOf_zero ha, units_of_magOf_zero hb, add_zero]
  rw [fadd_of_finite (isFinite_of_magOf_zero ha) (isFinite_of_magOf_zero hb), if_pos hsum]
  exact magOf_ofMag_zero _

theorem IsZero.fsub {a b : F64} (ha : IsZero a) (hb : IsZero b) : IsZero (fsub a b) :=
  ha.fadd ((magOf_fneg b).trans hb)

theorem IsZero.fmul_right {a b : F64} (ha : isFinite a = true) (hb : IsZero b) : IsZero (fmul a b) := by
  rw [IsZero, fmul_zero_right ha hb]
  exact magOf_ofMag_zero _

theorem IsZero.fmul_left {a b : F64} (ha : IsZero a) (hb : isFinite b = true) : IsZero (fmul a b) := by
  rw [IsZero, fmul_zero_left hb ha]
  exact magOf_ofMag_zero _

/-- A complex zero. -/
def IsZeroCplx (z : Cplx) : Prop := IsZero z.re ∧ IsZero z.im

/-! ### The stages (R190, R210, R240, R263) -/

theorem isZero_f64_zero : IsZero (f64 0) := by
  obtain ⟨-, hunits, -, -⟩ := f64_spec 0 (by decide)
  rw [zero_mul] at hunits
  exact (units_eq_zero _).1 hunits

theorem isZeroCplx_iqCplx_zero : IsZeroCplx (iqCplx 0#32) := by
  have hI : iqI 0#32 = 0 := by decide
  have hQ : iqQ 0#32 = 0 := by decide
  rw [iqCplx, hI, hQ]
  exact ⟨isZero_f64_zero, isZero_f64_zero⟩

theorem isZeroCplx_shiftOne (F : Int) (R p0 i : Nat) : IsZeroCplx (shiftOne F R p0 i 0#32) := by
  obtain ⟨hre, him⟩ := isZeroCplx_iqCplx_zero
  obtain ⟨hcos, hsin⟩ := inUnitInterval_ncoFn (phaseIndex F R p0 i) R
  rw [IsZeroCplx, shiftOne_re, shiftOne_im]
  exact ⟨(hre.fmul_left hcos.isFinite).fsub (him.fmul_left hsin.isFinite),
    (hre.fmul_left hsin.isFinite).fadd (him.fmul_left hcos.isFinite)⟩

theorem isZeroCplx_shift {ws : List Word} (hws : ∀ w ∈ ws, w = 0#32) (F : Int) (R p0 : Nat) :
    ∀ z ∈ shift F R p0 ws, IsZeroCplx z := by
  intro z hz
  obtain ⟨i, hi, rfl⟩ := List.mem_mapIdx.1 hz
  rw [hws _ (List.getElem_mem hi)]
  exact isZeroCplx_shiftOne F R p0 i

theorem getD_mem_or_default {P : F64 → Prop} {l : List F64} (hl : ∀ v ∈ l, P v) (hzero : P fZero) (i : Nat) :
    P (l.getD i fZero) := by
  rw [List.getD_eq_getElem?_getD]
  cases hi : l[i]? with
  | none => exact hzero
  | some v => exact hl v (List.mem_of_getElem? hi)

/-- A filter with finite taps keeps a zero signal zero. -/
theorem isZero_decimR {x h : List F64} (hx : ∀ v ∈ x, IsZero v) (hh : ∀ t ∈ h, isFinite t = true) (d : Nat) :
    ∀ v ∈ decimR x h d, IsZero v := by
  intro v hv
  obtain ⟨k, -, rfl⟩ := List.mem_map.1 hv
  refine List.foldlRecOn (motive := IsZero) _ _ isZero_fZero fun acc hacc j _ => ?_
  have hterm : IsZero (fmul (h.getD j fZero) (x.getD (k * d - j) fZero)) :=
    IsZero.fmul_right (getD_mem_or_default hh (by decide) j) (getD_mem_or_default hx isZero_fZero _)
  unfold decimTerm
  split
  · exact hacc.fadd hterm
  · exact hacc

theorem isZeroCplx_decimC {z : List Cplx} {h : List F64} (hz : ∀ w ∈ z, IsZeroCplx w)
    (hh : ∀ t ∈ h, isFinite t = true) (d : Nat) : ∀ w ∈ decimC z h d, IsZeroCplx w := by
  intro w hw
  have hre := isZero_decimR (x := z.map Cplx.re) (List.forall_mem_map.2 fun w hw => (hz w hw).1) hh d
  have him := isZero_decimR (x := z.map Cplx.im) (List.forall_mem_map.2 fun w hw => (hz w hw).2) hh d
  obtain ⟨i, hi, rfl⟩ := List.mem_iff_getElem.1 hw
  simp only [decimC, List.getElem_zipWith]
  exact ⟨hre _ (List.getElem_mem _), him _ (List.getElem_mem _)⟩

theorem discrimOne_of_isZeroCplx {a b : Cplx} (ha : IsZeroCplx a) (hb : IsZeroCplx b) : discrimOne b a = fZero := by
  have hafin := isFinite_of_magOf_zero ha.1
  have hifin := isFinite_of_magOf_zero ha.2
  have hre : IsZero (conjRe a b) := (IsZero.fmul_right hafin hb.1).fadd (IsZero.fmul_right hifin hb.2)
  have him : IsZero (conjIm a b) := (IsZero.fmul_right hifin hb.1).fsub (IsZero.fmul_right hafin hb.2)
  rw [discrimOne, atan2Fn_of_units_y_eq_zero (isFinite_of_magOf_zero him) (isFinite_of_magOf_zero hre)
    (units_of_magOf_zero him), units_of_magOf_zero hre]
  rfl

theorem isZero_discrimBuf {w : List Cplx} (hw : ∀ z ∈ w, IsZeroCplx z) : ∀ v ∈ discrimBuf w, IsZero v := by
  intro v hv
  obtain ⟨i, hi, rfl⟩ := List.mem_iff_getElem.1 hv
  simp only [discrimBuf, List.getElem_zipWith]
  rw [discrimOne_of_isZeroCplx (hw _ (List.mem_of_mem_tail (List.getElem_mem _))) (hw _ (List.getElem_mem _))]
  exact isZero_fZero

theorem isZero_deemph {x b0 : F64} (hx : isFinite x = true) (hb0 : isFinite b0 = true) {us : List F64} {y : F64}
    (hy : IsZero y) (hus : ∀ u ∈ us, IsZero u) : ∀ v ∈ deemph x b0 y us, IsZero v := by
  induction us generalizing y with
  | nil => exact fun v hv => absurd hv List.not_mem_nil
  | cons u us ih =>
    obtain ⟨hu, hus⟩ := List.forall_mem_cons.1 hus
    have hout : IsZero (deemphOne x b0 y u) := (IsZero.fmul_right hb0 hu).fadd (IsZero.fmul_right hx hy)
    exact List.forall_mem_cons.2 ⟨hout, ih hout hus⟩

/-! ### NORMALIZE and DEMOD (R302) -/

theorem normalizeBuf_peak (y : List F64) (rnd : Bool) : (normalizeBuf y rnd).peak = peakOf y := by
  unfold normalizeBuf
  dsimp only
  split <;> rfl

/-- A buffer of zeros is silent. -/
theorem normalizeBuf_of_isZero {y : List F64} (hy : ∀ v ∈ y, IsZero v) (rnd : Bool) :
    (normalizeBuf y rnd).silent = true ∧ (normalizeBuf y rnd).peak = fZero ∧
      ∀ c ∈ (normalizeBuf y rnd).pcm, c = 0#16 := by
  obtain ⟨-, hsign, -, hsilent, hpcm⟩ := peakAndSilence y rnd fun v hv => isFinite_of_magOf_zero (hy v hv)
  have hsilent := hsilent.2 fun v hv => (absUnits_eq_zero_iff v).2 (hy v hv)
  have hpeak : magOf (peakOf y) = 0 := (absUnits_eq_zero_iff _).1 ((normalizeBuf_silent_iff y rnd).1 hsilent)
  refine ⟨hsilent, ?_, hpcm hsilent⟩
  rw [normalizeBuf_peak]
  exact eq_of_sign_mag hsign hpeak

/-- Finite coefficient words are finite taps (R116). -/
theorem isFinite_taps {h : List Word} (hh : ∀ w ∈ h, tapNonFinite w = false) : ∀ t ∈ h.map f32to64, isFinite t = true :=
  List.forall_mem_map.2 fun w hw => isFinite_f32to64 w (hh w hw)

/-- Settles O60: every buffer of the pipeline is zero, stage by stage; the pole of an accepted rate is finite. -/
theorem silentInputGivesSilence : Obligations.SilentInputGivesSilence := by
  intro s h1 h2 R F rnd hlo hhi hs hh1 hh2
  have hx := inPoleInterval_deemphX hlo hhi
  have hw1 := isZeroCplx_shift hs F R 0
  have hw2 := isZeroCplx_decimC hw1 (isFinite_taps hh1) (factor1 R)
  have hw3 := isZero_discrimBuf hw2
  have hw4 := isZero_deemph hx.isFinite (isFinite_deemphB0 hx) isZero_fZero hw3
  have hw5 := isZero_decimR hw4 (isFinite_taps hh2) (factor2 R)
  exact normalizeBuf_of_isZero hw5 rnd

end Sys2Proof.Proofs
end
